-- ==== Sys2Proof/Word.lean ====
section
/-! DEFINITION. The word types of the block and their plainest arithmetic. -/

namespace Sys2Proof

/-- A byte of `SIN` or `SOUT` (20_memory.md R61). -/
abbrev Byte := BitVec 8

/-- A Value of `VIN` or `VOUT`: carried on 8 bits whatever `bw` is (20_memory.md R61, 00_scope.md R6). -/
abbrev Value := BitVec 8

/-- The 8 values of one bit-packed group (`vals`, `rs_grp`, `rr_grp`: 10_state.md R24, R30, R36, R44). -/
abbrev Group := Vector Value 8

/-- The group of eight zeros: the reset value of every group register (10_state.md R42). -/
def Group.zero : Group := #v[0, 0, 0, 0, 0, 0, 0, 0]

end Sys2Proof
end

