-- ==== Sys2Proof/Config.lean ====
section
/-! DEFINITION. The constants this hardware fixes (00_scope.md R6) and the free values the spec leaves open. -/

namespace Sys2Proof.Config

/-- `BW_MIN`: least legal `bit_width` (00_scope.md R6; 90_conflicts.md C2). -/
abbrev bwMin : Nat := 1

/-- `BW_MAX`: greatest legal `bit_width` (00_scope.md R6). -/
abbrev bwMax : Nat := 8

/-- `GROUP`: number of values in a bit-packed group (00_scope.md R6). -/
abbrev groupSize : Nat := 8

/-- `RLE_MIN`: least run length encoded as an RLE run (00_scope.md R6, 42_segmenter.md R199). -/
abbrev rleMin : Nat := 8

/-- `RLE_MAX`: the cap on the measured run length (00_scope.md R6, 42_segmenter.md R200). -/
abbrev rleMax : Nat := 0x3FFF

/-- `BP_HEADER`: the header of every bit-packed run ENCODE emits (00_scope.md R6). -/
abbrev bpHeader : BitVec 64 := 3

/-- `MAX_VARINT_BYTES`: the bound on a varint's length, fixed at 10 (00_scope.md R6, R7; 92_eei_decisions.md D8). -/
abbrev maxVarintBytes : Nat := 10

/-- The number of offsets a 33-bit cursor can name: the extent of a buffer space
(`SLEN_BITS`, 00_scope.md R6; 20_memory.md R60, R77). -/
abbrev spaceSize : Nat := 2 ^ 33

/-- The number of offsets of `VIN` and `VOUT`, whose length operands are 32 bits (20_memory.md R60). -/
abbrev valueSpaceSize : Nat := 2 ^ 32

/-- FREE VALUE. What result field number `field` holds after the error response number `draw`:
"no result field is valid" (60_exceptions.md R262). Nothing constrains it (log entry 6). -/
opaque freeBits (draw field : Nat) : BitVec 64

/-- FREE VALUE. What an operation's output buffer holds after the error response, abort or reset number
`draw`: "unspecified" (60_exceptions.md R262, R268; 70_reset_and_hazards.md R291; 93_implementation_defined.md U12).
Nothing constrains it (log entry 7). -/
opaque freeCells (draw : Nat) : List (Nat × BitVec 8)

end Sys2Proof.Config
end

