-- ==== Sys2Proof/Syntax.lean ====
section
/-! DEFINITION. The block's syntax: its units, the operand lines of a command port, the instructions (one
constructor per row of the opcode table) and the runs of a stream as the spec writes them. -/

namespace Sys2Proof

/-- The seven units (00_scope.md R2, 10_state.md R20). -/
inductive UnitId where
  | varintEncoder
  | varintDecoder
  | bitPacker
  | bitUnpacker
  | rleRunClassifier
  | runSegmenter
  | runReader
  deriving DecidableEq, Repr

/-- The seven units in the spec's leaves-first order (30_encoding.md R106). -/
def UnitId.all : List UnitId :=
  [.varintEncoder, .varintDecoder, .bitPacker, .bitUnpacker, .rleRunClassifier, .runSegmenter, .runReader]

/-- The two varint decoders that consume varint bytes: the standalone unit, and run_reader's private
one (10_state.md R20). -/
inductive DecoderId where
  | standalone
  | reader
  deriving DecidableEq, Repr

/-- The unit whose operation a varint decoder serves. -/
def DecoderId.unit : DecoderId → UnitId
  | .standalone => .varintDecoder
  | .reader => .runReader

/-- The operand lines of a command port: every operand field of 10_state.md R40, with its width (R24).
A unit reads only the fields its own operation has. -/
structure Operands where
  v     : BitVec 64 := 0
  bw    : BitVec 8 := 0
  vals  : Group := Group.zero
  avail : BitVec 33 := 0
  n     : BitVec 32 := 0
  i     : BitVec 32 := 0
  total : BitVec 32 := 0
  slen  : BitVec 33 := 0
  deriving DecidableEq, Repr

/-- The instructions, one constructor per row of opcode_table.json, at its three levels.

Stream level (executed by run_reader): `rle` and `bp` carry the field bits 63:1 of the run's header; the
body (value byte, payload) is read from `SIN` at `rr_pos` when the run executes (43_reader.md R227).
Byte level: a byte of a varint, told apart by bit 7, with the decoder that consumes it (30_encoding.md R90).
Command level: a command `{op, operands}` presented at the port of unit `u` (30_encoding.md R104, R105). -/
inductive Instr where
  /-- RLE run, `run_length = h[63:1]` (43_reader.md R228). -/
  | rle (runLength : BitVec 63)
  /-- Bit-packed run; the group count field `h[63:1]` is carried and ignored (43_reader.md R229). -/
  | bp (groupCount : BitVec 63)
  /-- Varint byte with the continuation bit set (30_encoding.md R90). -/
  | varintCont (d : DecoderId) (payload : BitVec 7)
  /-- Final varint byte (30_encoding.md R90). -/
  | varintLast (d : DecoderId) (payload : BitVec 7)
  /-- Command code 1 at the port of `u` (40_varint.md R131). -/
  | venc (u : UnitId) (v : BitVec 64)
  /-- Command code 2 at the port of `u` (40_varint.md R135). -/
  | vdec (u : UnitId) (avail : BitVec 33)
  /-- Command code 3 at the port of `u` (41_bitpack.md R161). -/
  | pack (u : UnitId) (bw : BitVec 8) (vals : Group)
  /-- Command code 4 at the port of `u` (41_bitpack.md R167). -/
  | unpack (u : UnitId) (bw : BitVec 8) (avail : BitVec 33)
  /-- Command code 5 at the port of `u` (42_segmenter.md R191). -/
  | classify (u : UnitId) (n i : BitVec 32)
  /-- Command code 6 at the port of `u` (42_segmenter.md R196). -/
  | encode (u : UnitId) (bw : BitVec 8) (n : BitVec 32)
  /-- Command code 7 at the port of `u` (43_reader.md R221). -/
  | decode (u : UnitId) (bw : BitVec 8) (total : BitVec 32) (slen : BitVec 33)
  /-- Reserved command code 0 at the port of `u` (30_encoding.md R105). -/
  | reserved (u : UnitId)
  deriving DecidableEq, Repr

/-- A run as the spec's listings write it: `RLE v, c` and `BP v0 .. v7` (30_encoding.md R107). It is no
state of the machine (42_segmenter.md R206). -/
inductive Run where
  | rle (value : Value) (count : BitVec 63)
  | bp (values : Group)
  deriving DecidableEq, Repr

end Sys2Proof
end

