-- ==== Sys2Proof/Machine/State.lean ====
section
/-! DEFINITION. The state of the block as plain data: for each unit its control bits, operand registers,
working registers, result registers and buffer spaces; the inputs still to come from outside; and the model's
own draw counter. Every default field value is the reset value (10_state.md R42, 70_reset_and_hazards.md R290). -/

namespace Sys2Proof.Machine

/-- A buffer space: (offset, element) pairs, offsets strictly rising, no element 0. An unlisted offset reads
as 0 (20_memory.md R60; log entry 4). -/
abbrev Memory := List Host.Cell

/-- The status of a response (10_state.md R23, 60_exceptions.md R250). Codes 6 and 7 are never produced
(93_implementation_defined.md U16). -/
inductive Status where
  | ok
  | valueOutOfRange
  | malformedHeader
  | truncatedBuffer
  | overrunError
  | badArgument
  deriving DecidableEq, Repr

/-- The control state of a unit: `busy` (10_state.md R22), `status` (R23), and whether its response port holds
the response to the latest accepted command (R21; 1 from a response to the next acceptance). -/
structure Control where
  busy     : Bool := false
  status   : Status := .ok
  answered : Bool := false
  deriving DecidableEq, Repr

/-- The control state of the seven units (10_state.md R20). -/
structure Controls where
  varintEncoder    : Control := {}
  varintDecoder    : Control := {}
  bitPacker        : Control := {}
  bitUnpacker      : Control := {}
  rleRunClassifier : Control := {}
  runSegmenter     : Control := {}
  runReader        : Control := {}
  deriving DecidableEq, Repr

/-! ### Working registers, one record for each kind of unit, used standalone and as private instances -/

/-- varint_encoder's working registers (10_state.md R25). -/
structure VencRegs where
  ve_v   : BitVec 64 := 0
  ve_len : BitVec 4 := 0
  deriving DecidableEq, Repr

/-- varint_decoder's working registers (10_state.md R26). -/
structure VdecRegs where
  vd_acc : BitVec 64 := 0
  vd_n   : BitVec 4 := 0
  deriving DecidableEq, Repr

/-- bit_packer's working registers (10_state.md R27). -/
structure PackRegs where
  bp_acc   : BitVec 32 := 0
  bp_nbits : BitVec 4 := 0
  bp_k     : BitVec 4 := 0
  bp_j     : BitVec 4 := 0
  deriving DecidableEq, Repr

/-- bit_unpacker's working registers (10_state.md R28). -/
structure UnpackRegs where
  bu_acc   : BitVec 32 := 0
  bu_nbits : BitVec 4 := 0
  bu_k     : BitVec 4 := 0
  bu_j     : BitVec 4 := 0
  deriving DecidableEq, Repr

/-- rle_run_classifier's working registers (10_state.md R29). -/
structure ClassifyRegs where
  rc_first : BitVec 8 := 0
  rc_len   : BitVec 14 := 0
  rc_kind  : BitVec 1 := 0
  deriving DecidableEq, Repr

/-! ### The units -/

/-- varint_encoder: operand `v`, working registers, result `len`, output buffer `SOUT` (10_state.md R24, R25, R40). -/
structure VarintEncoder where
  v    : BitVec 64 := 0
  work : VencRegs := {}
  len  : BitVec 4 := 0
  sout : Memory := []
  deriving DecidableEq, Repr

/-- varint_decoder: operand `avail`, working registers, results `value` and `consumed`, input buffer `SIN`
(10_state.md R24, R26, R40). -/
structure VarintDecoder where
  avail    : BitVec 33 := 0
  work     : VdecRegs := {}
  value    : BitVec 64 := 0
  consumed : BitVec 4 := 0
  sin      : Memory := []
  deriving DecidableEq, Repr

/-- bit_packer: operands `bw` and `vals`, working registers, result `olen`, output buffer `SOUT`
(10_state.md R24, R27, R40). -/
structure BitPacker where
  bw   : BitVec 8 := 0
  vals : Group := Group.zero
  work : PackRegs := {}
  olen : BitVec 33 := 0
  sout : Memory := []
  deriving DecidableEq, Repr

/-- bit_unpacker: operands `bw` and `avail`, working registers, results `vals` and `consumed`, input buffer
`SIN` (10_state.md R24, R28, R40). -/
structure BitUnpacker where
  bw       : BitVec 8 := 0
  avail    : BitVec 33 := 0
  work     : UnpackRegs := {}
  vals     : Group := Group.zero
  consumed : BitVec 4 := 0
  sin      : Memory := []
  deriving DecidableEq, Repr

/-- rle_run_classifier: operands `n` and `i`, working registers, results `L` and `kind`, input buffer `VIN`
(10_state.md R24, R29, R40). -/
structure RleRunClassifier where
  n    : BitVec 32 := 0
  i    : BitVec 32 := 0
  work : ClassifyRegs := {}
  L    : BitVec 14 := 0
  kind : BitVec 1 := 0
  vin  : Memory := []
  deriving DecidableEq, Repr

/-- run_segmenter: operands `bw` and `n`, its own working registers and those of its private classifier,
varint_encoder and bit_packer, result `olen`, buffers `VIN` and `SOUT` (10_state.md R24, R30 to R32, R40). -/
structure RunSegmenter where
  bw      : BitVec 8 := 0
  n       : BitVec 32 := 0
  rs_i    : BitVec 33 := 0
  rs_olen : BitVec 33 := 0
  rs_grp  : Group := Group.zero
  rc      : ClassifyRegs := {}
  ve      : VencRegs := {}
  bp      : PackRegs := {}
  olen    : BitVec 33 := 0
  vin     : Memory := []
  sout    : Memory := []
  deriving DecidableEq, Repr

/-- Where run_reader stands in the loop of 43_reader.md R221: at the stop test, inside the header fetch, or
before the run instruction (log entry 9). -/
inductive ReaderPhase where
  | top
  | header
  | body
  deriving DecidableEq, Repr

/-- run_reader: operands `bw`, `total` and `slen`, its own working registers and those of its private
varint_decoder and bit_unpacker, its place in the loop, buffers `SIN` and `VOUT`
(10_state.md R24, R33 to R36, R40). -/
structure RunReader where
  bw       : BitVec 8 := 0
  total    : BitVec 32 := 0
  slen     : BitVec 33 := 0
  rr_pos   : BitVec 33 := 0
  rr_count : BitVec 32 := 0
  rr_h     : BitVec 64 := 0
  rr_val   : BitVec 8 := 0
  rr_grp   : Group := Group.zero
  vd       : VdecRegs := {}
  bu       : UnpackRegs := {}
  phase    : ReaderPhase := .top
  sin      : Memory := []
  vout     : Memory := []
  deriving DecidableEq, Repr

/-- The buffer spaces, each with the unit whose operation reaches it (20_memory.md R60; log entry 5). -/
inductive Buffer where
  | vencSout
  | vdecSin
  | packSout
  | unpackSin
  | classifyVin
  | encodeVin
  | encodeSout
  | decodeSin
  | decodeVout
  deriving DecidableEq, Repr

/-- What comes from outside the units: the host's acts (60_exceptions.md R272) and the choice of which unit
moves, where the spec leaves the interleaving open (20_memory.md R73). -/
inductive Event where
  /-- The host presents `{op, operands}` at the port of `u` (10_state.md R21). -/
  | command (u : UnitId) (op : BitVec 3) (x : Operands)
  /-- The host asserts the `abort` input of `u` (60_exceptions.md R268). -/
  | abort (u : UnitId)
  /-- The host asserts and releases `reset` (70_reset_and_hazards.md R290). -/
  | reset
  /-- The host writes one element of a buffer (20_memory.md R60). -/
  | hostWrite (b : Buffer) (offset : BitVec 33) (element : BitVec 8)
  /-- Unit `u` takes its next step (20_memory.md R73, 60_exceptions.md R272). -/
  | tick (u : UnitId)
  deriving DecidableEq, Repr

/-- The whole block. -/
structure State where
  ctl : Controls := {}
  ve  : VarintEncoder := {}
  vd  : VarintDecoder := {}
  bp  : BitPacker := {}
  bu  : BitUnpacker := {}
  rc  : RleRunClassifier := {}
  rs  : RunSegmenter := {}
  rr  : RunReader := {}
  /-- What comes from outside, oldest first (log entry 10). -/
  agenda : List Event := []
  /-- The model's own: how many free values have been drawn (log entries 6 and 7). -/
  draws : Nat := 0
  deriving DecidableEq, Repr

/-- Why the machine stops. The block itself has no such stop: its errors are responses
(60_exceptions.md R250, R260). -/
inductive Fault where
  /-- Raised by the host act `hostWrite` at an offset of `VIN` or `VOUT` that no 32-bit length can reach:
  the space has no such element (20_memory.md R60). Safe: the machine stops. -/
  | noSuchOffset
  deriving DecidableEq, Repr

/-- Why the model gives no meaning. -/
inductive Refusal where
  /-- Raised by an arm of `exec` whose instruction has no meaning yet: there is none. Safe. -/
  | notModelled (mnemonic : String)
  /-- Raised by the host act `hostWrite` on a buffer of a unit with `busy = 1`: "not defined by any source"
  (20_memory.md R72; 93_implementation_defined.md U9). Safe: no behaviour is claimed. -/
  | hostWritesOwnedBuffer
  deriving DecidableEq, Repr

/-- The block right after reset (10_state.md R42, 70_reset_and_hazards.md R290): every unit idle with status OK,
every register 0, nothing listed in any buffer, nothing coming from outside. -/
def State.reset : State := {}

end Sys2Proof.Machine
end

