-- ==== Sys2Proof/Machine/Ops.lean ====
section
/-! DEFINITION. The shared operations: buffer spaces, unit control, acceptance and response, raising an error,
abort and reset. -/

namespace Sys2Proof.Machine

/-! ### Buffer spaces -/

/-- `MemRead(S:a, 1)` (00_scope.md R9). An unlisted offset reads as 0. -/
def Memory.read : Memory → Nat → Byte
  | [], _ => 0
  | (a, b) :: m, x => if a = x then b else Memory.read m x

/-- `MemWrite(S:a, 1, v)` (00_scope.md R9), keeping the canonical form. -/
def Memory.write : Memory → Nat → Byte → Memory
  | [], x, v => if v = 0 then [] else [(x, v)]
  | (a, b) :: m, x, v =>
    if x < a then (if v = 0 then (a, b) :: m else (x, v) :: (a, b) :: m)
    else if x = a then (if v = 0 then m else (x, v) :: m)
    else (a, b) :: Memory.write m x v

/-- Every cell of `m` lies at or above offset `lo`, below the end of the widest space, in rising order, and is not
0. -/
def Memory.wfAbove : Nat → Memory → Bool
  | _, [] => true
  | lo, (a, b) :: m => decide (lo ≤ a) && decide (a < Config.spaceSize) && decide (b ≠ 0) && Memory.wfAbove (a + 1) m

/-- The canonical form: offsets strictly rising and below `2^33` (the widest space), no element equal to what an
unlisted offset reads as. That a buffer's offsets lie inside its own space is `State.buffersFit`. -/
def Memory.wf (m : Memory) : Bool := Memory.wfAbove 0 m

/-- The canonical memory that holds the given cells (a later one overrides an earlier; offsets at or above the
space's `extent` are dropped). -/
def Memory.ofCells (extent : Nat) : List (Nat × BitVec 8) → Memory → Memory
  | [], m => m
  | (a, b) :: l, m => Memory.ofCells extent l (if a < extent then Memory.write m a b else m)

/-- Writes a list of elements at rising offsets. -/
def Memory.writeList : Memory → Nat → List Byte → Memory
  | m, _, [] => m
  | m, a, b :: bs => Memory.writeList (Memory.write m a b) (a + 1) bs

/-- The `len` elements from offset `a` on. -/
def Memory.slice (m : Memory) (a len : Nat) : List Byte :=
  (List.range len).map fun k => Memory.read m (a + k)

/-- The unit that reaches a buffer (20_memory.md R60). -/
def Buffer.owner : Buffer → UnitId
  | .vencSout => .varintEncoder
  | .vdecSin => .varintDecoder
  | .packSout => .bitPacker
  | .unpackSin => .bitUnpacker
  | .classifyVin => .rleRunClassifier
  | .encodeVin => .runSegmenter
  | .encodeSout => .runSegmenter
  | .decodeSin => .runReader
  | .decodeVout => .runReader

/-- The output buffer of a unit's operation, where it has one (20_memory.md R60). -/
def outputOf : UnitId → Option Buffer
  | .varintEncoder => some .vencSout
  | .varintDecoder => none
  | .bitPacker => some .packSout
  | .bitUnpacker => none
  | .rleRunClassifier => none
  | .runSegmenter => some .encodeSout
  | .runReader => some .decodeVout

/-- The number of offsets of a buffer's space (20_memory.md R60). -/
def Buffer.extent : Buffer → Nat
  | .classifyVin => Config.valueSpaceSize
  | .encodeVin => Config.valueSpaceSize
  | .decodeVout => Config.valueSpaceSize
  | .vencSout => Config.spaceSize
  | .vdecSin => Config.spaceSize
  | .packSout => Config.spaceSize
  | .unpackSin => Config.spaceSize
  | .encodeSout => Config.spaceSize
  | .decodeSin => Config.spaceSize

/-- The contents of a buffer. -/
def State.buffer (s : State) : Buffer → Memory
  | .vencSout => s.ve.sout
  | .vdecSin => s.vd.sin
  | .packSout => s.bp.sout
  | .unpackSin => s.bu.sin
  | .classifyVin => s.rc.vin
  | .encodeVin => s.rs.vin
  | .encodeSout => s.rs.sout
  | .decodeSin => s.rr.sin
  | .decodeVout => s.rr.vout

/-- Replaces the contents of a buffer. -/
def State.setBuffer (s : State) (b : Buffer) (m : Memory) : State :=
  match b with
  | .vencSout => { s with ve := { s.ve with sout := m } }
  | .vdecSin => { s with vd := { s.vd with sin := m } }
  | .packSout => { s with bp := { s.bp with sout := m } }
  | .unpackSin => { s with bu := { s.bu with sin := m } }
  | .classifyVin => { s with rc := { s.rc with vin := m } }
  | .encodeVin => { s with rs := { s.rs with vin := m } }
  | .encodeSout => { s with rs := { s.rs with sout := m } }
  | .decodeSin => { s with rr := { s.rr with sin := m } }
  | .decodeVout => { s with rr := { s.rr with vout := m } }

/-! ### Unit control -/

/-- The control state of one unit. -/
def Controls.get (c : Controls) : UnitId → Control
  | .varintEncoder => c.varintEncoder
  | .varintDecoder => c.varintDecoder
  | .bitPacker => c.bitPacker
  | .bitUnpacker => c.bitUnpacker
  | .rleRunClassifier => c.rleRunClassifier
  | .runSegmenter => c.runSegmenter
  | .runReader => c.runReader

/-- Replaces the control state of one unit. -/
def Controls.set (c : Controls) (u : UnitId) (x : Control) : Controls :=
  match u with
  | .varintEncoder => { c with varintEncoder := x }
  | .varintDecoder => { c with varintDecoder := x }
  | .bitPacker => { c with bitPacker := x }
  | .bitUnpacker => { c with bitUnpacker := x }
  | .rleRunClassifier => { c with rleRunClassifier := x }
  | .runSegmenter => { c with runSegmenter := x }
  | .runReader => { c with runReader := x }

/-- The control state of unit `u`. -/
def State.control (s : State) (u : UnitId) : Control := s.ctl.get u

/-- Replaces the control state of unit `u`. -/
def State.setControl (s : State) (u : UnitId) (c : Control) : State := { s with ctl := s.ctl.set u c }

/-- `busy` of unit `u` (10_state.md R22). -/
def State.busy (s : State) (u : UnitId) : Bool := (s.control u).busy

/-- The response of unit `u`: `status <- K`, `busy <- 0`, the response port holds it (10_state.md R21 to R23). -/
def State.respond (s : State) (u : UnitId) (k : Status) : State :=
  s.setControl u { busy := false, status := k, answered := true }

/-! ### Acceptance -/

/-- Every working register of unit `u`, those of its private sub-units included, is set to 0 (10_state.md R42). -/
def State.clearWork (s : State) (u : UnitId) : State :=
  match u with
  | .varintEncoder => { s with ve := { s.ve with work := {} } }
  | .varintDecoder => { s with vd := { s.vd with work := {} } }
  | .bitPacker => { s with bp := { s.bp with work := {} } }
  | .bitUnpacker => { s with bu := { s.bu with work := {} } }
  | .rleRunClassifier => { s with rc := { s.rc with work := {} } }
  | .runSegmenter =>
    { s with rs := { s.rs with
        rs_i := 0, rs_olen := 0, rs_grp := Group.zero, rc := {}, ve := {}, bp := {} } }
  | .runReader =>
    { s with rr := { s.rr with
        rr_pos := 0, rr_count := 0, rr_h := 0, rr_val := 0, rr_grp := Group.zero, vd := {}, bu := {},
        phase := .top } }

/-- Acceptance of a command by unit `u`: `busy <- 1`, working registers 0; `status` keeps its old value until
the response overwrites it (10_state.md R21, R42). -/
def State.accept (s : State) (u : UnitId) : State :=
  (s.clearWork u).setControl u { busy := true, status := (s.control u).status, answered := false }

/-! ### Raising an error -/

/-- The result fields of unit `u` take free values: none is valid (60_exceptions.md R262). -/
def State.freeResults (s : State) (u : UnitId) : State :=
  let f := Config.freeBits s.draws
  match u with
  | .varintEncoder => { s with ve := { s.ve with len := (f 0).setWidth 4 } }
  | .varintDecoder => { s with vd := { s.vd with value := f 0, consumed := (f 1).setWidth 4 } }
  | .bitPacker => { s with bp := { s.bp with olen := (f 0).setWidth 33 } }
  | .bitUnpacker =>
    { s with bu := { s.bu with
        consumed := (f 0).setWidth 4
        vals := #v[(f 1).setWidth 8, (f 2).setWidth 8, (f 3).setWidth 8, (f 4).setWidth 8,
                   (f 5).setWidth 8, (f 6).setWidth 8, (f 7).setWidth 8, (f 8).setWidth 8] } }
  | .rleRunClassifier => { s with rc := { s.rc with L := (f 0).setWidth 14, kind := (f 1).setWidth 1 } }
  | .runSegmenter => { s with rs := { s.rs with olen := (f 0).setWidth 33 } }
  | .runReader => s

/-- The output buffer of unit `u`, where it has one, takes free contents: they are unspecified
(60_exceptions.md R262, R268). One draw is used up. -/
def State.freeOutput (s : State) (u : UnitId) : State :=
  match outputOf u with
  | none => { s with draws := s.draws + 1 }
  | some b =>
    { s.setBuffer b (Memory.ofCells b.extent (Config.freeCells s.draws) []) with draws := s.draws + 1 }

/-- `raise K` in unit `u` (60_exceptions.md R260, R262): the operation stops, `status <- K`, `busy <- 0`, the
response `(K, no results)` is produced. The working registers keep what they held. There is no handler, no
vector and nothing saved (R261); nor is there any return (R264). -/
def State.raise (s : State) (u : UnitId) (k : Status) : State :=
  ((s.freeResults u).freeOutput u).respond u k

/-! ### Abort, reset, the host's writes -/

/-- `abort` of unit `u` (60_exceptions.md R268): with an operation in flight, `busy <- 0`, no response, `status`
unchanged, output buffer unspecified; with none, nothing. -/
def State.abort (s : State) (u : UnitId) : State :=
  if s.busy u then
    (s.freeOutput u).setControl u { busy := false, status := (s.control u).status, answered := false }
  else s

/-- `abort` of each of the units in a list. -/
def State.abortAll (s : State) : List UnitId → State
  | [] => s
  | u :: us => (s.abort u).abortAll us

/-- `reset` (70_reset_and_hazards.md R290, R291): every operation in flight is abandoned as by `abort`; then
every register is 0 and every unit idle with status OK; buffers keep what the host and any abandoned operation
left there. What is still to come from outside, and the draw counter, are not the block's. -/
def State.applyReset (s : State) : State :=
  let t := s.abortAll UnitId.all
  { ctl := {}
    ve := { sout := t.ve.sout }
    vd := { sin := t.vd.sin }
    bp := { sout := t.bp.sout }
    bu := { sin := t.bu.sin }
    rc := { vin := t.rc.vin }
    rs := { vin := t.rs.vin, sout := t.rs.sout }
    rr := { sin := t.rr.sin, vout := t.rr.vout }
    agenda := t.agenda
    draws := t.draws }

/-- The host writes one element of a buffer it owns (20_memory.md R60, R72). -/
def hostWrite (b : Buffer) (offset : BitVec 33) (element : Byte) (s : State) :
    Host.Outcome State Fault Refusal :=
  if b.extent ≤ offset.toNat then .fault .noSuchOffset
  else if s.busy b.owner then .refused .hostWritesOwnedBuffer
  else .next (s.setBuffer b (Memory.write (s.buffer b) offset.toNat element))

/-- A command presented at the port of unit `u` whose code belongs to unit `own` (10_state.md R21, R22;
30_encoding.md R105): not accepted while `u` is busy; answered `BadArgument` when `u` is not the owner, without
reading any operand or buffer; else accepted, and `body` latches the operands and begins the operation. -/
def presented (own u : UnitId) (body : State → State) (s : State) : Host.Outcome State Fault Refusal :=
  if s.busy u then .next s
  else if u = own then .next (body (s.accept own))
  else .next ((s.accept u).raise u .badArgument)

end Sys2Proof.Machine
end

