-- ==== Sys2Proof/Machine/Commands.lean ====
section
/-! DEFINITION. The reserved command code. -/

namespace Sys2Proof.Machine

/-- The reserved command code 0 at the port of `u`: no unit's own, so answered `BadArgument` with no result, without
reading any operand or buffer (30_encoding.md R105); held by the host while `u` is busy (10_state.md R22). -/
def execReserved (u : UnitId) (s : State) : Host.Outcome State Fault Refusal :=
  if s.busy u then .next s else .next ((s.accept u).raise u .badArgument)

end Sys2Proof.Machine
end

