-- ==== Sys2Proof/Machine/Flags.lean ====
section
/-! DEFINITION. The block's flags (10_state.md R39): the status codes and the classifier's kind bit. `busy` is
in Machine/Ops.lean, and the type bit `rr_h[0]` selects the run in `decodeHeader`. There are no arithmetic condition codes. -/

namespace Sys2Proof.Machine

/-- The 3-bit code of a status (10_state.md R23, 60_exceptions.md R250). -/
def Status.code : Status → BitVec 3
  | .ok => 0
  | .valueOutOfRange => 1
  | .malformedHeader => 2
  | .truncatedBuffer => 3
  | .overrunError => 4
  | .badArgument => 5

/-- `rc_kind`: 0 if the length is at least 8, 1 otherwise (10_state.md R39, 42_segmenter.md R191). -/
def kindOf (len : BitVec 14) : BitVec 1 := if Config.rleMin ≤ len.toNat then 0 else 1

end Sys2Proof.Machine
end

