-- ==== Sys2Proof/WellFormed.lean ====
section
/-! DEFINITION. Which instructions are well formed: a command at its own unit's port with operands in the legal
ranges of 10_state.md R24. An ill-formed command is still executed (it is answered `BadArgument`,
60_exceptions.md R255); every run header and every varint byte is well formed (30_encoding.md R102, R103). -/

namespace Sys2Proof

/-- `1 <= bw <= 8` (00_scope.md R6, 10_state.md R24). -/
def legalWidth (bw : BitVec 8) : Bool :=
  decide (Config.bwMin ≤ bw.toNat) && decide (bw.toNat ≤ Config.bwMax)

/-- The command is presented at the unit that owns its code, with legal operands (30_encoding.md R105, R106;
10_state.md R24). -/
def Instr.wellFormed : Instr → Bool
  | .rle _ => true
  | .bp _ => true
  | .varintCont _ _ => true
  | .varintLast _ _ => true
  | .venc u _ => decide (u = .varintEncoder)
  | .vdec u _ => decide (u = .varintDecoder)
  | .pack u bw _ => decide (u = .bitPacker) && legalWidth bw
  | .unpack u bw _ => decide (u = .bitUnpacker) && legalWidth bw
  | .classify u n i => decide (u = .rleRunClassifier) && decide (i.toNat < n.toNat)
  | .encode u bw _ => decide (u = .runSegmenter) && legalWidth bw
  | .decode u bw _ _ => decide (u = .runReader) && legalWidth bw
  | .reserved _ => false

end Sys2Proof
end

