-- ==== Sys2Proof/Decode.lean ====
section
/-! DEFINITION. The decoders of the three levels (command, varint byte, run header), total on any input and
rejecting by name; the encoder, from the same tables of 30_encoding.md; and the words of a whole run. -/

namespace Sys2Proof

/-- The words of an instruction, at the level the opcode table gives it. -/
inductive Code where
  /-- `{op[2:0], operands}` at the port of unit `u` (30_encoding.md R104). -/
  | command (u : UnitId) (op : BitVec 3) (x : Operands)
  /-- One byte of a varint, at the decoder that consumes it (30_encoding.md R90). -/
  | varintByte (d : DecoderId) (b : Byte)
  /-- The bytes that begin at a run's first byte (30_encoding.md R93, R94, R100). -/
  | runHeader (bytes : List Byte)
  deriving DecidableEq, Repr

/-- Why bytes are no instruction. -/
inductive DecodeError where
  /-- No byte at a run boundary (43_reader.md R223). -/
  | noByte
  /-- The header varint is unterminated, longer than 10 bytes or above 64 bits (40_varint.md R136). -/
  | malformedHeader
  deriving DecidableEq, Repr

/-! ### The varint (30_encoding.md R90 to R92) -/

/-- Bit 7 of a varint byte: another byte follows (30_encoding.md R90). -/
def contBit (b : Byte) : Bool := b.getLsbD 7

/-- Bits 6:0 of a varint byte (30_encoding.md R90). -/
def payloadBits (b : Byte) : BitVec 7 := b.extractLsb' 0 7

/-- A varint byte from its two fields (30_encoding.md R90). -/
def varintByteOf (cont : Bool) (payload : BitVec 7) : Byte := BitVec.ofBool cont ++ payload

/-- The number of bytes of the minimal varint of `v`: the table of 30_encoding.md R91. -/
def varintLen (v : BitVec 64) : Nat :=
  if v.toNat < 2 ^ 7 then 1
  else if v.toNat < 2 ^ 14 then 2
  else if v.toNat < 2 ^ 21 then 3
  else if v.toNat < 2 ^ 28 then 4
  else if v.toNat < 2 ^ 35 then 5
  else if v.toNat < 2 ^ 42 then 6
  else if v.toNat < 2 ^ 49 then 7
  else if v.toNat < 2 ^ 56 then 8
  else if v.toNat < 2 ^ 63 then 9
  else 10

/-- The minimal varint of `v`: `SOUT[k] = v[7k+6 : 7k] | (0x80 if k < m - 1 else 0)` (40_varint.md R132). -/
def varintBytes (v : BitVec 64) : List Byte :=
  (List.range (varintLen v)).map fun k =>
    varintByteOf (decide (k + 1 < varintLen v)) (v.extractLsb' (7 * k) 7)

/-- The index of the first byte whose continuation bit is 0, if there is one (30_encoding.md R91). -/
def firstFinal : List Byte → Option Nat
  | [] => none
  | b :: bs => if contBit b then (firstFinal bs).map (· + 1) else some 0

/-- `sum over k of (b[k][6:0] << 7k)` (30_encoding.md R92). -/
def varintValue : List Byte → Nat
  | [] => 0
  | b :: bs => (payloadBits b).toNat + 128 * varintValue bs

/-- Value and length of the varint at the front of `bs`, when VDEC accepts one: the closed form of
40_varint.md R136. -/
def varintOf (bs : List Byte) : Option (BitVec 64 × Nat) :=
  match firstFinal (bs.take Config.maxVarintBytes) with
  | none => none
  | some j =>
    if j = 9 ∧ 1 < (bs.getD 9 0).toNat then none
    else some (BitVec.ofNat 64 (varintValue (bs.take (j + 1))), j + 1)

/-! ### The decoders -/

/-- A command `{op, operands}` presented at the port of `u` (30_encoding.md R106). Total: code 0 is the
reserved code, and a code that is not `u`'s own is decoded too, to be answered `BadArgument` (R105). -/
def decodeCommand (u : UnitId) (op : BitVec 3) (x : Operands) : Instr :=
  match op.toNat with
  | 1 => .venc u x.v
  | 2 => .vdec u x.avail
  | 3 => .pack u x.bw x.vals
  | 4 => .unpack u x.bw x.avail
  | 5 => .classify u x.n x.i
  | 6 => .encode u x.bw x.n
  | 7 => .decode u x.bw x.total x.slen
  | _ => .reserved u

/-- A byte of a varint (30_encoding.md R90). -/
def decodeVarintByte (d : DecoderId) (b : Byte) : Instr :=
  if contBit b then .varintCont d (payloadBits b) else .varintLast d (payloadBits b)

/-- The header field split: type bit 0, the rest bits 63:1 (30_encoding.md R95, 43_reader.md R226). -/
def decodeHeader (h : BitVec 64) : Instr :=
  if h.getLsbD 0 then .bp (h.extractLsb' 1 63) else .rle (h.extractLsb' 1 63)

/-- The run that begins at the first of `bs` (30_encoding.md R100). -/
def decodeRun (bs : List Byte) : Except DecodeError Instr :=
  match bs with
  | [] => .error .noByte
  | b :: bs =>
    match varintOf (b :: bs) with
    | none => .error .malformedHeader
    | some (h, _) => .ok (decodeHeader h)

/-- The instruction that given words stand for. -/
def decode : Code → Except DecodeError Instr
  | .command u op x => .ok (decodeCommand u op x)
  | .varintByte d b => .ok (decodeVarintByte d b)
  | .runHeader bs => decodeRun bs

/-! ### The encoder -/

/-- The header of an RLE run: `(run_length << 1) | 0` (30_encoding.md R93). -/
def rleHeader (c : BitVec 63) : BitVec 64 := c ++ (0 : BitVec 1)

/-- The header of a bit-packed run: group count in bits 63:1, type bit 1 (30_encoding.md R94). -/
def bpHeaderOf (g : BitVec 63) : BitVec 64 := g ++ (1 : BitVec 1)

/-- The words of an instruction: command codes of 30_encoding.md R106, varint bytes of R90, run headers of
R93 and R94 as minimal varints (R91). -/
def encode : Instr → Code
  | .rle c => .runHeader (varintBytes (rleHeader c))
  | .bp g => .runHeader (varintBytes (bpHeaderOf g))
  | .varintCont d p => .varintByte d (varintByteOf true p)
  | .varintLast d p => .varintByte d (varintByteOf false p)
  | .venc u v => .command u 1 { v }
  | .vdec u avail => .command u 2 { avail }
  | .pack u bw vals => .command u 3 { bw, vals }
  | .unpack u bw avail => .command u 4 { bw, avail }
  | .classify u n i => .command u 5 { n, i }
  | .encode u bw n => .command u 6 { bw, n }
  | .decode u bw total slen => .command u 7 { bw, total, slen }
  | .reserved u => .command u 0 {}

/-! ### The packed group and the bytes of a run (30_encoding.md R93 to R97) -/

/-- Element `k` of a group, 0 outside 0..7. -/
def Group.at (g : Group) (k : Nat) : Value := g[k]?.getD 0

/-- The number `P' = OR over k of (vals[k] << (k * bw))`; for values below `2^bw` it is the `P` of
30_encoding.md R96 (41_bitpack.md R163, R165). -/
def packNumber (bw : Nat) (g : Group) : Nat :=
  (List.range Config.groupSize).foldl (fun p k => p ||| ((g.at k).toNat <<< (k * bw))) 0

/-- The `bw` payload bytes `B[j] = P[8j + 7 : 8j]` (30_encoding.md R96; 41_bitpack.md R163, R165). -/
def packBytes (bw : Nat) (g : Group) : List Byte :=
  (List.range bw).map fun j => BitVec.ofNat 8 (packNumber bw g >>> (8 * j))

/-- The number `P = sum over j of (B[j] << 8j)` (41_bitpack.md R168). -/
def unpackNumber : List Byte → Nat
  | [] => 0
  | b :: bs => b.toNat + 256 * unpackNumber bs

/-- Value `k` of a packed group: `P[k*bw + bw - 1 : k*bw]` (30_encoding.md R96, 41_bitpack.md R168). -/
def unpackValue (bw : Nat) (bs : List Byte) (k : Nat) : Value :=
  BitVec.ofNat 8 (unpackNumber (bs.take bw) >>> (k * bw) % 2 ^ bw)

/-- The group packed in the first `bw` bytes of `bs` (41_bitpack.md R168). -/
def unpackGroup (bw : Nat) (bs : List Byte) : Group :=
  #v[unpackValue bw bs 0, unpackValue bw bs 1, unpackValue bw bs 2, unpackValue bw bs 3,
     unpackValue bw bs 4, unpackValue bw bs 5, unpackValue bw bs 6, unpackValue bw bs 7]

/-- The bytes of a run in a stream of width `bw` (30_encoding.md R93, R94, R107). -/
def Run.bytes (bw : Nat) : Run → List Byte
  | .rle v c => varintBytes (rleHeader c) ++ [v]
  | .bp g => varintBytes Config.bpHeader ++ packBytes bw g

/-! ### One word of the opcode table -/

/-- The unit that owns a command code; the reserved code 0 is owned by none and is presented to
varint_encoder here (30_encoding.md R105, R106). -/
def ownerOf (op : BitVec 3) : UnitId :=
  match op.toNat with
  | 2 => .varintDecoder
  | 3 => .bitPacker
  | 4 => .bitUnpacker
  | 5 => .rleRunClassifier
  | 6 => .runSegmenter
  | 7 => .runReader
  | _ => .varintEncoder

/-- The level at which a bare word of the opcode table is read. The table's three levels number their bits
from 0 alike and share words; a word that fits the 3-bit command code is read at a command port, a longer
one as a byte of the reader's stream: a varint byte where bit 7 says that more follow, else the one-byte
header of a run (log entry 13). -/
def tableCode (nbits w : Nat) : Code :=
  let w := w % 2 ^ nbits
  if w < 8 then .command (ownerOf (BitVec.ofNat 3 w)) (BitVec.ofNat 3 w) {}
  else if contBit (BitVec.ofNat 8 w) then .varintByte .reader (BitVec.ofNat 8 w)
  else .runHeader [BitVec.ofNat 8 w]

/-- The instruction the decoder reads from a bare word of the opcode table (operand words of zeros). -/
def decodeTableWord (nbits w : Nat) : Option Instr :=
  match decode (tableCode nbits w) with
  | .ok i => some i
  | .error _ => none

end Sys2Proof
end

