-- ==== Sys2Proof/Machine/Operands.lean ====
section
/-! DEFINITION. Operand forms: latching the operands of each command (10_state.md R24) and reading the elements
of the buffer spaces that the loops use (20_memory.md R62). -/

namespace Sys2Proof.Machine

/-- VENC's operand (10_state.md R24). -/
def State.latchVenc (s : State) (v : BitVec 64) : State :=
  { s with ve := { s.ve with v := v } }

/-- VDEC's operand (10_state.md R24). -/
def State.latchVdec (s : State) (avail : BitVec 33) : State :=
  { s with vd := { s.vd with avail := avail } }

/-- PACK's operands (10_state.md R24). -/
def State.latchPack (s : State) (bw : BitVec 8) (vals : Group) : State :=
  { s with bp := { s.bp with bw := bw, vals := vals } }

/-- UNPACK's operands (10_state.md R24). -/
def State.latchUnpack (s : State) (bw : BitVec 8) (avail : BitVec 33) : State :=
  { s with bu := { s.bu with bw := bw, avail := avail } }

/-- CLASSIFY's operands (10_state.md R24). -/
def State.latchClassify (s : State) (n i : BitVec 32) : State :=
  { s with rc := { s.rc with n := n, i := i } }

/-- ENCODE's operands (10_state.md R24). -/
def State.latchEncode (s : State) (bw : BitVec 8) (n : BitVec 32) : State :=
  { s with rs := { s.rs with bw := bw, n := n } }

/-- DECODE's operands (10_state.md R24). -/
def State.latchDecode (s : State) (bw : BitVec 8) (total : BitVec 32) (slen : BitVec 33) : State :=
  { s with rr := { s.rr with bw := bw, total := total, slen := slen } }

/-- The values `VIN[start .. start + 7]`, 0 where `n` is reached: the group of the bit-packed step with its
zero padding (42_segmenter.md R198, 30_encoding.md R98). -/
def groupFrom (vin : Memory) (n start : Nat) : Group :=
  let f k := if start + k < n then Memory.read vin (start + k) else 0
  #v[f 0, f 1, f 2, f 3, f 4, f 5, f 6, f 7]

/-- Some `VIN[k]` with `k < n` is at or above `2^bw` (42_segmenter.md R195, 60_exceptions.md R251). -/
def anyOutOfRange (vin : Memory) (n bw : Nat) : Bool :=
  (List.range n).any fun k => decide (2 ^ bw ≤ (Memory.read vin k).toNat)

end Sys2Proof.Machine
end

