-- ==== Sys2Proof/Machine/Bitpack.lean ====
section
/-! DEFINITION. The bit-packing family (41_bitpack.md): PACK and UNPACK, with the passes of their loops that the
standalone units and the private instances of run_segmenter and run_reader share. -/

namespace Sys2Proof.Machine

/-! ### bit_packer -/

/-- One pass of PACK's loop over a value: the byte it emits, if any, and the registers after it
(41_bitpack.md R161). The `while` runs at most once, since `bp_nbits <= 15`. -/
def packPass (bw : Nat) (v : Value) (w : PackRegs) : Option Byte × PackRegs :=
  let acc := w.bp_acc ||| (v.setWidth 32 <<< w.bp_nbits.toNat)
  let nbits := w.bp_nbits + BitVec.ofNat 4 bw
  if 8 ≤ nbits.toNat then
    (some (acc.setWidth 8),
      { bp_acc := acc >>> 8, bp_nbits := nbits - 8, bp_k := w.bp_k + 1, bp_j := w.bp_j + 1 })
  else (none, { bp_acc := acc, bp_nbits := nbits, bp_k := w.bp_k + 1, bp_j := w.bp_j })

/-- `count` passes of PACK's loop: the bytes in order and the registers after them. -/
def packLoop (bw : Nat) (g : Group) : Nat → PackRegs → List Byte × PackRegs
  | 0, w => ([], w)
  | count + 1, w =>
    let (b, w1) := packPass bw (g.at w.bp_k.toNat) w
    let (bs, w2) := packLoop bw g count w1
    (b.toList ++ bs, w2)

/-- `PACK(bw, g)` inside ENCODE (42_segmenter.md R198). -/
def packWhole (bw : Nat) (g : Group) : List Byte × PackRegs := packLoop bw g Config.groupSize {}

/-- PACK, accepted: `BadArgument` where `bw` is outside 1 to 8 (41_bitpack.md R161, R164). -/
def beginPack (bw : BitVec 8) (vals : Group) (s : State) : State :=
  let s := s.latchPack bw vals
  if legalWidth bw then s else s.raise .bitPacker .badArgument

/-- The command PACK (41_bitpack.md R161). -/
def execPack (u : UnitId) (bw : BitVec 8) (vals : Group) (s : State) : Host.Outcome State Fault Refusal :=
  presented .bitPacker u (beginPack bw vals) s

/-- One step of bit_packer at work: one value; after the eighth, the response `OK` with `olen = bp_j`
(41_bitpack.md R161). No residual byte can remain (41_bitpack.md R162, 90_conflicts.md C7). -/
def packStep (s : State) : State :=
  let (b, w) := packPass s.bp.bw.toNat (s.bp.vals.at s.bp.work.bp_k.toNat) s.bp.work
  let t := { s with bp := { s.bp with
    work := w, sout := Memory.writeList s.bp.sout s.bp.work.bp_j.toNat b.toList } }
  if Config.groupSize ≤ w.bp_k.toNat then
    { t with bp := { t.bp with olen := w.bp_j.setWidth 33 } }.respond .bitPacker .ok
  else t

/-! ### bit_unpacker -/

/-- One pass of UNPACK's loop: the value it extracts and the registers after it (41_bitpack.md R167). The group
begins at offset `base` of `sin`. The refill `while` runs at most once, since `bw <= 8`. -/
def unpackPass (bw base : Nat) (sin : Memory) (w : UnpackRegs) : Value × UnpackRegs :=
  let refill := decide (w.bu_nbits.toNat < bw)
  let acc :=
    if refill then w.bu_acc ||| ((Memory.read sin (base + w.bu_j.toNat)).setWidth 32 <<< w.bu_nbits.toNat)
    else w.bu_acc
  let j := if refill then w.bu_j + 1 else w.bu_j
  let nbits := if refill then w.bu_nbits + 8 else w.bu_nbits
  (BitVec.ofNat 8 (acc.toNat % 2 ^ bw),
    { bu_acc := acc >>> bw, bu_nbits := nbits - BitVec.ofNat 4 bw, bu_k := w.bu_k + 1, bu_j := j })

/-- `count` passes of UNPACK's loop, filling the group (41_bitpack.md R167). -/
def unpackLoop (bw base : Nat) (sin : Memory) : Nat → UnpackRegs → Group → Group × UnpackRegs
  | 0, w, g => (g, w)
  | count + 1, w, g =>
    let (v, w1) := unpackPass bw base sin w
    unpackLoop bw base sin count w1 (g.setIfInBounds w.bu_k.toNat v)

/-- `UNPACK(bw)` on `SIN` from offset `base`, inside DECODE (43_reader.md R229). -/
def unpackWhole (bw base : Nat) (sin : Memory) (g : Group) : Group × UnpackRegs :=
  unpackLoop bw base sin Config.groupSize {} g

/-- UNPACK, accepted: `BadArgument` where `bw` is outside 1 to 8, then `TruncatedBuffer` where fewer than `bw`
bytes are on offer, before any byte is read (41_bitpack.md R167). -/
def beginUnpack (bw : BitVec 8) (avail : BitVec 33) (s : State) : State :=
  let s := s.latchUnpack bw avail
  if legalWidth bw then
    if avail.toNat < bw.toNat then s.raise .bitUnpacker .truncatedBuffer else s
  else s.raise .bitUnpacker .badArgument

/-- The command UNPACK (41_bitpack.md R167). -/
def execUnpack (u : UnitId) (bw : BitVec 8) (avail : BitVec 33) (s : State) : Host.Outcome State Fault Refusal :=
  presented .bitUnpacker u (beginUnpack bw avail) s

/-- One step of bit_unpacker at work: one value of the result `vals`; after the eighth, the response `OK` with
`consumed = bu_j` (41_bitpack.md R167). -/
def unpackStep (s : State) : State :=
  let (v, w) := unpackPass s.bu.bw.toNat 0 s.bu.sin s.bu.work
  let t := { s with bu := { s.bu with
    work := w, vals := s.bu.vals.setIfInBounds s.bu.work.bu_k.toNat v } }
  if Config.groupSize ≤ w.bu_k.toNat then
    { t with bu := { t.bu with consumed := w.bu_j } }.respond .bitUnpacker .ok
  else t

end Sys2Proof.Machine
end

