-- ==== Sys2Proof/Machine/Varint.lean ====
section
/-! DEFINITION. The varint family (40_varint.md): VENC, VDEC, and the two forms of a varint byte, which the
standalone varint_decoder and run_reader's private one execute one byte at a time. -/

namespace Sys2Proof.Machine

/-! ### varint_encoder -/

/-- One pass of VENC's loop: the byte it emits and the registers after it (40_varint.md R131). -/
def vencPass (w : VencRegs) : Byte × VencRegs :=
  let rest := w.ve_v >>> 7
  (varintByteOf (decide (rest ≠ 0)) (w.ve_v.extractLsb' 0 7), { ve_v := rest, ve_len := w.ve_len + 1 })

/-- VENC's loop run to its end inside another operation: the bytes in order and the registers after it. It ends
within 10 passes (40_varint.md R130), which is the fuel its callers give. -/
def vencLoop : Nat → VencRegs → List Byte × VencRegs
  | 0, w => ([], w)
  | fuel + 1, w =>
    let (b, w1) := vencPass w
    if w1.ve_v = 0 then ([b], w1)
    else
      let (bs, w2) := vencLoop fuel w1
      (b :: bs, w2)

/-- `VENC v` inside ENCODE (42_segmenter.md R197, R198). -/
def vencWhole (v : BitVec 64) : List Byte × VencRegs :=
  vencLoop Config.maxVarintBytes { ve_v := v, ve_len := 0 }

/-- VENC, accepted: `ve_v <- v ; ve_len <- 0` (40_varint.md R131). -/
def beginVenc (v : BitVec 64) (s : State) : State :=
  let s := s.latchVenc v
  { s with ve := { s.ve with work := { ve_v := v, ve_len := 0 } } }

/-- The command VENC (40_varint.md R131). -/
def execVenc (u : UnitId) (v : BitVec 64) (s : State) : Host.Outcome State Fault Refusal :=
  presented .varintEncoder u (beginVenc v) s

/-- One step of varint_encoder at work: one pass of the loop; after the last, the response `OK` with
`len = ve_len` (40_varint.md R131). -/
def vencStep (s : State) : State :=
  let (b, w) := vencPass s.ve.work
  let t := { s with ve := { s.ve with work := w, sout := Memory.write s.ve.sout s.ve.work.ve_len.toNat b } }
  if w.ve_v = 0 then { t with ve := { t.ve with len := w.ve_len } }.respond .varintEncoder .ok
  else t

/-! ### varint_decoder -/

/-- The tests before a byte is read, and the read: ten bytes consumed, or no byte left, is `MalformedHeader`
(40_varint.md R135, errors 1 and 2). The varint begins at offset `base` of `sin`, with `avail` bytes on offer. -/
def varintFetch (w : VdecRegs) (avail base : Nat) (sin : Memory) : Except Status Byte :=
  if w.vd_n.toNat = Config.maxVarintBytes then .error .malformedHeader
  else if avail ≤ w.vd_n.toNat then .error .malformedHeader
  else .ok (Memory.read sin (base + w.vd_n.toNat))

/-- Taking in one byte: none where a tenth byte has payload bits 6:1 set (40_varint.md R135, error 3); else the
payload goes to bits `7 * vd_n` and up, and `vd_n` advances. -/
def varintAbsorb (w : VdecRegs) (payload : BitVec 7) : Option VdecRegs :=
  if w.vd_n.toNat = 9 ∧ payload.extractLsb' 1 6 ≠ 0 then none
  else some
    { vd_acc := w.vd_acc ||| (payload.setWidth 64 <<< (7 * w.vd_n.toNat)), vd_n := w.vd_n + 1 }

/-- The working registers of a varint decoder (10_state.md R20, R26). -/
def State.vdecRegs (s : State) : DecoderId → VdecRegs
  | .standalone => s.vd.work
  | .reader => s.rr.vd

/-- Replaces the working registers of a varint decoder. -/
def State.setVdecRegs (s : State) (d : DecoderId) (w : VdecRegs) : State :=
  match d with
  | .standalone => { s with vd := { s.vd with work := w } }
  | .reader => { s with rr := { s.rr with vd := w } }

/-- VDEC's `done(value = vd_acc, consumed = vd_n)` (40_varint.md R135): the standalone unit responds; inside
DECODE the value becomes `rr_h` and `rr_pos` moves past the header (43_reader.md R224). -/
def varintDone (d : DecoderId) (w : VdecRegs) (s : State) : State :=
  match d with
  | .standalone =>
    { s with vd := { s.vd with work := w, value := w.vd_acc, consumed := w.vd_n } }.respond .varintDecoder .ok
  | .reader =>
    { s with rr := { s.rr with
        vd := w, rr_h := w.vd_acc, rr_pos := s.rr.rr_pos + w.vd_n.setWidth 33, phase := .body } }

/-- A varint byte with bit 7 set: taken in, and the loop goes on (40_varint.md R135, 30_encoding.md R90). -/
def execVarintCont (d : DecoderId) (payload : BitVec 7) (s : State) : Host.Outcome State Fault Refusal :=
  match varintAbsorb (s.vdecRegs d) payload with
  | none => .next (s.raise d.unit .malformedHeader)
  | some w => .next (s.setVdecRegs d w)

/-- A varint byte with bit 7 clear: taken in, and the varint ends (40_varint.md R135, 30_encoding.md R90). -/
def execVarintLast (d : DecoderId) (payload : BitVec 7) (s : State) : Host.Outcome State Fault Refusal :=
  match varintAbsorb (s.vdecRegs d) payload with
  | none => .next (s.raise d.unit .malformedHeader)
  | some w => .next (varintDone d w s)

/-- The command VDEC (40_varint.md R135): accepted with `vd_acc = 0`, `vd_n = 0`; its loop then consumes the
bytes of `SIN` one by one. -/
def execVdec (u : UnitId) (avail : BitVec 33) (s : State) : Host.Outcome State Fault Refusal :=
  presented .varintDecoder u (fun s => s.latchVdec avail) s

end Sys2Proof.Machine
end

