-- ==== Sys2Proof/Machine/Reader.lean ====
section
/-! DEFINITION. The reader family (43_reader.md): the command DECODE, and the two run instructions RLE and BP
that run_reader executes. -/

namespace Sys2Proof.Machine

/-- `append(v)` for each value of a list: `VOUT:count` and up, `rr_count` advancing (00_scope.md R9). -/
def appendAll (u : RunReader) : List Value → RunReader
  | [] => u
  | v :: vs =>
    appendAll { u with vout := Memory.write u.vout u.rr_count.toNat v, rr_count := u.rr_count + 1 } vs

/-- `room = total - rr_count` (43_reader.md R227). -/
def RunReader.room (u : RunReader) : Nat := u.total.toNat - u.rr_count.toNat

/-- DECODE, accepted: `BadArgument` where `bw` is outside 1 to 8; else the loop begins with `rr_pos = 0`,
`rr_count = 0` (43_reader.md R221). -/
def beginDecode (bw : BitVec 8) (total : BitVec 32) (slen : BitVec 33) (s : State) : State :=
  let s := s.latchDecode bw total slen
  if legalWidth bw then s else s.raise .runReader .badArgument

/-- The command DECODE (43_reader.md R221). -/
def execDecode (u : UnitId) (bw : BitVec 8) (total : BitVec 32) (slen : BitVec 33) (s : State) :
    Host.Outcome State Fault Refusal :=
  presented .runReader u (beginDecode bw total slen) s

/-- The top of DECODE's loop: the stop test (43_reader.md R222), the end of the stream at a run boundary (R223),
else the header fetch begins (R224). -/
def readerTop (s : State) : State :=
  if s.rr.rr_count.toNat < s.rr.total.toNat then
    if s.rr.rr_pos = s.rr.slen then s.raise .runReader .overrunError
    else { s with rr := { s.rr with vd := {}, phase := .header } }
  else s.respond .runReader .ok

/-- The run instruction RLE (43_reader.md R228): the value byte of the body, appended `run_length` times but
never more than the room left; `TruncatedBuffer` where the body is missing. -/
def execRle (runLength : BitVec 63) (s : State) : Host.Outcome State Fault Refusal :=
  if s.rr.rr_pos = s.rr.slen then .next (s.raise .runReader .truncatedBuffer)
  else
    let v := Memory.read s.rr.sin s.rr.rr_pos.toNat
    let u := { s.rr with rr_val := v, rr_pos := s.rr.rr_pos + 1, phase := .top }
    .next { s with rr := appendAll u (List.replicate (min runLength.toNat s.rr.room) v) }

/-- The run instruction BP (43_reader.md R229): one group of `bw` payload bytes unpacked, its values appended but
never more than the room left; the group count is ignored; `TruncatedBuffer` where fewer than `bw` bytes are
left, before any is read. -/
def execBp (_groupCount : BitVec 63) (s : State) : Host.Outcome State Fault Refusal :=
  if s.rr.slen.toNat - s.rr.rr_pos.toNat < s.rr.bw.toNat then .next (s.raise .runReader .truncatedBuffer)
  else
    let (g, w) := unpackWhole s.rr.bw.toNat s.rr.rr_pos.toNat s.rr.sin s.rr.rr_grp
    let u := { s.rr with
      rr_grp := g, bu := w, rr_pos := s.rr.rr_pos + s.rr.bw.setWidth 33, phase := .top }
    .next { s with rr := appendAll u (g.toList.take (min Config.groupSize s.rr.room)) }

end Sys2Proof.Machine
end

