-- ==== Sys2Proof/Machine/Segmenter.lean ====
section
/-! DEFINITION. The segmenter family (42_segmenter.md): CLASSIFY and ENCODE, with the classifier's loop that the
standalone unit and run_segmenter's private instance share. -/

namespace Sys2Proof.Machine

/-! ### rle_run_classifier -/

/-- The condition of CLASSIFY's `while`: `rc_len < 0x3FFF and i + rc_len < n and VIN[i + rc_len] = rc_first`
(42_segmenter.md R191). -/
def classifyMore (vin : Memory) (n i : Nat) (w : ClassifyRegs) : Bool :=
  decide (w.rc_len.toNat < Config.rleMax) && decide (i + w.rc_len.toNat < n) &&
    decide (Memory.read vin (i + w.rc_len.toNat) = w.rc_first)

/-- `rc_first <- MemRead(VIN:i, 1) ; rc_len <- 1` (42_segmenter.md R191). -/
def classifyStart (vin : Memory) (i : Nat) (w : ClassifyRegs) : ClassifyRegs :=
  { w with rc_first := Memory.read vin i, rc_len := 1 }

/-- CLASSIFY's loop run to its end inside ENCODE, with the kind bit set at the end (42_segmenter.md R191). It
ends within `RLE_MAX` passes, which is the fuel its caller gives. -/
def classifyLoop (vin : Memory) (n i : Nat) : Nat → ClassifyRegs → ClassifyRegs
  | 0, w => { w with rc_kind := kindOf w.rc_len }
  | fuel + 1, w =>
    if classifyMore vin n i w then classifyLoop vin n i fuel { w with rc_len := w.rc_len + 1 }
    else { w with rc_kind := kindOf w.rc_len }

/-- `CLASSIFY with operands (n, rs_i)` inside ENCODE (42_segmenter.md R196). -/
def classifyWhole (vin : Memory) (n i : Nat) : ClassifyRegs :=
  classifyLoop vin n i Config.rleMax (classifyStart vin i {})

/-- CLASSIFY, accepted: `BadArgument` where `i >= n`; else the value at `i` is read and the length begins at 1
(42_segmenter.md R191). -/
def beginClassify (n i : BitVec 32) (s : State) : State :=
  let s := s.latchClassify n i
  if n.toNat ≤ i.toNat then s.raise .rleRunClassifier .badArgument
  else { s with rc := { s.rc with work := classifyStart s.rc.vin i.toNat s.rc.work } }

/-- The command CLASSIFY (42_segmenter.md R191). -/
def execClassify (u : UnitId) (n i : BitVec 32) (s : State) : Host.Outcome State Fault Refusal :=
  presented .rleRunClassifier u (beginClassify n i) s

/-- One step of rle_run_classifier at work: one pass of the loop, or, when its condition fails, the kind bit and
the response `OK` with `L = rc_len`, `kind = rc_kind` (42_segmenter.md R191). -/
def classifyStep (s : State) : State :=
  if classifyMore s.rc.vin s.rc.n.toNat s.rc.i.toNat s.rc.work then
    { s with rc := { s.rc with work := { s.rc.work with rc_len := s.rc.work.rc_len + 1 } } }
  else
    let k := kindOf s.rc.work.rc_len
    { s with rc := { s.rc with
        work := { s.rc.work with rc_kind := k }, L := s.rc.work.rc_len, kind := k } }.respond
      .rleRunClassifier .ok

/-! ### run_segmenter -/

/-- `emit(b)` for each byte of a list: the append to the output stream (00_scope.md R9). -/
def emitAll (u : RunSegmenter) : List Byte → RunSegmenter
  | [] => u
  | b :: bs =>
    emitAll { u with sout := Memory.write u.sout u.rs_olen.toNat b, rs_olen := u.rs_olen + 1 } bs

/-- The RLE step: header `(L << 1) | 0`, the value as one byte, `rs_i <- rs_i + L` (42_segmenter.md R197). -/
def rleEmit (u : RunSegmenter) : RunSegmenter :=
  let (bs, w) := vencWhole (rleHeader (u.rc.rc_len.setWidth 63))
  let u := emitAll { u with ve := w } (bs ++ [Memory.read u.vin u.rs_i.toNat])
  { u with rs_i := u.rs_i + u.rc.rc_len.setWidth 33 }

/-- The bit-packed step: the next up to 8 values padded with zeros, header 3, the packed bytes,
`rs_i <- rs_i + 8` (42_segmenter.md R198). -/
def bpEmit (u : RunSegmenter) : RunSegmenter :=
  let g := groupFrom u.vin u.n.toNat u.rs_i.toNat
  let (hs, w) := vencWhole Config.bpHeader
  let (bs, p) := packWhole u.bw.toNat g
  let u := emitAll { u with rs_grp := g, ve := w, bp := p } (hs ++ bs)
  { u with rs_i := u.rs_i + 8 }

/-- One pass of ENCODE's loop: classify at the cursor, then the RLE step or the bit-packed step
(42_segmenter.md R196). -/
def encodePass (u : RunSegmenter) : RunSegmenter :=
  let u := { u with rc := classifyWhole u.vin u.n.toNat u.rs_i.toNat }
  if u.rc.rc_kind = 0 then rleEmit u else bpEmit u

/-- ENCODE, accepted: `BadArgument` where `bw` is outside 1 to 8, then `ValueOutOfRange` where any of the `n`
values is at or above `2^bw`; else the scan begins with `rs_i = 0`, `rs_olen = 0` (42_segmenter.md R194 to
R196). -/
def beginEncode (bw : BitVec 8) (n : BitVec 32) (s : State) : State :=
  let s := s.latchEncode bw n
  if legalWidth bw then
    if anyOutOfRange s.rs.vin n.toNat bw.toNat then s.raise .runSegmenter .valueOutOfRange else s
  else s.raise .runSegmenter .badArgument

/-- The command ENCODE (42_segmenter.md R196). -/
def execEncode (u : UnitId) (bw : BitVec 8) (n : BitVec 32) (s : State) : Host.Outcome State Fault Refusal :=
  presented .runSegmenter u (beginEncode bw n) s

/-- One step of run_segmenter at work: one run, or, when `rs_i >= n`, the response `OK` with `olen = rs_olen`
(42_segmenter.md R196). -/
def encodeStep (s : State) : State :=
  if s.rs.rs_i.toNat < s.rs.n.toNat then { s with rs := encodePass s.rs }
  else { s with rs := { s.rs with olen := s.rs.rs_olen } }.respond .runSegmenter .ok

end Sys2Proof.Machine
end

