-- ==== Sys2Proof/Machine/Dispatch.lean ====
section
/-! DEFINITION. The dispatch: one arm per constructor of Instr, one direct call of its meaning. -/

namespace Sys2Proof.Machine

def exec (i : Instr) (s : State) : Host.Outcome State Fault Refusal :=
  match i with
  -- stream level
  | .rle runLength => Sys2Proof.Machine.execRle runLength s
  | .bp groupCount => Sys2Proof.Machine.execBp groupCount s
  -- varint bytes
  | .varintCont d payload => Sys2Proof.Machine.execVarintCont d payload s
  | .varintLast d payload => Sys2Proof.Machine.execVarintLast d payload s
  -- commands
  | .venc u v => Sys2Proof.Machine.execVenc u v s
  | .vdec u avail => Sys2Proof.Machine.execVdec u avail s
  | .pack u bw vals => Sys2Proof.Machine.execPack u bw vals s
  | .unpack u bw avail => Sys2Proof.Machine.execUnpack u bw avail s
  | .classify u n i0 => Sys2Proof.Machine.execClassify u n i0 s
  | .encode u bw n => Sys2Proof.Machine.execEncode u bw n s
  | .decode u bw total slen => Sys2Proof.Machine.execDecode u bw total slen s
  | .reserved u => Sys2Proof.Machine.execReserved u s

end Sys2Proof.Machine
end

