-- ==== Sys2Proof/Machine/Sequencer.lean ====
section
/-! DEFINITION. What moves next: the next thing from outside, or the next step of a unit at work; the fetches; and
the placing of an opcode-table word where the next step fetches it. -/

namespace Sys2Proof.Machine

/-- What the next step does. -/
inductive Move where
  /-- The command port of `u` takes in a command. -/
  | command (u : UnitId) (op : BitVec 3) (x : Operands)
  /-- `abort` of `u`. -/
  | abort (u : UnitId)
  /-- `reset`. -/
  | reset
  /-- The host writes a buffer element. -/
  | hostWrite (b : Buffer) (offset : BitVec 33) (element : BitVec 8)
  /-- Unit `u` takes its next step. -/
  | unit (u : UnitId)
  /-- Every unit waits for a command (60_exceptions.md R270). -/
  | idle
  deriving DecidableEq, Repr

/-- The first busy unit, when nothing from outside says which moves (60_exceptions.md R271). -/
def State.firstBusy (s : State) : List UnitId → Move
  | [] => .idle
  | u :: us => if s.busy u then .unit u else s.firstBusy us

/-- The next move, and the state with its cause taken off the agenda. A command for a busy unit is not accepted and
not queued: the host holds it, and the unit works on (10_state.md R22). -/
def State.move (s : State) : Move × State :=
  match s.agenda with
  | [] => (s.firstBusy UnitId.all, s)
  | .command u op x :: rest =>
    if s.busy u then (.unit u, s) else (.command u op x, { s with agenda := rest })
  | .abort u :: rest => (.abort u, { s with agenda := rest })
  | .reset :: rest => (.reset, { s with agenda := rest })
  | .hostWrite b offset element :: rest => (.hostWrite b offset element, { s with agenda := rest })
  | .tick u :: rest => (.unit u, { s with agenda := rest })

/-- One step of varint_decoder at work: the tests and the read, then the byte is executed (40_varint.md R135). -/
def vdecStep (s : State) : Host.Outcome State Fault Refusal :=
  match varintFetch s.vd.work s.vd.avail.toNat 0 s.vd.sin with
  | .error k => .next (s.raise .varintDecoder k)
  | .ok b => exec (decodeVarintByte .standalone b) s

/-- One step of run_reader at work: the top of the loop, one byte of the header (43_reader.md R224), or the run
instruction that the header selects (R226). -/
def readerStep (s : State) : Host.Outcome State Fault Refusal :=
  match s.rr.phase with
  | .top => .next (readerTop s)
  | .header =>
    match varintFetch s.rr.vd (s.rr.slen.toNat - s.rr.rr_pos.toNat) s.rr.rr_pos.toNat s.rr.sin with
    | .error k => .next (s.raise .runReader k)
    | .ok b => exec (decodeVarintByte .reader b) s
  | .body => exec (decodeHeader s.rr.rr_h) s

/-- One step of unit `u`: one pass of its operation's loop, or nothing while it is idle (10_state.md R21,
60_exceptions.md R270). -/
def advance (u : UnitId) (s : State) : Host.Outcome State Fault Refusal :=
  if s.busy u then
    match u with
    | .varintEncoder => .next (vencStep s)
    | .varintDecoder => vdecStep s
    | .bitPacker => .next (packStep s)
    | .bitUnpacker => .next (unpackStep s)
    | .rleRunClassifier => .next (classifyStep s)
    | .runSegmenter => .next (encodeStep s)
    | .runReader => readerStep s
  else .next s

/-- `k` steps of unit `u`, no other agent moving. -/
def advanceN : Nat → UnitId → State → Host.Outcome State Fault Refusal
  | 0, _, s => .next s
  | k + 1, u, s =>
    match advance u s with
    | .next t => advanceN k u t
    | .fault r => .fault r
    | .refused r => .refused r

/-- The units of a list take one step each, in its order: an interleaving of their operations (20_memory.md R73). -/
def advanceAll : List UnitId → State → Host.Outcome State Fault Refusal
  | [], s => .next s
  | u :: us, s =>
    match advance u s with
    | .next t => advanceAll us t
    | .fault r => .fault r
    | .refused r => .refused r

/-- Does a move, in the state with its cause taken off the agenda. -/
def State.perform (s : State) : Move → Host.Outcome State Fault Refusal
  | .command u op x => exec (decodeCommand u op x) s
  | .abort u => .next (s.abort u)
  | .reset => .next s.applyReset
  | .hostWrite b offset element => Sys2Proof.Machine.hostWrite b offset element s
  | .unit u => advance u s
  | .idle => .next s

/-- The instruction that the next step of unit `u` executes, where it executes one: a varint byte or a run. -/
def State.fetchAt (s : State) (u : UnitId) : Option Instr :=
  if s.busy u then
    match u with
    | .varintDecoder =>
      match varintFetch s.vd.work s.vd.avail.toNat 0 s.vd.sin with
      | .error _ => none
      | .ok b => some (decodeVarintByte .standalone b)
    | .runReader =>
      match s.rr.phase with
      | .top => none
      | .header =>
        match varintFetch s.rr.vd (s.rr.slen.toNat - s.rr.rr_pos.toNat) s.rr.rr_pos.toNat s.rr.sin with
        | .error _ => none
        | .ok b => some (decodeVarintByte .reader b)
      | .body => some (decodeHeader s.rr.rr_h)
    | .varintEncoder => none
    | .bitPacker => none
    | .bitUnpacker => none
    | .rleRunClassifier => none
    | .runSegmenter => none
  else none

/-- The instruction that the next step executes, where it executes one. -/
def State.fetch (s : State) : Option Instr :=
  match s.move.1 with
  | .command u op x => some (decodeCommand u op x)
  | .unit u => s.fetchAt u
  | .abort _ => none
  | .reset => none
  | .hostWrite _ _ _ => none
  | .idle => none

/-- Places words where the next step fetches them. A command goes to the head of the agenda, at an idle unit. A
varint byte goes to the front of a decoder's input, with the decoder at work on it. A run's header goes to
`rr_h`, with run_reader at the run's body and one value still owed (log entries 12 and 13). -/
def State.place (s : State) : Code → State
  | .command u op x =>
    { s.setControl u { s.control u with busy := false } with agenda := .command u op x :: s.agenda }
  | .varintByte .standalone b =>
    let t := s.setControl .varintDecoder { s.ctl.varintDecoder with busy := true }
    { t with
      vd := { t.vd with avail := 10, work := {}, sin := Memory.write t.vd.sin 0 b }
      agenda := .tick .varintDecoder :: t.agenda }
  | .varintByte .reader b =>
    let t := s.setControl .runReader { s.ctl.runReader with busy := true }
    { t with
      rr := { t.rr with
        bw := 1, total := 1, slen := 18, rr_pos := 0, rr_count := 0, vd := {}, phase := .header,
        sin := Memory.write t.rr.sin 0 b }
      agenda := .tick .runReader :: t.agenda }
  | .runHeader bs =>
    let t := s.setControl .runReader { s.ctl.runReader with busy := true }
    { t with
      rr := { t.rr with
        bw := 1, total := 1, slen := 18, rr_pos := BitVec.ofNat 33 bs.length, rr_count := 0,
        rr_h := match varintOf bs with
          | some (h, _) => h
          | none => 0,
        phase := .body,
        sin := Memory.writeList t.rr.sin 0 bs }
      agenda := .tick .runReader :: t.agenda }

end Sys2Proof.Machine
end

