-- ==== Sys2Proof/Machine/Step.lean ====
section
/-! DEFINITION. One step of the block: the next move is done. -/

namespace Sys2Proof.Machine

/-- One step (00_scope.md R10: the step level). -/
def step (s : State) : Host.Outcome State Fault Refusal :=
  s.move.2.perform s.move.1

/-- The state with an opcode-table word stored where the next step fetches its instruction. -/
def State.withFetchWord (s : State) (nbits w : Nat) : State :=
  s.place (Sys2Proof.tableCode nbits w)

end Sys2Proof.Machine
end

