-- ==== Sys2Proof/Machine/Contract.lean ====
section
/-! DEFINITION. The contracts of the operations as functions from operands to a result: the transaction level of
00_scope.md R10, normative for results. The loops over registers are in the family files. VENC's and VDEC's are
`varintBytes` and `varintOf`, PACK's and UNPACK's are `packBytes` and `unpackGroup` (Decode.lean). -/

namespace Sys2Proof.Machine

/-- CLASSIFY: the length of the run of equal values at the front of `vs`, capped (42_segmenter.md R192). -/
def classifyLen (vs : List Value) : Nat :=
  match vs with
  | [] => 0
  | v :: rest => min Config.rleMax ((v :: rest).takeWhile (fun x => decide (x = v))).length

/-- The group of the first up to 8 of `vs`, padded with zeros (30_encoding.md R98). -/
def padGroup (vs : List Value) : Group :=
  #v[vs.getD 0 0, vs.getD 1 0, vs.getD 2 0, vs.getD 3 0, vs.getD 4 0, vs.getD 5 0, vs.getD 6 0, vs.getD 7 0]

/-- The values a run stands for (30_encoding.md R107, R108). -/
def runValues : Run → List Value
  | .rle v c => List.replicate c.toNat v
  | .bp g => g.toList

/-- The runs that the greedy scan emits for `vs` (42_segmenter.md R196 to R198); `fuel` is at least the number of
values. -/
def segment : Nat → List Value → List Run
  | 0, _ => []
  | _ + 1, [] => []
  | fuel + 1, v :: vs =>
    let len := classifyLen (v :: vs)
    if Config.rleMin ≤ len then
      .rle v (BitVec.ofNat 63 len) :: segment fuel ((v :: vs).drop len)
    else .bp (padGroup (v :: vs)) :: segment fuel ((v :: vs).drop Config.groupSize)

/-- `encode(values, bit_width)` (42_segmenter.md R196; errors in the order of 60_exceptions.md R258). -/
def encodeStream (bw : BitVec 8) (vs : List Value) : Except Status (List Byte) :=
  if legalWidth bw then
    if vs.any (fun v => decide (2 ^ bw.toNat ≤ v.toNat)) then .error .valueOutOfRange
    else .ok ((segment vs.length vs).flatMap (Run.bytes bw.toNat))
  else .error .badArgument

/-- The values of the runs of `bs`, until `need` of them are there (43_reader.md R221 to R229); `fuel` is at least
one more than the number of bytes. -/
def readRuns (bw : Nat) : Nat → Nat → List Byte → Except Status (List Value)
  | _, 0, _ => .ok []
  | 0, _ + 1, _ => .error .overrunError
  | _ + 1, _ + 1, [] => .error .overrunError
  | fuel + 1, need + 1, b :: bs =>
    match varintOf (b :: bs) with
    | none => .error .malformedHeader
    | some (h, c) =>
      let body := (b :: bs).drop c
      if h.getLsbD 0 then
        if body.length < bw then .error .truncatedBuffer
        else
          let vs := (unpackGroup bw body).toList.take (need + 1)
          match readRuns bw fuel (need + 1 - vs.length) (body.drop bw) with
          | .ok rest => .ok (vs ++ rest)
          | .error k => .error k
      else
        match body with
        | [] => .error .truncatedBuffer
        | v :: rest =>
          let m := min (h.toNat / 2) (need + 1)
          match readRuns bw fuel (need + 1 - m) rest with
          | .ok more => .ok (List.replicate m v ++ more)
          | .error k => .error k

/-- `decode(stream, bit_width, total_values)` (43_reader.md R221). -/
def decodeStream (bw : BitVec 8) (total : Nat) (bs : List Byte) : Except Status (List Value) :=
  if legalWidth bw then readRuns bw.toNat (bs.length + 1) total bs else .error .badArgument

end Sys2Proof.Machine
end

