-- ==== Sys2Proof/Safety.lean ====
section
/-! DEFINITION. The terms in which claims are stated: canonical buffers, registers in the ranges the spec gives
them, what a unit's part of the state is, and what a step leaves alone. -/

namespace Sys2Proof.Machine

/-- Every buffer space is in canonical form (20_memory.md R60; log entry 4). -/
def State.buffersWf (s : State) : Prop := ∀ b : Buffer, Memory.wf (s.buffer b) = true

/-- Every listed offset of every buffer lies inside that buffer's own space: 2^32 offsets for `VIN` and `VOUT`, 2^33 for
`SIN` and `SOUT` (20_memory.md R60; log entry 19). -/
def State.buffersFit (s : State) : Prop := ∀ b : Buffer, ∀ c ∈ s.buffer b, c.1 < b.extent

/-- The part of the state that belongs to unit `u`: control, registers and buffers agree (10_state.md R20). -/
def State.sameUnit (s t : State) (u : UnitId) : Prop :=
  s.control u = t.control u ∧
  match u with
  | .varintEncoder => s.ve = t.ve
  | .varintDecoder => s.vd = t.vd
  | .bitPacker => s.bp = t.bp
  | .bitUnpacker => s.bu = t.bu
  | .rleRunClassifier => s.rc = t.rc
  | .runSegmenter => s.rs = t.rs
  | .runReader => s.rr = t.rr

/-- The frame of an operation of unit `u`: every other unit, what is to come from outside and the draw counter are
unchanged. -/
def State.othersUnchanged (s t : State) (u : UnitId) : Prop :=
  (∀ v, v ≠ u → s.sameUnit t v) ∧ t.agenda = s.agenda ∧ t.draws = s.draws

/-- Every byte of every buffer reads as before, but for offsets `lo` to `hi - 1` of buffer `b`. -/
def State.onlyStored (s t : State) (b : Buffer) (lo hi : Nat) : Prop :=
  ∀ b' a, ¬ (b' = b ∧ lo ≤ a ∧ a < hi) → Memory.read (t.buffer b') a = Memory.read (s.buffer b') a

/-- Every byte of every buffer reads as before. -/
def State.nothingStored (s t : State) : Prop :=
  ∀ b a, Memory.read (t.buffer b) a = Memory.read (s.buffer b) a

/-- The control state of a unit that has answered with status `k` (10_state.md R21 to R23). -/
def answeredWith (k : Status) : Control := { busy := false, status := k, answered := true }

/-- Unit `u` comes, in at most `bound` steps of its own (of log entry 1's grain) from `s`, to the state `t`. -/
def State.reachesWithin (s : State) (u : UnitId) (bound : Nat) (t : State) : Prop :=
  ∃ k, k ≤ bound ∧ advanceN k u s = .next t

/-- The input buffer of unit `u`, where it has one, holds the same bytes in both states (20_memory.md R60). -/
def State.sameInput (s t : State) (u : UnitId) : Prop :=
  match u with
  | .varintEncoder => True
  | .varintDecoder => ∀ a, Memory.read s.vd.sin a = Memory.read t.vd.sin a
  | .bitPacker => True
  | .bitUnpacker => ∀ a, Memory.read s.bu.sin a = Memory.read t.bu.sin a
  | .rleRunClassifier => ∀ a, Memory.read s.rc.vin a = Memory.read t.rc.vin a
  | .runSegmenter => ∀ a, Memory.read s.rs.vin a = Memory.read t.rs.vin a
  | .runReader => ∀ a, Memory.read s.rr.sin a = Memory.read t.rr.sin a

/-- The results of unit `u` that its response defines are the same in both states (10_state.md R40). -/
def State.sameResults (s t : State) (u : UnitId) : Prop :=
  match u with
  | .varintEncoder =>
    s.ve.len = t.ve.len ∧ ∀ a, a < s.ve.len.toNat → Memory.read s.ve.sout a = Memory.read t.ve.sout a
  | .varintDecoder => s.vd.value = t.vd.value ∧ s.vd.consumed = t.vd.consumed
  | .bitPacker =>
    s.bp.olen = t.bp.olen ∧ ∀ a, a < s.bp.olen.toNat → Memory.read s.bp.sout a = Memory.read t.bp.sout a
  | .bitUnpacker => s.bu.vals = t.bu.vals ∧ s.bu.consumed = t.bu.consumed
  | .rleRunClassifier => s.rc.L = t.rc.L ∧ s.rc.kind = t.rc.kind
  | .runSegmenter =>
    s.rs.olen = t.rs.olen ∧ ∀ a, a < s.rs.olen.toNat → Memory.read s.rs.sout a = Memory.read t.rs.sout a
  | .runReader =>
    s.rr.total = t.rr.total ∧ ∀ a, a < s.rr.total.toNat → Memory.read s.rr.vout a = Memory.read t.rr.vout a

/-- In the first `avail` bytes of `sin` a varint of `m` bytes stands at offset 0 that VDEC accepts
(40_varint.md R136). -/
def varintEndsAt (sin : Memory) (avail m : Nat) : Prop :=
  1 ≤ m ∧ m ≤ 10 ∧ m ≤ avail ∧
  (∀ k, k + 1 < m → contBit (Memory.read sin k) = true) ∧
  contBit (Memory.read sin (m - 1)) = false ∧
  (m = 10 → (Memory.read sin 9).toNat ≤ 1)

/-- In the `avail` bytes of `sin` from offset `base` on no varint ends legally: ten bytes all have bit 7 set; or the
bytes end before one with bit 7 clear; or the tenth byte's bits 6:1 are not all zero (60_exceptions.md R252). -/
def varintMalformed (sin : Memory) (base avail : Nat) : Prop :=
  (10 ≤ avail ∧ ∀ k, k < 10 → contBit (Memory.read sin (base + k)) = true) ∨
  (avail < 10 ∧ ∀ k, k < avail → contBit (Memory.read sin (base + k)) = true) ∨
  (10 ≤ avail ∧ (∀ k, k < 9 → contBit (Memory.read sin (base + k)) = true) ∧
    2 ≤ (payloadBits (Memory.read sin (base + 9))).toNat)

/-- How many steps of its own a unit takes at most from acceptance to response (60_exceptions.md R271). The steps are of
log entry 1's grain: one pass of a loop; ENCODE's are runs, and DECODE's the stop tests, header bytes and runs. -/
def answerBound (op : BitVec 3) (x : Operands) : Nat :=
  match op.toNat with
  | 1 => 10
  | 2 => 11
  | 3 => 8
  | 4 => 8
  | 5 => 0x3FFF
  | 6 => (x.n.toNat + 7) / 8 + 1
  | 7 => 2 * x.slen.toNat + 2
  | _ => 0

/-- The code `op` is not unit `u`'s own: the reserved code 0, or another unit's (30_encoding.md R105, R106). -/
def foreignCode (u : UnitId) (op : BitVec 3) : Prop := op = 0 ∨ ownerOf op ≠ u

/-- The registers of varint_encoder are in range: at most 10 bytes emitted, and at work the value left fits the bits
not yet emitted (10_state.md R25). -/
def State.vencInRange (s : State) : Prop :=
  s.ve.work.ve_len.toNat ≤ 10 ∧
  (s.busy .varintEncoder = true →
    s.ve.work.ve_len.toNat ≤ 9 ∧ s.ve.work.ve_v.toNat < 2 ^ (64 - 7 * s.ve.work.ve_len.toNat))

/-- The registers of varint_decoder are in range (10_state.md R26). -/
def State.vdecInRange (s : State) : Prop :=
  s.vd.work.vd_n.toNat ≤ 10 ∧
  (s.busy .varintDecoder = true → s.vd.work.vd_n.toNat ≤ s.vd.avail.toNat)

/-- The registers of bit_packer are in range (10_state.md R27). -/
def State.packInRange (s : State) : Prop :=
  s.bp.work.bp_k.toNat ≤ 8 ∧ s.bp.work.bp_j.toNat ≤ 8 ∧
  (s.busy .bitPacker = true →
    legalWidth s.bp.bw = true ∧ s.bp.work.bp_k.toNat ≤ 7 ∧
    8 * s.bp.work.bp_j.toNat + s.bp.work.bp_nbits.toNat = s.bp.work.bp_k.toNat * s.bp.bw.toNat ∧
    s.bp.work.bp_nbits.toNat ≤ 7 ∧ s.bp.work.bp_acc.toNat < 2 ^ 15)

/-- The registers of bit_unpacker are in range (10_state.md R28). -/
def State.unpackInRange (s : State) : Prop :=
  s.bu.work.bu_k.toNat ≤ 8 ∧ s.bu.work.bu_j.toNat ≤ 8 ∧
  (s.busy .bitUnpacker = true →
    legalWidth s.bu.bw = true ∧ s.bu.bw.toNat ≤ s.bu.avail.toNat ∧ s.bu.work.bu_k.toNat ≤ 7 ∧
    8 * s.bu.work.bu_j.toNat = s.bu.work.bu_k.toNat * s.bu.bw.toNat + s.bu.work.bu_nbits.toNat ∧
    s.bu.work.bu_nbits.toNat ≤ 7 ∧ s.bu.work.bu_acc.toNat < 2 ^ s.bu.work.bu_nbits.toNat)

/-- The registers of rle_run_classifier are in range (10_state.md R29). -/
def State.classifyInRange (s : State) : Prop :=
  s.busy .rleRunClassifier = true →
    s.rc.i.toNat < s.rc.n.toNat ∧ 1 ≤ s.rc.work.rc_len.toNat ∧
    s.rc.i.toNat + s.rc.work.rc_len.toNat ≤ s.rc.n.toNat

/-- The cursors of run_segmenter are in range: `rs_i` ends at most 7 past `n`, and at most 9 bytes are emitted for
every 8 values covered (10_state.md R31, R32). -/
def State.segmenterInRange (s : State) : Prop :=
  s.rs.rs_i.toNat ≤ s.rs.n.toNat + 7 ∧ 8 * s.rs.rs_olen.toNat ≤ 9 * s.rs.rs_i.toNat ∧
  (s.busy .runSegmenter = true → legalWidth s.rs.bw = true)

/-- The cursors of run_reader are in range: `rr_pos` never exceeds `slen`, `rr_count` never exceeds `total`; in the
header fetch the bytes taken in lie before `slen`; before a run values are still owed (10_state.md R34, R35). -/
def State.readerInRange (s : State) : Prop :=
  s.rr.rr_pos.toNat ≤ s.rr.slen.toNat ∧ s.rr.rr_count.toNat ≤ s.rr.total.toNat ∧ s.rr.vd.vd_n.toNat ≤ 10 ∧
  (s.busy .runReader = true →
    legalWidth s.rr.bw = true ∧
    (s.rr.phase = .header →
      s.rr.rr_pos.toNat < s.rr.slen.toNat ∧ s.rr.rr_pos.toNat + s.rr.vd.vd_n.toNat ≤ s.rr.slen.toNat ∧
        s.rr.rr_count.toNat < s.rr.total.toNat) ∧
    (s.rr.phase = .body → s.rr.rr_count.toNat < s.rr.total.toNat))

/-- The counters of the private units of run_segmenter and run_reader are in the ranges of 10_state.md R25, R27 and R28
(10_state.md R30, R33); the private varint_decoder's is in `readerInRange`. -/
def State.privateInRange (s : State) : Prop :=
  s.rs.ve.ve_len.toNat ≤ 10 ∧ s.rs.bp.bp_k.toNat ≤ 8 ∧ s.rs.bp.bp_j.toNat ≤ 8 ∧
  s.rr.bu.bu_k.toNat ≤ 8 ∧ s.rr.bu.bu_j.toNat ≤ 8

/-- Every register is in the range 10_state.md R25 to R35 gives it. A range that is the register's whole width
(`bp_nbits`, `bu_nbits`, `rc_len`) needs no clause. -/
def State.registersInRange (s : State) : Prop :=
  s.vencInRange ∧ s.vdecInRange ∧ s.packInRange ∧ s.unpackInRange ∧ s.classifyInRange ∧ s.segmenterInRange ∧
    s.readerInRange ∧ s.privateInRange

end Sys2Proof.Machine
end

