-- ==== Sys2Proof/Certificates/Slice0/Obligations.lean ====
section
/-! DEFINITION. The statements for the provers, from the numbered rules of the spec. -/

open Sys2Proof Sys2Proof.Machine

/-! ### Reset, abort, raise, the host -/

/-- 70_reset_and_hazards.md R290. After `reset`, and at `State.reset`, every unit is idle with status OK and every
register is 0; and with no command the block does nothing. (`answered` is how the model holds the response of R21:
log entry 8.) -/
def Obligations.ResetLeavesUnitsIdleAndRegistersZero : Prop :=
  (∀ s rest, s.agenda = .reset :: rest →
    ∃ t, step s = .next t ∧ t.agenda = rest ∧
      (∀ u, t.control u = { busy := false, status := .ok, answered := false }) ∧
      t.ve = { sout := t.ve.sout } ∧ t.vd = { sin := t.vd.sin } ∧ t.bp = { sout := t.bp.sout } ∧
      t.bu = { sin := t.bu.sin } ∧ t.rc = { vin := t.rc.vin } ∧
      t.rs = { vin := t.rs.vin, sout := t.rs.sout } ∧ t.rr = { sin := t.rr.sin, vout := t.rr.vout }) ∧
  (∀ u, State.reset.control u = { busy := false, status := .ok, answered := false }) ∧
  State.reset.ve = {} ∧ State.reset.vd = {} ∧ State.reset.bp = {} ∧ State.reset.bu = {} ∧
  State.reset.rc = {} ∧ State.reset.rs = {} ∧ State.reset.rr = {} ∧
  (∀ s : State, s.agenda = [] → (∀ u, s.busy u = false) → step s = .next s)

/-- 70_reset_and_hazards.md R291. `reset` produces no response and reads and writes no buffer, but for the output
buffers of the operations it abandons, which are left unspecified. -/
def Obligations.ResetAbandonsWithoutTouchingBuffers : Prop :=
  ∀ s rest, s.agenda = .reset :: rest →
    ∃ t, step s = .next t ∧ (∀ u, (t.control u).answered = false) ∧
      ∀ b, s.busy b.owner = false ∨ outputOf b.owner ≠ some b → t.buffer b = s.buffer b

/-- 60_exceptions.md R268. `abort` of a busy unit: `busy <- 0`, no response, status as before, output buffer
unspecified, all else as it was. -/
def Obligations.AbortDropsOperationWithoutResponse : Prop :=
  ∀ s u rest, s.agenda = .abort u :: rest → s.busy u = true →
    ∃ t, step s = .next t ∧ t.agenda = rest ∧
      t.control u = { busy := false, status := (s.control u).status, answered := false } ∧
      (∀ v, v ≠ u → s.sameUnit t v) ∧
      (∀ b, outputOf u ≠ some b → t.buffer b = s.buffer b) ∧
      { t.ve with sout := s.ve.sout } = s.ve ∧ t.vd = s.vd ∧ { t.bp with sout := s.bp.sout } = s.bp ∧
      t.bu = s.bu ∧ t.rc = s.rc ∧ { t.rs with sout := s.rs.sout } = s.rs ∧
      { t.rr with vout := s.rr.vout } = s.rr

/-- `abort` of an idle unit does nothing: the model's choice (log entry 11), since 60_exceptions.md section 6 gives
`abort` a meaning only while `busy = 1`. -/
def Obligations.AbortOfIdleUnitDoesNothing : Prop :=
  ∀ s u rest, s.agenda = .abort u :: rest → s.busy u = false → step s = .next { s with agenda := rest }

/-- 60_exceptions.md R260. What `raise K` does, completely. -/
def Obligations.RaiseWritesStatusAndBusyOnly : Prop :=
  ∀ (s : State) u k,
    (s.raise u k).control u = { busy := false, status := k, answered := true } ∧
    (∀ v, v ≠ u → s.sameUnit (s.raise u k) v) ∧
    (s.raise u k).agenda = s.agenda ∧
    (∀ b, outputOf u ≠ some b → (s.raise u k).buffer b = s.buffer b) ∧
    (s.raise u k).ve.v = s.ve.v ∧ (s.raise u k).ve.work = s.ve.work ∧
    (s.raise u k).vd.avail = s.vd.avail ∧ (s.raise u k).vd.work = s.vd.work ∧
    (s.raise u k).bp.bw = s.bp.bw ∧ (s.raise u k).bp.vals = s.bp.vals ∧ (s.raise u k).bp.work = s.bp.work ∧
    (s.raise u k).bu.bw = s.bu.bw ∧ (s.raise u k).bu.avail = s.bu.avail ∧
    (s.raise u k).bu.work = s.bu.work ∧
    (s.raise u k).rc.n = s.rc.n ∧ (s.raise u k).rc.i = s.rc.i ∧ (s.raise u k).rc.work = s.rc.work ∧
    { (s.raise u k).rs with olen := s.rs.olen, sout := s.rs.sout } = s.rs ∧
    { (s.raise u k).rr with vout := s.rr.vout } = s.rr

/-- The host's write of a buffer element: a fault where the space has no such offset, a refusal where the buffer's unit is
busy, else exactly that element written. The fault, the refusal by name and the extents 2^32 and 2^33 are the model's
own (log entries 18 and 19, DEDUCED; the spec defines no behaviour there), as are the buffers as lists, their owners
and the agenda (log entries 4, 5 and 10). Rests on 20_memory.md sections 1 and 4. -/
def Obligations.HostWriteTouchesOneElement : Prop :=
  ∀ (s : State) b (offset : BitVec 33) (x : Byte) rest, s.agenda = .hostWrite b offset x :: rest →
    Memory.wf (s.buffer b) = true →
    (b.extent ≤ offset.toNat → step s = .fault .noSuchOffset) ∧
    (offset.toNat < b.extent → s.busy b.owner = true → step s = .refused .hostWritesOwnedBuffer) ∧
    (offset.toNat < b.extent → s.busy b.owner = false →
      ∃ t, step s = .next t ∧ t.agenda = rest ∧ t.ctl = s.ctl ∧ t.draws = s.draws ∧
        Memory.read (t.buffer b) offset.toNat = x ∧ s.onlyStored t b offset.toNat (offset.toNat + 1) ∧
        t.setBuffer b (s.buffer b) = { s with agenda := rest })

/-! ### Decoding and stepping -/

/-- Words written out from 30_encoding.md decode to the instructions they stand for. -/
def Obligations.KnownWordsDecode : Prop :=
  decodeRun [0x28, 0x07] = .ok (.rle 20) ∧
  decodeRun [0xFE, 0xFF, 0x01, 0x01] = .ok (.rle 16383) ∧
  decodeRun [0x03, 0xD1, 0x58, 0x00] = .ok (.bp 1) ∧
  decodeRun [0x07] = .ok (.bp 3) ∧
  decodeRun [] = .error .noByte ∧
  decodeRun [0x80] = .error .malformedHeader ∧
  decodeVarintByte .reader 0xAC = .varintCont .reader 0x2C ∧
  decodeVarintByte .standalone 0x02 = .varintLast .standalone 0x02 ∧
  decodeCommand .varintEncoder 1 { v := 300 } = .venc .varintEncoder 300 ∧
  decodeCommand .runReader 7 { bw := 3, total := 5, slen := 4 } = .decode .runReader 3 5 4 ∧
  decodeCommand .bitPacker 0 {} = .reserved .bitPacker

/-- Decoding the words of an instruction gives it back, for every instruction; and a run's header is read the same
whatever bytes follow it. -/
def Obligations.EncodeDecodeRoundTrip : Prop :=
  (∀ i, decode (encode i) = .ok i) ∧
  (∀ c rest, decodeRun (varintBytes (rleHeader c) ++ rest) = .ok (.rle c)) ∧
  (∀ g rest, decodeRun (varintBytes (bpHeaderOf g) ++ rest) = .ok (.bp g))

/-- 30_encoding.md R95. The type is bit 0 of the header, `run_length` its bits 63:1; a bit-packed run does not use
bits 63:1; and bit 0 of the run's first byte tells the type. -/
def Obligations.HeaderTypeBitSelectsRun : Prop :=
  (∀ h : BitVec 64, h.toNat % 2 = 0 → ∃ c, decodeHeader h = .rle c ∧ c.toNat = h.toNat / 2) ∧
  (∀ h : BitVec 64, h.toNat % 2 = 1 → ∃ g, decodeHeader h = .bp g) ∧
  (∀ g g' s, exec (.bp g) s = exec (.bp g') s) ∧
  (∀ (b : Byte) bs i, decodeRun (b :: bs) = .ok i →
    (b.toNat % 2 = 0 → ∃ c, i = .rle c) ∧ (b.toNat % 2 = 1 → ∃ g, i = .bp g))

/-- A step runs the instruction it fetches: a command at the head of the agenda at an idle unit, a varint byte at a
decoder at work, or the run that the decoded header selects. -/
def Obligations.StepRunsFetchedInstruction : Prop :=
  (∀ s i, s.fetch = some i → step s = exec i s.move.2) ∧
  (∀ s u op x rest, s.agenda = .command u op x :: rest → s.busy u = false →
    step s = exec (decodeCommand u op x) { s with agenda := rest }) ∧
  (∀ s rest, s.agenda = .tick .varintDecoder :: rest → s.busy .varintDecoder = true →
    s.vd.work.vd_n.toNat < 10 → s.vd.work.vd_n.toNat < s.vd.avail.toNat →
    step s = exec (decodeVarintByte .standalone (Memory.read s.vd.sin s.vd.work.vd_n.toNat))
      { s with agenda := rest }) ∧
  (∀ s rest, s.agenda = .tick .runReader :: rest → s.busy .runReader = true → s.rr.phase = .header →
    s.rr.vd.vd_n.toNat < 10 → s.rr.rr_pos.toNat + s.rr.vd.vd_n.toNat < s.rr.slen.toNat →
    step s = exec (decodeVarintByte .reader (Memory.read s.rr.sin (s.rr.rr_pos.toNat + s.rr.vd.vd_n.toNat)))
      { s with agenda := rest }) ∧
  (∀ s rest, s.agenda = .tick .runReader :: rest → s.busy .runReader = true → s.rr.phase = .body →
    step s = exec (decodeHeader s.rr.rr_h) { s with agenda := rest })

/-- With nothing from outside, the first busy unit takes its step; with a tick, the named unit. -/
def Obligations.StepAdvancesUnitAtWork : Prop :=
  (∀ s u rest, s.agenda = .tick u :: rest → step s = advance u { s with agenda := rest }) ∧
  (∀ s : State, s.agenda = [] → (∃ u, s.busy u = true) → ∃ u, s.busy u = true ∧ step s = advance u s)

/-- A command presented at a busy unit is not accepted and has no effect; the host holds it while the unit works on. -/
def Obligations.BusyUnitHoldsCommand : Prop :=
  ∀ s u op x, s.busy u = true →
    exec (decodeCommand u op x) s = .next s ∧
    (∀ rest, s.agenda = .command u op x :: rest →
      step s = advance u s ∧ ∀ t, step s = .next t → t.agenda = s.agenda)

/-! ### Commands: what exec answers -/

/-- Every instruction, in every state, answers a next state: no error stops the block (60_exceptions.md sections 1
and 4); and so does every step of a unit. -/
def Obligations.EveryInstructionAnswersNext : Prop :=
  (∀ i s, ∃ t, exec i s = .next t) ∧ (∀ u s, ∃ t, advance u s = .next t)

/-- A command with legal operands at its own idle unit is accepted: `busy <- 1`, status kept, operands latched, working
registers 0 (10_state.md sections 1, 2 and 7), but for what the operation's lines ahead of its loop set, and nothing
else changed. Those lines and the legal operands are the pseudocode's: VENC's `ve_v <- v`, CLASSIFY's `rc_first` and
`rc_len <- 1`, UNPACK's `bw <= avail`, ENCODE's values below `2^bw`. That they run in the step of acceptance is the
model's choice (log entry 2), and `answered` is its bit for the response (log entry 8). -/
def Obligations.LegalCommandIsAccepted : Prop :=
  ∀ s : State,
  let begun (u : UnitId) : Controls :=
    s.ctl.set u { busy := true, status := (s.control u).status, answered := false }
  (s.busy .varintEncoder = false → ∀ v, exec (.venc .varintEncoder v) s = .next
    { s with ctl := begun .varintEncoder, ve := { s.ve with v := v, work := { ve_v := v, ve_len := 0 } } }) ∧
  (s.busy .varintDecoder = false → ∀ avail, exec (.vdec .varintDecoder avail) s = .next
    { s with ctl := begun .varintDecoder, vd := { s.vd with avail := avail, work := {} } }) ∧
  (s.busy .bitPacker = false → ∀ bw vals, legalWidth bw = true → exec (.pack .bitPacker bw vals) s = .next
    { s with ctl := begun .bitPacker, bp := { s.bp with bw := bw, vals := vals, work := {} } }) ∧
  (s.busy .bitUnpacker = false → ∀ (bw : BitVec 8) (avail : BitVec 33), legalWidth bw = true →
    bw.toNat ≤ avail.toNat → exec (.unpack .bitUnpacker bw avail) s = .next
    { s with ctl := begun .bitUnpacker, bu := { s.bu with bw := bw, avail := avail, work := {} } }) ∧
  (s.busy .rleRunClassifier = false → ∀ n i : BitVec 32, i.toNat < n.toNat →
    exec (.classify .rleRunClassifier n i) s = .next
    { s with
      ctl := begun .rleRunClassifier
      rc := { s.rc with
        n := n, i := i, work := { rc_first := Memory.read s.rc.vin i.toNat, rc_len := 1, rc_kind := 0 } } }) ∧
  (s.busy .runSegmenter = false → ∀ (bw : BitVec 8) (n : BitVec 32), legalWidth bw = true →
    (∀ k, k < n.toNat → (Memory.read s.rs.vin k).toNat < 2 ^ bw.toNat) →
    exec (.encode .runSegmenter bw n) s = .next
    { s with
      ctl := begun .runSegmenter
      rs := { s.rs with
        bw := bw, n := n, rs_i := 0, rs_olen := 0, rs_grp := Group.zero, rc := {}, ve := {}, bp := {} } }) ∧
  (s.busy .runReader = false → ∀ bw total slen, legalWidth bw = true →
    exec (.decode .runReader bw total slen) s = .next
    { s with
      ctl := begun .runReader
      rr := { s.rr with
        bw := bw, total := total, slen := slen, rr_pos := 0, rr_count := 0, rr_h := 0, rr_val := 0,
        rr_grp := Group.zero, vd := {}, bu := {}, phase := .top } })

/-- 30_encoding.md R105. A code that is not the unit's own is answered `BadArgument` without reading any operand or
buffer: the answer is the same for all operands and for all buffer contents. -/
def Obligations.ForeignCodeAnsweredBadArgument : Prop :=
  ∀ s u op x, foreignCode u op → s.busy u = false →
    ∃ t, exec (decodeCommand u op x) s = .next t ∧
      t.control u = { busy := false, status := .badArgument, answered := true } ∧
      (∀ v, v ≠ u → s.sameUnit t v) ∧ t.agenda = s.agenda ∧
      (∀ x', exec (decodeCommand u op x') s = .next t) ∧
      (∀ b m, outputOf u ≠ some b →
        t.buffer b = s.buffer b ∧ exec (decodeCommand u op x) (s.setBuffer b m) = .next (t.setBuffer b m)) ∧
      (∀ b m, outputOf u = some b → exec (decodeCommand u op x) (s.setBuffer b m) = .next t)

/-- The reserved code 0 is answered `BadArgument` by every idle unit, with the operand registers as they were, the working
registers cleared and no buffer changed but the unit's own output, which is unspecified. -/
def Obligations.ReservedCodeAnsweredBadArgument : Prop :=
  ∀ s u, s.busy u = false →
    ∃ t, exec (.reserved u) s = .next t ∧ t = (s.accept u).raise u .badArgument ∧
      t.control u = { busy := false, status := .badArgument, answered := true } ∧
      (∀ v, v ≠ u → s.sameUnit t v) ∧ t.agenda = s.agenda ∧
      (∀ b, outputOf u ≠ some b → t.buffer b = s.buffer b) ∧
      t.ve.v = s.ve.v ∧ t.vd.avail = s.vd.avail ∧ t.bp.bw = s.bp.bw ∧ t.bp.vals = s.bp.vals ∧
      t.bu.bw = s.bu.bw ∧ t.bu.avail = s.bu.avail ∧ t.rc.n = s.rc.n ∧ t.rc.i = s.rc.i ∧
      t.rs.bw = s.rs.bw ∧ t.rs.n = s.rs.n ∧ t.rr.bw = s.rr.bw ∧ t.rr.total = s.rr.total ∧
      t.rr.slen = s.rr.slen

/-- 60_exceptions.md R255. `BadArgument` exactly: an illegal `bw` in PACK, UNPACK, ENCODE or DECODE; `i >= n` in
CLASSIFY; a foreign code. No later step of an operation raises it. -/
def Obligations.BadArgumentExactly : Prop :=
  (∀ s u op (x : Operands), s.busy u = false →
    ∃ t, exec (decodeCommand u op x) s = .next t ∧
      (t.control u = answeredWith .badArgument ↔
        foreignCode u op ∨
        ((op = 3 ∨ op = 4 ∨ op = 6 ∨ op = 7) ∧ (x.bw = 0 ∨ 9 ≤ x.bw.toNat)) ∨
        (op = 5 ∧ x.n.toNat ≤ x.i.toNat))) ∧
  (∀ s u t, s.busy u = true → advance u s = .next t → t.busy u = false →
    (t.control u).status ≠ .badArgument)

/-- 60_exceptions.md R251. `ValueOutOfRange` exactly: ENCODE with a legal `bw` and some value at or above `2^bw`. No
other operation raises it. -/
def Obligations.ValueOutOfRangeExactly : Prop :=
  (∀ s (bw : BitVec 8) (n : BitVec 32), s.busy .runSegmenter = false →
    ∃ t, exec (.encode .runSegmenter bw n) s = .next t ∧
      (t.control .runSegmenter = answeredWith .valueOutOfRange ↔
        legalWidth bw = true ∧ ∃ k, k < n.toNat ∧ 2 ^ bw.toNat ≤ (Memory.read s.rs.vin k).toNat)) ∧
  (∀ i s t u, (∀ v bw n, i ≠ .encode v bw n) → exec i s = .next t →
    (t.control u).status = .valueOutOfRange → (s.control u).status = .valueOutOfRange) ∧
  (∀ v s t u, advance v s = .next t →
    (t.control u).status = .valueOutOfRange → (s.control u).status = .valueOutOfRange)

/-- 60_exceptions.md R253. `TruncatedBuffer` exactly: fewer than `bw` bytes on offer in UNPACK or in DECODE's BP; no byte
for the value in DECODE's RLE. -/
def Obligations.TruncatedBufferExactly : Prop :=
  (∀ s (bw : BitVec 8) (avail : BitVec 33), s.busy .bitUnpacker = false →
    ∃ t, exec (.unpack .bitUnpacker bw avail) s = .next t ∧
      (t.control .bitUnpacker = answeredWith .truncatedBuffer ↔
        legalWidth bw = true ∧ avail.toNat < bw.toNat)) ∧
  (∀ s c, s.busy .runReader = true →
    ∃ t, exec (.rle c) s = .next t ∧
      (t.control .runReader = answeredWith .truncatedBuffer ↔ s.rr.rr_pos = s.rr.slen)) ∧
  (∀ s g, s.busy .runReader = true →
    ∃ t, exec (.bp g) s = .next t ∧
      (t.control .runReader = answeredWith .truncatedBuffer ↔
        s.rr.slen.toNat - s.rr.rr_pos.toNat < s.rr.bw.toNat)) ∧
  (∀ i s t u, (∀ v bw avail, i ≠ .unpack v bw avail) → (∀ c, i ≠ .rle c) → (∀ g, i ≠ .bp g) → exec i s = .next t →
    (t.control u).status = .truncatedBuffer → (s.control u).status = .truncatedBuffer) ∧
  (∀ v s t u, v ≠ .runReader ∨ s.rr.phase ≠ .body → advance v s = .next t →
    (t.control u).status = .truncatedBuffer → (s.control u).status = .truncatedBuffer)

/-- 60_exceptions.md R254. `OverrunError` exactly: in DECODE, at the top of the loop, values still owed and no byte left;
in particular `total >= 1` with `slen = 0`. Nothing else raises it. -/
def Obligations.OverrunErrorExactly : Prop :=
  (∀ s, s.busy .runReader = true → s.rr.phase = .top →
    ∃ t, advance .runReader s = .next t ∧
      (t.control .runReader = answeredWith .overrunError ↔
        s.rr.rr_count.toNat < s.rr.total.toNat ∧ s.rr.rr_pos = s.rr.slen)) ∧
  (∀ s (bw : BitVec 8) (total : BitVec 32), s.busy .runReader = false → legalWidth bw = true → 1 ≤ total.toNat →
    ∃ t r, exec (.decode .runReader bw total 0) s = .next t ∧ advance .runReader t = .next r ∧
      r.control .runReader = answeredWith .overrunError) ∧
  (∀ i s t u, exec i s = .next t →
    (t.control u).status = .overrunError → (s.control u).status = .overrunError) ∧
  (∀ v s t u, v ≠ .runReader ∨ s.rr.phase ≠ .top → advance v s = .next t →
    (t.control u).status = .overrunError → (s.control u).status = .overrunError)

/-- 60_exceptions.md R252. `MalformedHeader` exactly. A step of a decoder answers it where ten bytes are read already, or
none is left, or the tenth byte's payload is above 1; over a whole fetch, standalone or in DECODE with at least one byte
of the header there, that is where R252's (a), (b) or (c) holds of the bytes; no other instruction and no other unit's
step gives it. -/
def Obligations.MalformedHeaderExactly : Prop :=
  (∀ s : State, s.busy .varintDecoder = true →
    ∃ t, advance .varintDecoder s = .next t ∧
      (t.control .varintDecoder = answeredWith .malformedHeader ↔
        s.vd.work.vd_n.toNat = 10 ∨ s.vd.avail.toNat ≤ s.vd.work.vd_n.toNat ∨
        (s.vd.work.vd_n.toNat = 9 ∧ 2 ≤ (payloadBits (Memory.read s.vd.sin 9)).toNat))) ∧
  (∀ s : State, s.busy .runReader = true → s.rr.phase = .header →
    ∃ t, advance .runReader s = .next t ∧
      (t.control .runReader = answeredWith .malformedHeader ↔
        s.rr.vd.vd_n.toNat = 10 ∨ s.rr.slen.toNat - s.rr.rr_pos.toNat ≤ s.rr.vd.vd_n.toNat ∨
        (s.rr.vd.vd_n.toNat = 9 ∧
          2 ≤ (payloadBits (Memory.read s.rr.sin (s.rr.rr_pos.toNat + 9))).toNat))) ∧
  (∀ (s : State) (avail : BitVec 33), s.busy .varintDecoder = false →
    ∃ t r, exec (.vdec .varintDecoder avail) s = .next t ∧ t.reachesWithin .varintDecoder 11 r ∧
      r.busy .varintDecoder = false ∧
      (r.control .varintDecoder = answeredWith .malformedHeader ↔ varintMalformed s.vd.sin 0 avail.toNat)) ∧
  (∀ s : State, s.busy .runReader = true → s.rr.phase = .header → s.rr.vd.vd_n = 0 →
    s.rr.rr_pos.toNat < s.rr.slen.toNat →
    ∃ r : State, s.reachesWithin .runReader 11 r ∧ (r.busy .runReader = false ∨ r.rr.phase = .body) ∧
      (r.control .runReader = answeredWith .malformedHeader ↔
        varintMalformed s.rr.sin s.rr.rr_pos.toNat (s.rr.slen.toNat - s.rr.rr_pos.toNat))) ∧
  (∀ (s : State) d (p : BitVec 7), s.busy d.unit = true →
    ∃ t t', exec (.varintCont d p) s = .next t ∧ exec (.varintLast d p) s = .next t' ∧
      (t.control d.unit = answeredWith .malformedHeader ↔ (s.vdecRegs d).vd_n.toNat = 9 ∧ 2 ≤ p.toNat) ∧
      (t'.control d.unit = answeredWith .malformedHeader ↔ (s.vdecRegs d).vd_n.toNat = 9 ∧ 2 ≤ p.toNat)) ∧
  (∀ i s t u, (∀ d p, i ≠ .varintCont d p) → (∀ d p, i ≠ .varintLast d p) → exec i s = .next t →
    (t.control u).status = .malformedHeader → (s.control u).status = .malformedHeader) ∧
  (∀ v s t u, v ≠ .varintDecoder → (v ≠ .runReader ∨ s.rr.phase ≠ .header) → advance v s = .next t →
    (t.control u).status = .malformedHeader → (s.control u).status = .malformedHeader)

/-! ### The varint family -/

/-- 40_varint.md R132. VENC in closed form: `m` the least integer at least 1 with `v < 2^(7m)`, `len = m`, byte `k` bits
`7k+6 : 7k` of `v` with the continuation bit where `k < m - 1`; and the frame. -/
def Obligations.VencAnswersMinimalVarint : Prop :=
  ∀ s (v : BitVec 64), s.busy .varintEncoder = false → Memory.wf s.ve.sout = true →
    ∃ t r m, exec (.venc .varintEncoder v) s = .next t ∧ t.reachesWithin .varintEncoder m r ∧
      1 ≤ m ∧ v.toNat < 2 ^ (7 * m) ∧ (∀ j, 1 ≤ j → v.toNat < 2 ^ (7 * j) → m ≤ j) ∧
      r.control .varintEncoder = answeredWith .ok ∧ r.ve.v = v ∧ r.ve.len.toNat = m ∧
      (∀ k, k < m → (Memory.read r.ve.sout k).toNat =
        v.toNat / 2 ^ (7 * k) % 128 + (if k < m - 1 then 128 else 0)) ∧
      s.othersUnchanged r .varintEncoder ∧ s.onlyStored r .vencSout 0 m

/-- 40_varint.md R136. VDEC succeeds exactly where a varint of at most `min(10, avail)` bytes that fits 64 bits stands at
offset 0; else it raises `MalformedHeader`; and the frame. -/
def Obligations.VdecAcceptsExactlyVarints : Prop :=
  ∀ s (avail : BitVec 33), s.busy .varintDecoder = false →
    ∃ t r, exec (.vdec .varintDecoder avail) s = .next t ∧ t.reachesWithin .varintDecoder 11 r ∧
      (∀ u, u ≠ .varintDecoder → s.sameUnit r u) ∧ r.agenda = s.agenda ∧ s.nothingStored r ∧
      r.vd.avail = avail ∧
      ((∃ m, varintEndsAt s.vd.sin avail.toNat m ∧ r.control .varintDecoder = answeredWith .ok ∧
          r.vd.consumed.toNat = m ∧
          r.vd.value.toNat =
            ∑ k ∈ Finset.range m, (Memory.read s.vd.sin k).toNat % 128 * 2 ^ (7 * k)) ∨
        ((∀ m, ¬ varintEndsAt s.vd.sin avail.toNat m) ∧
          r.control .varintDecoder = answeredWith .malformedHeader))

/-- 40_varint.md R137. VDEC applied to the output of `VENC v`, followed by any bytes or none, gives `(v, len)`; the
converse does not hold, since a non-minimal varint is longer than the one VENC emits for its value. -/
def Obligations.VdecUndoesVenc : Prop :=
  (∀ s₁ t₁ r₁ s₂ k (v : BitVec 64) (avail : BitVec 33),
    s₁.busy .varintEncoder = false → Memory.wf s₁.ve.sout = true →
    exec (.venc .varintEncoder v) s₁ = .next t₁ → advanceN k .varintEncoder t₁ = .next r₁ →
    r₁.control .varintEncoder = answeredWith .ok →
    s₂.busy .varintDecoder = false → r₁.ve.len.toNat ≤ avail.toNat →
    (∀ a, a < r₁.ve.len.toNat → Memory.read s₂.vd.sin a = Memory.read r₁.ve.sout a) →
    ∃ t₂ r₂, exec (.vdec .varintDecoder avail) s₂ = .next t₂ ∧ t₂.reachesWithin .varintDecoder 10 r₂ ∧
      r₂.control .varintDecoder = answeredWith .ok ∧ r₂.vd.value = v ∧ r₂.vd.consumed = r₁.ve.len) ∧
  (∃ bs v m, varintOf bs = some (v, m) ∧ (varintBytes v).length < m)

/-- What a varint byte does at either decoder: a tenth byte with payload bits 6:1 set raises `MalformedHeader`; else the
payload goes to bits `7 * vd_n` and up and `vd_n` advances; a final byte ends the varint, which the standalone
unit answers and run_reader takes as `rr_h`; nothing else changes. -/
def Obligations.VarintByteExecutes : Prop :=
  ∀ (s : State) d (p : BitVec 7),
    let w := s.vdecRegs d
    let w' : VdecRegs := { vd_acc := w.vd_acc ||| (p.setWidth 64 <<< (7 * w.vd_n.toNat)), vd_n := w.vd_n + 1 }
    (w.vd_n.toNat = 9 ∧ 2 ≤ p.toNat →
      exec (.varintCont d p) s = .next (s.raise d.unit .malformedHeader) ∧
      exec (.varintLast d p) s = .next (s.raise d.unit .malformedHeader)) ∧
    (¬ (w.vd_n.toNat = 9 ∧ 2 ≤ p.toNat) →
      exec (.varintCont d p) s = .next (s.setVdecRegs d w') ∧
      (d = .standalone → exec (.varintLast d p) s = .next
        { s with
          ctl := s.ctl.set .varintDecoder (answeredWith .ok)
          vd := { s.vd with work := w', value := w'.vd_acc, consumed := w'.vd_n } }) ∧
      (d = .reader → exec (.varintLast d p) s = .next
        { s with rr := { s.rr with
            vd := w', rr_h := w'.vd_acc, rr_pos := s.rr.rr_pos + w'.vd_n.setWidth 33, phase := .body } }))

/-! ### The bit-packing family -/

/-- 41_bitpack.md R162, R165. PACK emits exactly `bw` bytes, those of `P' = OR over k of (vals[k] << (k * bw))`, whatever
the values; no bit is left buffered, and the bits at or above `8 * bw` are left in `bp_acc`; and the frame. -/
def Obligations.PackAnswersOrOfShiftedValues : Prop :=
  ∀ s (bw : BitVec 8) vals, s.busy .bitPacker = false → Memory.wf s.bp.sout = true → legalWidth bw = true →
    ∃ t r, exec (.pack .bitPacker bw vals) s = .next t ∧ advanceN 8 .bitPacker t = .next r ∧
      r.control .bitPacker = answeredWith .ok ∧ r.bp.bw = bw ∧ r.bp.vals = vals ∧
      r.bp.olen.toNat = bw.toNat ∧ r.bp.work.bp_nbits = 0 ∧
      r.bp.work.bp_acc.toNat = packNumber bw.toNat vals / 2 ^ (8 * bw.toNat) ∧
      (∀ j, j < bw.toNat →
        (Memory.read r.bp.sout j).toNat = packNumber bw.toNat vals / 2 ^ (8 * j) % 256) ∧
      s.othersUnchanged r .bitPacker ∧ s.onlyStored r .packSout 0 bw.toNat ∧
      packBytes 2 #v[7, 0, 0, 0, 0, 0, 0, 0] = [0x07, 0x00] ∧
      unpackGroup 2 [0x07, 0x00] = #v[3, 1, 0, 0, 0, 0, 0, 0]

/-- For values below `2^bw` the number PACK emits is `sum over k of (vals[k] << (k * bw))`. -/
def Obligations.PackNumberOfFittingValuesIsSum : Prop :=
  ∀ (bw : Nat) (g : Group), (∀ k, k < 8 → (g.at k).toNat < 2 ^ bw) →
    packNumber bw g = ∑ k ∈ Finset.range 8, (g.at k).toNat * 2 ^ (k * bw)

/-- UNPACK in closed form: value `k` is bits `k*bw + bw - 1 : k*bw` of the little-endian number of the first `bw` bytes;
exactly `bw` bytes are consumed; nothing is left buffered; and the frame. -/
def Obligations.UnpackAnswersFieldsOfPayload : Prop :=
  ∀ s (bw : BitVec 8) (avail : BitVec 33), s.busy .bitUnpacker = false → legalWidth bw = true →
    bw.toNat ≤ avail.toNat →
    ∃ t r, exec (.unpack .bitUnpacker bw avail) s = .next t ∧ advanceN 8 .bitUnpacker t = .next r ∧
      r.control .bitUnpacker = answeredWith .ok ∧ r.bu.bw = bw ∧ r.bu.avail = avail ∧
      r.bu.consumed.toNat = bw.toNat ∧ r.bu.work.bu_acc = 0 ∧ r.bu.work.bu_nbits = 0 ∧
      (∀ k, k < 8 → (r.bu.vals.at k).toNat =
        (∑ j ∈ Finset.range bw.toNat, (Memory.read s.bu.sin j).toNat * 2 ^ (8 * j))
          / 2 ^ (k * bw.toNat) % 2 ^ bw.toNat) ∧
      s.othersUnchanged r .bitUnpacker ∧ s.nothingStored r

/-- 41_bitpack.md R169. (a) UNPACK of PACK gives the values that fit; (b) PACK of UNPACK gives the bytes; (c) for values
that do not fit, UNPACK returns the fields of `P'`, which are not the values. -/
def Obligations.PackAndUnpackAreInverse : Prop :=
  ∀ bw : Nat, 1 ≤ bw → bw ≤ 8 →
    (∀ g : Group, (∀ k, k < 8 → (g.at k).toNat < 2 ^ bw) → unpackGroup bw (packBytes bw g) = g) ∧
    (∀ bs : List Byte, bs.length = bw → packBytes bw (unpackGroup bw bs) = bs) ∧
    (∀ g : Group,
      (∀ k, k < 8 → ((unpackGroup bw (packBytes bw g)).at k).toNat =
        packNumber bw g % 2 ^ (8 * bw) / 2 ^ (k * bw) % 2 ^ bw) ∧
      ((∃ k, k < 8 ∧ 2 ^ bw ≤ (g.at k).toNat) → unpackGroup bw (packBytes bw g) ≠ g))

/-- PACK then UNPACK on the block: values that fit come back. -/
def Obligations.UnpackUndoesPack : Prop :=
  ∀ s₁ t₁ r₁ s₂ k (bw : BitVec 8) vals (avail : BitVec 33),
    s₁.busy .bitPacker = false → Memory.wf s₁.bp.sout = true → legalWidth bw = true →
    (∀ j, j < 8 → (vals.at j).toNat < 2 ^ bw.toNat) →
    exec (.pack .bitPacker bw vals) s₁ = .next t₁ → advanceN k .bitPacker t₁ = .next r₁ →
    r₁.control .bitPacker = answeredWith .ok →
    s₂.busy .bitUnpacker = false → r₁.bp.olen.toNat ≤ avail.toNat →
    (∀ a, a < r₁.bp.olen.toNat → Memory.read s₂.bu.sin a = Memory.read r₁.bp.sout a) →
    ∃ t₂ r₂, exec (.unpack .bitUnpacker bw avail) s₂ = .next t₂ ∧ advanceN 8 .bitUnpacker t₂ = .next r₂ ∧
      r₂.control .bitUnpacker = answeredWith .ok ∧ r₂.bu.vals = vals

/-! ### The segmenter family -/

/-- 42_segmenter.md R192. CLASSIFY in closed form: `L = min(0x3FFF, m)`, `m` the greatest number such that `i + m <= n` and
the `m` values from `i` on are equal; `kind = 0` if `L >= 8`, else 1; and the frame. -/
def Obligations.ClassifyMeasuresCappedRun : Prop :=
  ∀ s (n i : BitVec 32), s.busy .rleRunClassifier = false → i.toNat < n.toNat →
    ∃ t r m, exec (.classify .rleRunClassifier n i) s = .next t ∧
      t.reachesWithin .rleRunClassifier 0x3FFF r ∧
      r.control .rleRunClassifier = answeredWith .ok ∧ r.rc.n = n ∧ r.rc.i = i ∧
      i.toNat + m ≤ n.toNat ∧
      (∀ j, j < m → Memory.read s.rc.vin (i.toNat + j) = Memory.read s.rc.vin i.toNat) ∧
      (∀ m', i.toNat + m' ≤ n.toNat →
        (∀ j, j < m' → Memory.read s.rc.vin (i.toNat + j) = Memory.read s.rc.vin i.toNat) → m' ≤ m) ∧
      r.rc.L.toNat = min 0x3FFF m ∧ r.rc.kind = (if 8 ≤ r.rc.L.toNat then 0 else 1) ∧
      r.rc.work.rc_kind = r.rc.kind ∧
      s.othersUnchanged r .rleRunClassifier ∧ s.nothingStored r

/-- ENCODE's loop over its registers agrees with the contract `encode(values, bit_width)`: the same status, and on OK the
same bytes; and the frame. The step level refines the transaction level; the bound counts steps of log entry 1's
grain. -/
def Obligations.EncodeRefinesContract : Prop :=
  ∀ s (bw : BitVec 8) (n : BitVec 32), s.busy .runSegmenter = false → Memory.wf s.rs.sout = true →
    ∃ t r, exec (.encode .runSegmenter bw n) s = .next t ∧
      t.reachesWithin .runSegmenter ((n.toNat + 7) / 8 + 1) r ∧
      (∀ u, u ≠ .runSegmenter → s.sameUnit r u) ∧ r.agenda = s.agenda ∧ r.rs.vin = s.rs.vin ∧
      match encodeStream bw (Memory.slice s.rs.vin 0 n.toNat) with
      | .ok bs =>
        r.control .runSegmenter = answeredWith .ok ∧ r.rs.olen.toNat = bs.length ∧
        Memory.slice r.rs.sout 0 bs.length = bs ∧ r.draws = s.draws ∧
        s.onlyStored r .encodeSout 0 bs.length
      | .error k => r.control .runSegmenter = answeredWith k

/-- 42_segmenter.md R199. The threshold is exactly 8, for every `bw`. -/
def Obligations.RleThresholdIsEight : Prop :=
  (∀ (bw : BitVec 8) (v : Value), legalWidth bw = true → v.toNat < 2 ^ bw.toNat →
    encodeStream bw (List.replicate 7 v) = .ok (Run.bytes bw.toNat (.bp #v[v, v, v, v, v, v, v, 0])) ∧
    encodeStream bw (List.replicate 8 v) = .ok [0x10, v] ∧
    (∀ len, 8 ≤ len → len ≤ 0x3FFF → encodeStream bw (List.replicate len v) =
      .ok (Run.bytes bw.toNat (.rle v (BitVec.ofNat 63 len))))) ∧
  (∀ fuel v vs, 8 ≤ classifyLen (v :: vs) →
    (segment (fuel + 1) (v :: vs)).head? = some (.rle v (BitVec.ofNat 63 (classifyLen (v :: vs))))) ∧
  (∀ fuel v vs, classifyLen (v :: vs) < 8 →
    (segment (fuel + 1) (v :: vs)).head? = some (.bp (padGroup (v :: vs)))) ∧
  encodeStream 6 (List.replicate 20 7 ++ List.replicate 8 3) = .ok [0x28, 0x07, 0x10, 0x03] ∧
  encodeStream 3 (List.replicate 7 4) = .ok [0x03, 0x24, 0x49, 0x12] ∧
  encodeStream 3 (List.replicate 8 4) = .ok [0x10, 0x04] ∧
  encodeStream 3 (List.replicate 9 4) = .ok [0x12, 0x04]

/-- 42_segmenter.md R200. The cap is exactly 0x3FFF. -/
def Obligations.RunLengthCapIs3FFF : Prop :=
  ∀ (bw : BitVec 8) (v : Value), legalWidth bw = true → v.toNat < 2 ^ bw.toNat →
    encodeStream bw (List.replicate 0x3FFF v) = .ok [0xFE, 0xFF, 0x01, v] ∧
    encodeStream bw (List.replicate 0x4000 v) =
      .ok ([0xFE, 0xFF, 0x01, v] ++ Run.bytes bw.toNat (.bp #v[v, 0, 0, 0, 0, 0, 0, 0])) ∧
    encodeStream bw (List.replicate (0x3FFF + 8) v) = .ok [0xFE, 0xFF, 0x01, v, 0x10, v] ∧
    (∀ m, 8 ≤ m → m ≤ 0x3FFF → encodeStream bw (List.replicate (0x3FFF + m) v) =
      .ok ([0xFE, 0xFF, 0x01, v] ++ Run.bytes bw.toNat (.rle v (BitVec.ofNat 63 m))))

/-- 42_segmenter.md R203. Every pass advances `rs_i` by at least 8; the scan ends within `ceil(n / 8)` passes with
`n <= rs_i <= n + 7`; the runs emitted stand for the `n` values followed by `rs_i - n` zeros, and there is padding
only where the last run is bit-packed. -/
def Obligations.EncodeScanCoversInput : Prop :=
  (∀ s t, s.busy .runSegmenter = true → s.segmenterInRange → s.rs.rs_i.toNat < s.rs.n.toNat →
    advance .runSegmenter s = .next t → s.rs.rs_i.toNat + 8 ≤ t.rs.rs_i.toNat) ∧
  (∀ s (bw : BitVec 8) (n : BitVec 32), s.busy .runSegmenter = false → legalWidth bw = true →
    (∀ k, k < n.toNat → (Memory.read s.rs.vin k).toNat < 2 ^ bw.toNat) →
    ∃ t r, exec (.encode .runSegmenter bw n) s = .next t ∧
      t.reachesWithin .runSegmenter ((n.toNat + 7) / 8 + 1) r ∧
      r.control .runSegmenter = answeredWith .ok ∧
      n.toNat ≤ r.rs.rs_i.toNat ∧ r.rs.rs_i.toNat ≤ n.toNat + 7 ∧
      (let vs := Memory.slice s.rs.vin 0 n.toNat
       (segment vs.length vs).flatMap runValues = vs ++ List.replicate (r.rs.rs_i.toNat - n.toNat) 0 ∧
       (n.toNat < r.rs.rs_i.toNat → ∃ g, (segment vs.length vs).getLast? = some (.bp g))))

/-- 42_segmenter.md R204. What every stream produced by ENCODE looks like. -/
def Obligations.EncodeImage : Prop :=
  ∀ (bw : BitVec 8) (vs : List Value) bs, encodeStream bw vs = .ok bs →
    ∃ runs : List Run, bs = runs.flatMap (Run.bytes bw.toNat) ∧
      (∀ run ∈ runs,
        match run with
        | .rle v c => 8 ≤ c.toNat ∧ c.toNat ≤ 0x3FFF ∧ v.toNat < 2 ^ bw.toNat ∧
            Run.bytes bw.toNat run = varintBytes (rleHeader c) ++ [v]
        | .bp g => (∀ k, k < 8 → (g.at k).toNat < 2 ^ bw.toNat) ∧
            ∃ payload, Run.bytes bw.toNat run = 0x03 :: payload ∧ payload.length = bw.toNat) ∧
      ∃ p, p ≤ 7 ∧ runs.flatMap runValues = vs ++ List.replicate p 0 ∧
        (p ≠ 0 → ∃ g, runs.getLast? = some (.bp g))

/-- ENCODE's output is never longer than `ceil(n / 8) * max(1 + bw, 4)` bytes. -/
def Obligations.EncodeOutputFitsCapacityBound : Prop :=
  ∀ (bw : BitVec 8) (vs : List Value) bs, encodeStream bw vs = .ok bs →
    bs.length ≤ (vs.length + 7) / 8 * max (1 + bw.toNat) 4

/-! ### The reader family -/

/-- 43_reader.md R228. The RLE instruction: the value byte, appended `min(run_length, room)` times; `TruncatedBuffer` where
it is missing; and the frame. -/
def Obligations.RleAppendsCappedRun : Prop :=
  ∀ s (c : BitVec 63),
    (s.rr.rr_pos = s.rr.slen → exec (.rle c) s = .next (s.raise .runReader .truncatedBuffer)) ∧
    (s.rr.rr_pos ≠ s.rr.slen → Memory.wf s.rr.vout = true →
      ∃ t, exec (.rle c) s = .next t ∧
        (let v := Memory.read s.rr.sin s.rr.rr_pos.toNat
         let m := min c.toNat (s.rr.total.toNat - s.rr.rr_count.toNat)
         t.rr.rr_val = v ∧ t.rr.rr_pos = s.rr.rr_pos + 1 ∧ t.rr.rr_count.toNat = s.rr.rr_count.toNat + m ∧
         t.rr.phase = .top ∧
         (∀ a, s.rr.rr_count.toNat ≤ a → a < s.rr.rr_count.toNat + m → Memory.read t.rr.vout a = v) ∧
         s.onlyStored t .decodeVout s.rr.rr_count.toNat (s.rr.rr_count.toNat + m) ∧
         t = { s with rr := { s.rr with
           rr_val := t.rr.rr_val, rr_pos := t.rr.rr_pos, rr_count := t.rr.rr_count, phase := t.rr.phase,
           vout := t.rr.vout } }))

/-- 43_reader.md R229. The BP instruction: the group of `bw` payload bytes, its first `min(8, room)` values appended;
`TruncatedBuffer` where fewer than `bw` bytes remain; the group count ignored; and the frame. -/
def Obligations.BpAppendsOneGroup : Prop :=
  ∀ s (gc : BitVec 63),
    (∀ gc', exec (.bp gc') s = exec (.bp gc) s) ∧
    (s.rr.slen.toNat - s.rr.rr_pos.toNat < s.rr.bw.toNat →
      exec (.bp gc) s = .next (s.raise .runReader .truncatedBuffer)) ∧
    (legalWidth s.rr.bw = true → s.rr.bw.toNat ≤ s.rr.slen.toNat - s.rr.rr_pos.toNat →
      Memory.wf s.rr.vout = true →
      ∃ t, exec (.bp gc) s = .next t ∧
        (let m := min 8 (s.rr.total.toNat - s.rr.rr_count.toNat)
         t.rr.rr_grp = unpackGroup s.rr.bw.toNat (Memory.slice s.rr.sin s.rr.rr_pos.toNat s.rr.bw.toNat) ∧
         t.rr.rr_pos.toNat = s.rr.rr_pos.toNat + s.rr.bw.toNat ∧
         t.rr.rr_count.toNat = s.rr.rr_count.toNat + m ∧ t.rr.phase = .top ∧
         (∀ k, k < m → Memory.read t.rr.vout (s.rr.rr_count.toNat + k) = t.rr.rr_grp.at k) ∧
         s.onlyStored t .decodeVout s.rr.rr_count.toNat (s.rr.rr_count.toNat + m) ∧
         t = { s with rr := { s.rr with
           rr_grp := t.rr.rr_grp, rr_pos := t.rr.rr_pos, rr_count := t.rr.rr_count, bu := t.rr.bu,
           phase := t.rr.phase, vout := t.rr.vout } }))

/-- 60_exceptions.md R256. The three ways input can run out in DECODE, told apart by where the reader stands. -/
def Obligations.ExhaustedInputErrorsByPosition : Prop :=
  ∀ s, s.busy .runReader = true →
    (s.rr.phase = .top → s.rr.rr_count.toNat < s.rr.total.toNat → s.rr.slen = s.rr.rr_pos →
      advance .runReader s = .next (s.raise .runReader .overrunError)) ∧
    (s.rr.phase = .header → 1 ≤ s.rr.vd.vd_n.toNat →
      s.rr.slen.toNat ≤ s.rr.rr_pos.toNat + s.rr.vd.vd_n.toNat →
      advance .runReader s = .next (s.raise .runReader .malformedHeader)) ∧
    (s.rr.phase = .body → s.rr.rr_h.toNat % 2 = 0 → s.rr.slen = s.rr.rr_pos →
      advance .runReader s = .next (s.raise .runReader .truncatedBuffer)) ∧
    (s.rr.phase = .body → s.rr.rr_h.toNat % 2 = 1 →
      s.rr.slen.toNat - s.rr.rr_pos.toNat < s.rr.bw.toNat →
      advance .runReader s = .next (s.raise .runReader .truncatedBuffer))

/-- 43_reader.md R230. With `total = 0` the stop test succeeds at once: `OK`, no byte read, nothing written, whatever
`slen`; an illegal `bw` still gives `BadArgument`. -/
def Obligations.DecodeOfNothingSucceeds : Prop :=
  ∀ s (bw : BitVec 8) (slen : BitVec 33), s.busy .runReader = false →
    (legalWidth bw = true →
      ∃ t r, exec (.decode .runReader bw 0 slen) s = .next t ∧ advance .runReader t = .next r ∧
        r.control .runReader = answeredWith .ok ∧ r.rr.rr_pos = 0 ∧ r.rr.rr_count = 0 ∧
        s.nothingStored r ∧ s.othersUnchanged r .runReader) ∧
    (legalWidth bw = false →
      ∃ t, exec (.decode .runReader bw 0 slen) s = .next t ∧
        t.control .runReader = answeredWith .badArgument)

/-- DECODE's loop over its registers agrees with the contract `decode(stream, bit_width, total_values)`: the same status,
and on OK the same values and nothing at or beyond `VOUT[total]`; and the frame. The step level refines the
transaction level; the bound counts steps of log entry 1's grain. -/
def Obligations.DecodeRefinesContract : Prop :=
  ∀ s (bw : BitVec 8) (total : BitVec 32) (slen : BitVec 33),
    s.busy .runReader = false → Memory.wf s.rr.vout = true →
    ∃ t r, exec (.decode .runReader bw total slen) s = .next t ∧
      t.reachesWithin .runReader (2 * slen.toNat + 2) r ∧
      (∀ u, u ≠ .runReader → s.sameUnit r u) ∧ r.agenda = s.agenda ∧ r.rr.sin = s.rr.sin ∧
      match decodeStream bw total.toNat (Memory.slice s.rr.sin 0 slen.toNat) with
      | .ok vs =>
        r.control .runReader = answeredWith .ok ∧ vs.length = total.toNat ∧ r.rr.rr_count = total ∧
        Memory.slice r.rr.vout 0 total.toNat = vs ∧ r.draws = s.draws ∧
        s.onlyStored r .decodeVout 0 total.toNat
      | .error k => r.control .runReader = answeredWith k

/-- A stream of RLE runs of length 0 makes no progress and ends in `OverrunError`. -/
def Obligations.ZeroLengthRunsEndInOverrun : Prop :=
  ∀ (bw : BitVec 8) (total : Nat) (xs : List Byte), legalWidth bw = true →
    decodeStream bw (total + 1) (xs.flatMap (fun x => [0x00, x])) = .error .overrunError

/-- Bytes after the run that completes `total` go unnoticed. -/
def Obligations.TrailingBytesIgnored : Prop :=
  ∀ (bw : BitVec 8) (total : Nat) (bs extra : List Byte) vs,
    decodeStream bw total bs = .ok vs → decodeStream bw total (bs ++ extra) = .ok vs

/-- 43_reader.md R236. DECODE is not injective: the scenario's two streams decode to the same values, and only one of them
is what ENCODE emits. -/
def Obligations.DecodeIsNotInjective : Prop :=
  let vs : List Value := List.replicate 20 7 ++ List.replicate 8 3
  decodeStream 6 28 [0x28, 0x07, 0x10, 0x03] = .ok vs ∧
  decodeStream 6 28 [0x28, 0x07, 0x03, 0xC3, 0x30, 0x0C, 0xC3, 0x30, 0x0C] = .ok vs ∧
  encodeStream 6 vs = .ok [0x28, 0x07, 0x10, 0x03]

/-- 42_segmenter.md R205. DECODE of what ENCODE answered gives the input back, reads every byte, and for any
`total <= n` gives the first `total` values. -/
def Obligations.DecodeUndoesEncode : Prop :=
  ∀ s₁ t₁ r₁ s₂ k (bw : BitVec 8) (n total : BitVec 32),
    s₁.busy .runSegmenter = false → Memory.wf s₁.rs.sout = true →
    exec (.encode .runSegmenter bw n) s₁ = .next t₁ → advanceN k .runSegmenter t₁ = .next r₁ →
    r₁.control .runSegmenter = answeredWith .ok →
    s₂.busy .runReader = false → Memory.wf s₂.rr.vout = true →
    (∀ a, a < r₁.rs.olen.toNat → Memory.read s₂.rr.sin a = Memory.read r₁.rs.sout a) →
    total.toNat ≤ n.toNat →
    ∃ t₂ r₂, exec (.decode .runReader bw total r₁.rs.olen) s₂ = .next t₂ ∧
      t₂.reachesWithin .runReader (2 * r₁.rs.olen.toNat + 2) r₂ ∧
      r₂.control .runReader = answeredWith .ok ∧
      (∀ a, a < total.toNat → Memory.read r₂.rr.vout a = Memory.read s₁.rs.vin a) ∧
      (total = n → r₂.rr.rr_pos = r₁.rs.olen)

/-! ### Whole-machine rules -/

/-- 10_state.md R23. The codes of the statuses, the reset value, and that a status changes only at a response of its own
unit (or at reset). -/
def Obligations.StatusIsWrittenAtTheResponse : Prop :=
  (Status.ok.code = 0 ∧ Status.valueOutOfRange.code = 1 ∧ Status.malformedHeader.code = 2 ∧
    Status.truncatedBuffer.code = 3 ∧ Status.overrunError.code = 4 ∧ Status.badArgument.code = 5) ∧
  (∀ k : Status, k.code ≠ 6 ∧ k.code ≠ 7) ∧
  (∀ u, (State.reset.control u).status = .ok) ∧
  (∀ s t u, step s = .next t → s.agenda.head? ≠ some .reset →
    (t.control u).status ≠ (s.control u).status → t.busy u = false ∧ (t.control u).answered = true)

/-- The seven units share no register and no buffer: a step, a command or an abort of one leaves every other as it is
(10_state.md section 1). -/
def Obligations.UnitsDoNotTouchEachOther : Prop :=
  (∀ s t u v, v ≠ u → advance u s = .next t → s.sameUnit t v ∧ t.agenda = s.agenda) ∧
  (∀ s t u v op x, v ≠ u → exec (decodeCommand u op x) s = .next t →
    s.sameUnit t v ∧ t.agenda = s.agenda) ∧
  (∀ (s : State) u v, v ≠ u → s.sameUnit (s.abort u) v ∧ (s.abort u).agenda = s.agenda)

/-- Operands are latched at acceptance and do not change while the operation runs; and a unit never writes its input
buffer (10_state.md section 2, 20_memory.md section 4). -/
def Obligations.OperandsAndInputsStayFixed : Prop :=
  ∀ u s t, advance u s = .next t →
    t.ve.v = s.ve.v ∧ t.vd.avail = s.vd.avail ∧ t.vd.sin = s.vd.sin ∧ t.bp.bw = s.bp.bw ∧ t.bp.vals = s.bp.vals ∧
    t.bu.bw = s.bu.bw ∧ t.bu.avail = s.bu.avail ∧ t.bu.sin = s.bu.sin ∧ t.rc.n = s.rc.n ∧ t.rc.i = s.rc.i ∧
    t.rc.vin = s.rc.vin ∧ t.rs.bw = s.rs.bw ∧ t.rs.n = s.rs.n ∧ t.rs.vin = s.rs.vin ∧ t.rr.bw = s.rr.bw ∧
    t.rr.total = s.rr.total ∧ t.rr.slen = s.rr.slen ∧ t.rr.sin = s.rr.sin

/-- 20_memory.md R73. Operations at work at the same time do not interact: in any interleaving of the units' steps, each
unit comes where its own steps alone would bring it: the same response, and the same registers and buffers unless it
has raised an error, whose results are unspecified. -/
def Obligations.InterleavingDoesNotMatter : Prop :=
  ∀ s us u, ∃ a b, advanceAll us s = .next a ∧ advanceN (us.count u) u s = .next b ∧
    a.control u = b.control u ∧ (b.draws = s.draws → b.sameUnit a u)

/-- 10_state.md R41. The response of an operation is a function of its operands and input buffer alone: two identical
commands, in states with any other history, are answered after the same number of steps with the same status and,
on OK, the same results. -/
def Obligations.ResponseDependsOnCommandAlone : Prop :=
  ∀ s s' u op x k, s.busy u = false → s'.busy u = false → s.sameInput s' u →
    s.buffersWf → s'.buffersWf →
    ∃ t t' r r', exec (decodeCommand u op x) s = .next t ∧ exec (decodeCommand u op x) s' = .next t' ∧
      advanceN k u t = .next r ∧ advanceN k u t' = .next r' ∧
      r.busy u = r'.busy u ∧ (r.control u).answered = (r'.control u).answered ∧
      ((r.control u).answered = true →
        (r.control u).status = (r'.control u).status ∧
        ((r.control u).status = .ok → r.sameResults r' u))

/-- Every accepted command is answered, within a bound on the steps of its unit (60_exceptions.md section 7); the steps
are of log entry 1's grain. -/
def Obligations.AcceptedCommandIsAnswered : Prop :=
  ∀ s u op x, s.busy u = false →
    ∃ t r, exec (decodeCommand u op x) s = .next t ∧ t.reachesWithin u (answerBound op x) r ∧
      r.busy u = false ∧ (r.control u).answered = true

/-- Every step keeps every buffer in canonical form (log entry 4), and every buffer's listed offsets inside that buffer's
own space: 2^32 offsets for `VIN` and `VOUT`, 2^33 for `SIN` and `SOUT` (log entry 19). -/
def Obligations.BuffersStayCanonical : Prop :=
  (∀ s t, s.buffersWf → step s = .next t → t.buffersWf) ∧
  (∀ s t, s.buffersFit → step s = .next t → t.buffersFit)

/-- Every step keeps every register, those of the private units included, in the range 10_state.md gives it. -/
def Obligations.RegistersStayInRange : Prop :=
  ∀ s t, s.registersInRange → step s = .next t → t.registersInRange

/-- The reset state meets the invariants. -/
def Obligations.ResetMeetsInvariants : Prop :=
  State.reset.buffersWf ∧ State.reset.buffersFit ∧ State.reset.registersInRange
end

