-- ==== Sys2Proof/Laws/Memory.lean ====
section
/-! SUPPORT. The laws of a buffer space: a read after a write, and that every operation keeps the canonical form. -/

namespace Sys2Proof.Machine

@[simp] theorem Memory.read_nil (x : Nat) : Memory.read [] x = 0 := rfl

/-- A write leaves every other offset alone, in canonical form or not. -/
theorem Memory.read_write_of_ne (m : Memory) {x y : Nat} (v : Byte) (h : y ≠ x) :
    Memory.read (Memory.write m x v) y = Memory.read m y := by
  induction m with
  | nil =>
    unfold Memory.write
    split
    · rfl
    · simp [Memory.read, Ne.symm h]
  | cons c m ih =>
    obtain ⟨a, b⟩ := c
    simp only [Memory.write]
    split
    · split
      · rfl
      · simp [Memory.read, Ne.symm h]
    · split
      · next hxa =>
        subst hxa
        split <;> simp [Memory.read, Ne.symm h]
      · simp only [Memory.read, ih]

theorem Memory.read_of_wfAbove {m : Memory} {lo x : Nat} (h : Memory.wfAbove lo m = true) (hx : x < lo) :
    Memory.read m x = 0 := by
  induction m generalizing lo with
  | nil => rfl
  | cons c m ih =>
    obtain ⟨a, b⟩ := c
    simp only [Memory.wfAbove, Bool.and_eq_true, decide_eq_true_eq] at h
    simp only [Memory.read]
    rw [if_neg (by omega)]
    exact ih h.2 (by omega)

theorem Memory.read_write_self_above {m : Memory} {lo : Nat} (h : Memory.wfAbove lo m = true) (x : Nat) (v : Byte) :
    Memory.read (Memory.write m x v) x = v := by
  induction m generalizing lo with
  | nil =>
    unfold Memory.write
    split
    · next hv => simp [hv]
    · simp [Memory.read]
  | cons c m ih =>
    obtain ⟨a, b⟩ := c
    simp only [Memory.wfAbove, Bool.and_eq_true, decide_eq_true_eq] at h
    simp only [Memory.write]
    split
    · next hxa =>
      split
      · next hv =>
        simp only [Memory.read, if_neg (show ¬ a = x by omega), hv]
        exact Memory.read_of_wfAbove h.2 (by omega)
      · simp [Memory.read]
    · split
      · next hxa =>
        subst hxa
        split
        · next hv => rw [hv]; exact Memory.read_of_wfAbove h.2 (by omega)
        · simp [Memory.read]
      · simp only [Memory.read]
        rw [if_neg (by omega)]
        exact ih h.2

/-- A read after a write to the same offset gives the value written. -/
theorem Memory.read_write_self {m : Memory} (h : Memory.wf m = true) (x : Nat) (v : Byte) :
    Memory.read (Memory.write m x v) x = v :=
  Memory.read_write_self_above h x v

theorem Memory.wfAbove_mono {m : Memory} {lo lo' : Nat} (h : Memory.wfAbove lo m = true) (hl : lo' ≤ lo) :
    Memory.wfAbove lo' m = true := by
  cases m with
  | nil => rfl
  | cons c m =>
    obtain ⟨a, b⟩ := c
    simp only [Memory.wfAbove, Bool.and_eq_true, decide_eq_true_eq] at h ⊢
    exact ⟨⟨⟨by omega, h.1.1.2⟩, h.1.2⟩, h.2⟩

theorem Memory.wfAbove_write {m : Memory} {lo x : Nat} (h : Memory.wfAbove lo m = true) (hlo : lo ≤ x)
    (hx : x < Config.spaceSize) (v : Byte) : Memory.wfAbove lo (Memory.write m x v) = true := by
  induction m generalizing lo with
  | nil =>
    unfold Memory.write
    split
    · rfl
    · next hv => simpa [Memory.wfAbove, hlo, hx] using hv
  | cons c m ih =>
    obtain ⟨a, b⟩ := c
    have h0 := h
    simp only [Memory.wfAbove, Bool.and_eq_true, decide_eq_true_eq] at h
    simp only [Memory.write]
    split
    · next hxa =>
      split
      · exact h0
      · next hv =>
        simp only [Memory.wfAbove, Bool.and_eq_true, decide_eq_true_eq]
        exact ⟨⟨⟨hlo, hx⟩, hv⟩, ⟨⟨by omega, h.1.1.2⟩, h.1.2⟩, h.2⟩
    · split
      · next hxa =>
        subst hxa
        split
        · exact Memory.wfAbove_mono h.2 (by omega)
        · next hv =>
          simp only [Memory.wfAbove, Bool.and_eq_true, decide_eq_true_eq]
          exact ⟨⟨⟨hlo, hx⟩, hv⟩, h.2⟩
      · simp only [Memory.wfAbove, Bool.and_eq_true, decide_eq_true_eq]
        exact ⟨⟨⟨h.1.1.1, h.1.1.2⟩, h.1.2⟩, ih h.2 (by omega)⟩

/-- A write inside the space keeps the canonical form. -/
theorem Memory.wf_write {m : Memory} (h : Memory.wf m = true) {x : Nat} (hx : x < Config.spaceSize) (v : Byte) :
    Memory.wf (Memory.write m x v) = true :=
  Memory.wfAbove_write h (Nat.zero_le _) hx v

/-- Free contents are canonical. -/
theorem Memory.wf_ofCells {extent : Nat} (he : extent ≤ Config.spaceSize) (l : List (Nat × BitVec 8)) {m : Memory}
    (h : Memory.wf m = true) : Memory.wf (Memory.ofCells extent l m) = true := by
  induction l generalizing m with
  | nil => exact h
  | cons c l ih =>
    obtain ⟨a, b⟩ := c
    simp only [Memory.ofCells]
    split
    · next ha => exact ih (Memory.wf_write h (by omega) b)
    · exact ih h

/-- A write adds at most the offset it writes to. -/
theorem Memory.mem_write {m : Memory} {x : Nat} {v : Byte} {c : Host.Cell} (h : c ∈ Memory.write m x v) :
    c.1 = x ∨ c ∈ m := by
  induction m with
  | nil =>
    unfold Memory.write at h
    split at h
    · cases h
    · exact .inl (by rw [List.mem_singleton.mp h])
  | cons d m ih =>
    obtain ⟨a, b⟩ := d
    unfold Memory.write at h
    split_ifs at h <;> simp only [List.mem_cons] at h ⊢ <;> grind

/-- Free contents lie inside the extent. -/
theorem Memory.ofCells_lt {extent : Nat} (l : List (Nat × BitVec 8)) {m : Memory} (h : ∀ c ∈ m, c.1 < extent) :
    ∀ c ∈ Memory.ofCells extent l m, c.1 < extent := by
  induction l generalizing m with
  | nil => exact h
  | cons d l ih =>
    obtain ⟨a, b⟩ := d
    simp only [Memory.ofCells]
    split
    · next ha =>
      exact ih fun c hc => (Memory.mem_write hc).elim (fun he => he ▸ ha) (h c)
    · exact ih h

/-- A list written at rising offsets adds only offsets of its own range. -/
theorem Memory.mem_writeList (bs : List Byte) {m : Memory} {a : Nat} {c : Host.Cell}
    (h : c ∈ Memory.writeList m a bs) : a ≤ c.1 ∧ c.1 < a + bs.length ∨ c ∈ m := by
  induction bs generalizing m a with
  | nil => exact .inr h
  | cons b bs ih =>
    rw [List.length_cons]
    obtain hr | hw := ih h
    · exact .inl (by omega)
    · obtain he | hm := Memory.mem_write hw
      · exact .inl (by omega)
      · exact .inr hm

/-- A list written at rising offsets inside the space keeps the canonical form. -/
theorem Memory.wf_writeList (bs : List Byte) {m : Memory} (h : Memory.wf m = true) {a : Nat}
    (ha : a + bs.length ≤ Config.spaceSize) : Memory.wf (Memory.writeList m a bs) = true := by
  induction bs generalizing m a with
  | nil => exact h
  | cons b bs ih =>
    simp only [List.length_cons] at ha
    exact ih (Memory.wf_write h (by omega) b) (by omega)

/-- What a list written at rising offsets reads as, outside it. -/
theorem Memory.read_writeList_outside (bs : List Byte) (m : Memory) {a x : Nat}
    (h : x < a ∨ a + bs.length ≤ x) : Memory.read (Memory.writeList m a bs) x = Memory.read m x := by
  induction bs generalizing m a with
  | nil => rfl
  | cons b bs ih =>
    simp only [List.length_cons] at h
    simp only [Memory.writeList]
    rw [ih _ (by omega), Memory.read_write_of_ne _ _ (by omega)]

/-- What a list written at rising offsets reads as, inside it. -/
theorem Memory.read_writeList_inside (bs : List Byte) {m : Memory} (hm : Memory.wf m = true) {a k : Nat}
    (ha : a + bs.length ≤ Config.spaceSize) (hk : k < bs.length) :
    Memory.read (Memory.writeList m a bs) (a + k) = bs[k] := by
  induction bs generalizing m a k with
  | nil => simp at hk
  | cons b bs ih =>
    simp only [List.length_cons] at ha hk
    simp only [Memory.writeList]
    cases k with
    | zero =>
      rw [Memory.read_writeList_outside _ _ (by omega)]
      exact Memory.read_write_self hm _ _
    | succ k =>
      have := ih (m := Memory.write m a b) (a := a + 1) (k := k) (Memory.wf_write hm (by omega) b) (by omega)
        (by omega)
      rw [show a + (k + 1) = a + 1 + k by omega, this]
      rfl

@[simp] theorem Memory.length_slice (m : Memory) (a len : Nat) : (Memory.slice m a len).length = len := by
  simp [Memory.slice]

theorem Memory.getElem_slice (m : Memory) (a len k : Nat) (h : k < (Memory.slice m a len).length) :
    (Memory.slice m a len)[k] = Memory.read m (a + k) := by
  simp [Memory.slice]

end Sys2Proof.Machine
end

