-- ==== Sys2Proof/Laws/State.lean ====
section
/-! SUPPORT. The field lemmas: for each update of the state, what each part of it is afterwards. -/

namespace Sys2Proof.Machine

/-- A register that does not wrap counts up by one. -/
theorem toNat_add_one {w : Nat} (x : BitVec w) (h : x.toNat + 1 < 2 ^ w) : (x + 1).toNat = x.toNat + 1 := by
  have h1 : 1 < 2 ^ w := by omega
  simp [BitVec.toNat_add, Nat.mod_eq_of_lt h1, Nat.mod_eq_of_lt h]

/-- A register that is counted up at most to its range stays in it. -/
theorem toNat_add_one_le {w : Nat} (x : BitVec w) {n : Nat} (h : x.toNat ≤ n) : (x + 1).toNat ≤ n + 1 := by
  rw [BitVec.toNat_add]
  have h1 : (1 : BitVec w).toNat ≤ 1 := by simpa using Nat.mod_le 1 (2 ^ w)
  exact (Nat.mod_le _ _).trans (by omega)

/-! ### Control states -/

@[simp] theorem Controls.get_set_self (c : Controls) (u : UnitId) (x : Control) : (c.set u x).get u = x := by
  cases u <;> rfl

theorem Controls.get_set_of_ne (c : Controls) {u v : UnitId} (x : Control) (h : v ≠ u) :
    (c.set u x).get v = c.get v := by
  cases u <;> cases v <;> first | rfl | exact absurd rfl h

theorem Controls.set_comm (c : Controls) {u v : UnitId} (x y : Control) (h : u ≠ v) :
    (c.set u x).set v y = (c.set v y).set u x := by
  cases u <;> cases v <;> first | rfl | exact absurd rfl h

@[simp] theorem Controls.set_set (c : Controls) (u : UnitId) (x y : Control) : (c.set u x).set u y = c.set u y := by
  cases u <;> rfl

theorem Controls.ext_get {c d : Controls} (h : ∀ u, c.get u = d.get u) : c = d := by
  have h1 := h .varintEncoder; have h2 := h .varintDecoder; have h3 := h .bitPacker
  have h4 := h .bitUnpacker; have h5 := h .rleRunClassifier; have h6 := h .runSegmenter
  have h7 := h .runReader
  cases c; cases d
  simp_all [Controls.get]

theorem State.busy_eq (s : State) (u : UnitId) : s.busy u = (s.control u).busy := rfl

section setControl
variable (s : State) (u : UnitId) (c : Control)
@[simp] theorem State.setControl_ctl : (s.setControl u c).ctl = s.ctl.set u c := rfl
@[simp] theorem State.setControl_ve : (s.setControl u c).ve = s.ve := rfl
@[simp] theorem State.setControl_vd : (s.setControl u c).vd = s.vd := rfl
@[simp] theorem State.setControl_bp : (s.setControl u c).bp = s.bp := rfl
@[simp] theorem State.setControl_bu : (s.setControl u c).bu = s.bu := rfl
@[simp] theorem State.setControl_rc : (s.setControl u c).rc = s.rc := rfl
@[simp] theorem State.setControl_rs : (s.setControl u c).rs = s.rs := rfl
@[simp] theorem State.setControl_rr : (s.setControl u c).rr = s.rr := rfl
@[simp] theorem State.setControl_agenda : (s.setControl u c).agenda = s.agenda := rfl
@[simp] theorem State.setControl_draws : (s.setControl u c).draws = s.draws := rfl
@[simp] theorem State.setControl_buffer (b : Buffer) : (s.setControl u c).buffer b = s.buffer b := by
  cases b <;> rfl
@[simp] theorem State.setControl_control_self : (s.setControl u c).control u = c := Controls.get_set_self _ _ _
theorem State.setControl_control_of_ne {v : UnitId} (h : v ≠ u) : (s.setControl u c).control v = s.control v :=
  Controls.get_set_of_ne _ _ h
end setControl

section respond
variable (s : State) (u : UnitId) (k : Status)
@[simp] theorem State.respond_ve : (s.respond u k).ve = s.ve := rfl
@[simp] theorem State.respond_vd : (s.respond u k).vd = s.vd := rfl
@[simp] theorem State.respond_bp : (s.respond u k).bp = s.bp := rfl
@[simp] theorem State.respond_bu : (s.respond u k).bu = s.bu := rfl
@[simp] theorem State.respond_rc : (s.respond u k).rc = s.rc := rfl
@[simp] theorem State.respond_rs : (s.respond u k).rs = s.rs := rfl
@[simp] theorem State.respond_rr : (s.respond u k).rr = s.rr := rfl
@[simp] theorem State.respond_agenda : (s.respond u k).agenda = s.agenda := rfl
@[simp] theorem State.respond_draws : (s.respond u k).draws = s.draws := rfl
@[simp] theorem State.respond_buffer (b : Buffer) : (s.respond u k).buffer b = s.buffer b := by cases b <;> rfl
@[simp] theorem State.respond_control_self :
    (s.respond u k).control u = { busy := false, status := k, answered := true } := Controls.get_set_self _ _ _
theorem State.respond_control_of_ne {v : UnitId} (h : v ≠ u) : (s.respond u k).control v = s.control v :=
  Controls.get_set_of_ne _ _ h
end respond

/-! ### Buffers -/

section setBuffer
variable (s : State) (b : Buffer) (m : Memory)
@[simp] theorem State.setBuffer_ctl : (s.setBuffer b m).ctl = s.ctl := by cases b <;> rfl
@[simp] theorem State.setBuffer_agenda : (s.setBuffer b m).agenda = s.agenda := by cases b <;> rfl
@[simp] theorem State.setBuffer_draws : (s.setBuffer b m).draws = s.draws := by cases b <;> rfl
@[simp] theorem State.setBuffer_control (u : UnitId) : (s.setBuffer b m).control u = s.control u := by
  cases b <;> rfl
@[simp] theorem State.setBuffer_buffer_self : (s.setBuffer b m).buffer b = m := by cases b <;> rfl
theorem State.setBuffer_buffer_of_ne {b' : Buffer} (h : b' ≠ b) : (s.setBuffer b m).buffer b' = s.buffer b' := by
  cases b <;> cases b' <;> first | rfl | exact absurd rfl h
end setBuffer

/-! ### Latching, clearing, acceptance -/

section latch
variable (s : State)
@[simp] theorem State.latchVenc_ctl (v) : (s.latchVenc v).ctl = s.ctl := rfl
@[simp] theorem State.latchVdec_ctl (a) : (s.latchVdec a).ctl = s.ctl := rfl
@[simp] theorem State.latchPack_ctl (w g) : (s.latchPack w g).ctl = s.ctl := rfl
@[simp] theorem State.latchUnpack_ctl (w a) : (s.latchUnpack w a).ctl = s.ctl := rfl
@[simp] theorem State.latchClassify_ctl (n i) : (s.latchClassify n i).ctl = s.ctl := rfl
@[simp] theorem State.latchEncode_ctl (w n) : (s.latchEncode w n).ctl = s.ctl := rfl
@[simp] theorem State.latchDecode_ctl (w n l) : (s.latchDecode w n l).ctl = s.ctl := rfl
@[simp] theorem State.latchVenc_buffer (v b) : (s.latchVenc v).buffer b = s.buffer b := by cases b <;> rfl
@[simp] theorem State.latchVdec_buffer (a b) : (s.latchVdec a).buffer b = s.buffer b := by cases b <;> rfl
@[simp] theorem State.latchPack_buffer (w g b) : (s.latchPack w g).buffer b = s.buffer b := by cases b <;> rfl
@[simp] theorem State.latchUnpack_buffer (w a b) : (s.latchUnpack w a).buffer b = s.buffer b := by
  cases b <;> rfl
@[simp] theorem State.latchClassify_buffer (n i b) : (s.latchClassify n i).buffer b = s.buffer b := by
  cases b <;> rfl
@[simp] theorem State.latchEncode_buffer (w n b) : (s.latchEncode w n).buffer b = s.buffer b := by
  cases b <;> rfl
@[simp] theorem State.latchDecode_buffer (w n l b) : (s.latchDecode w n l).buffer b = s.buffer b := by
  cases b <;> rfl
end latch

section clear
variable (s : State) (u : UnitId)
@[simp] theorem State.clearWork_ctl : (s.clearWork u).ctl = s.ctl := by cases u <;> rfl
@[simp] theorem State.clearWork_control (v : UnitId) : (s.clearWork u).control v = s.control v := by cases u <;> rfl
@[simp] theorem State.clearWork_agenda : (s.clearWork u).agenda = s.agenda := by cases u <;> rfl
@[simp] theorem State.clearWork_draws : (s.clearWork u).draws = s.draws := by cases u <;> rfl
@[simp] theorem State.clearWork_buffer (b : Buffer) : (s.clearWork u).buffer b = s.buffer b := by
  cases u <;> cases b <;> rfl

@[simp] theorem State.accept_ctl : (s.accept u).ctl =
    s.ctl.set u { busy := true, status := (s.control u).status, answered := false } := by cases u <;> rfl
@[simp] theorem State.accept_agenda : (s.accept u).agenda = s.agenda := by cases u <;> rfl
@[simp] theorem State.accept_draws : (s.accept u).draws = s.draws := by cases u <;> rfl
@[simp] theorem State.accept_buffer (b : Buffer) : (s.accept u).buffer b = s.buffer b := by
  cases u <;> cases b <;> rfl
@[simp] theorem State.accept_control_self : (s.accept u).control u =
    { busy := true, status := (s.control u).status, answered := false } := by cases u <;> rfl
theorem State.accept_control_of_ne {v : UnitId} (h : v ≠ u) : (s.accept u).control v = s.control v := by
  unfold State.control; rw [State.accept_ctl, Controls.get_set_of_ne _ _ h]
end clear

/-! ### Raising an error -/

section raise
variable (s : State) (u : UnitId) (k : Status)
@[simp] theorem State.freeResults_ctl : (s.freeResults u).ctl = s.ctl := by cases u <;> rfl
@[simp] theorem State.freeResults_agenda : (s.freeResults u).agenda = s.agenda := by cases u <;> rfl
@[simp] theorem State.freeResults_draws : (s.freeResults u).draws = s.draws := by cases u <;> rfl
@[simp] theorem State.freeResults_buffer (b : Buffer) : (s.freeResults u).buffer b = s.buffer b := by
  cases u <;> cases b <;> rfl

@[simp] theorem State.freeOutput_ctl : (s.freeOutput u).ctl = s.ctl := by cases u <;> rfl
@[simp] theorem State.freeOutput_agenda : (s.freeOutput u).agenda = s.agenda := by cases u <;> rfl
@[simp] theorem State.freeOutput_draws : (s.freeOutput u).draws = s.draws + 1 := by cases u <;> rfl
@[simp] theorem State.freeOutput_control (v : UnitId) : (s.freeOutput u).control v = s.control v := by
  cases u <;> rfl
theorem State.freeOutput_buffer_of_ne {b : Buffer} (h : outputOf u ≠ some b) :
    (s.freeOutput u).buffer b = s.buffer b := by
  cases u <;> cases b <;> first | rfl | exact absurd rfl h
theorem State.freeOutput_buffer_output {b : Buffer} (h : outputOf u = some b) :
    (s.freeOutput u).buffer b = Memory.ofCells b.extent (Config.freeCells s.draws) [] := by
  cases u <;> cases b <;> first | rfl | simp [outputOf] at h

@[simp] theorem State.raise_ctl : (s.raise u k).ctl =
    s.ctl.set u { busy := false, status := k, answered := true } := by cases u <;> rfl
@[simp] theorem State.raise_agenda : (s.raise u k).agenda = s.agenda := by cases u <;> rfl
@[simp] theorem State.raise_draws : (s.raise u k).draws = s.draws + 1 := by cases u <;> rfl
@[simp] theorem State.raise_control_self : (s.raise u k).control u =
    { busy := false, status := k, answered := true } := by cases u <;> rfl
theorem State.raise_control_of_ne {v : UnitId} (h : v ≠ u) : (s.raise u k).control v = s.control v := by
  unfold State.control; rw [State.raise_ctl, Controls.get_set_of_ne _ _ h]
theorem State.raise_buffer_of_ne {b : Buffer} (h : outputOf u ≠ some b) : (s.raise u k).buffer b = s.buffer b := by
  unfold State.raise
  rw [State.respond_buffer, State.freeOutput_buffer_of_ne _ _ h, State.freeResults_buffer]
theorem State.raise_buffer_output {b : Buffer} (h : outputOf u = some b) :
    (s.raise u k).buffer b = Memory.ofCells b.extent (Config.freeCells s.draws) [] := by
  unfold State.raise
  rw [State.respond_buffer, State.freeOutput_buffer_output _ _ h, State.freeResults_draws]
end raise

end Sys2Proof.Machine
end

