-- ==== Sys2Proof/Laws/Ops.lean ====
section
/-! SUPPORT. One lemma per shared operation: everything acceptance, raising, abort, reset, the host's write and a
presented command can do. -/

namespace Sys2Proof.Machine

/-! ### What belongs to a unit -/

theorem State.sameUnit_refl (s : State) (u : UnitId) : s.sameUnit s u := by cases u <;> exact ⟨rfl, rfl⟩

theorem State.sameUnit_trans {s t r : State} {u : UnitId} (h : s.sameUnit t u) (h' : t.sameUnit r u) :
    s.sameUnit r u := by
  cases u <;> exact ⟨h.1.trans h'.1, h.2.trans h'.2⟩

/-- Control state updates of another unit leave a unit alone. -/
theorem State.sameUnit_setControl (s : State) {u v : UnitId} (c : Control) (h : v ≠ u) :
    s.sameUnit (s.setControl u c) v := by
  refine ⟨(State.setControl_control_of_ne _ _ _ h).symm, ?_⟩
  cases v <;> rfl

theorem State.sameUnit_respond (s : State) {u v : UnitId} (k : Status) (h : v ≠ u) :
    s.sameUnit (s.respond u k) v :=
  State.sameUnit_setControl s _ h

theorem State.sameUnit_clearWork (s : State) {u v : UnitId} (h : v ≠ u) : s.sameUnit (s.clearWork u) v := by
  cases u <;> cases v <;> first | exact ⟨rfl, rfl⟩ | exact absurd rfl h

/-- Acceptance by a unit leaves every other unit alone. -/
theorem State.sameUnit_accept (s : State) {u v : UnitId} (h : v ≠ u) : s.sameUnit (s.accept u) v :=
  State.sameUnit_trans (State.sameUnit_clearWork s h) (State.sameUnit_setControl _ _ h)

theorem State.sameUnit_freeResults (s : State) {u v : UnitId} (h : v ≠ u) : s.sameUnit (s.freeResults u) v := by
  cases u <;> cases v <;> first | exact ⟨rfl, rfl⟩ | exact absurd rfl h

theorem State.sameUnit_freeOutput (s : State) {u v : UnitId} (h : v ≠ u) : s.sameUnit (s.freeOutput u) v := by
  cases u <;> cases v <;> first | exact ⟨rfl, rfl⟩ | exact absurd rfl h

/-- Raising an error in a unit leaves every other unit alone. -/
theorem State.sameUnit_raise (s : State) {u v : UnitId} (k : Status) (h : v ≠ u) : s.sameUnit (s.raise u k) v :=
  State.sameUnit_trans (State.sameUnit_freeResults s h)
    (State.sameUnit_trans (State.sameUnit_freeOutput _ h) (State.sameUnit_respond _ k h))

/-- `abort` of a unit leaves every other unit alone. -/
theorem State.sameUnit_abort' (s : State) {u v : UnitId} (h : v ≠ u) : s.sameUnit (s.abort u) v := by
  unfold State.abort
  split
  · exact State.sameUnit_trans (State.sameUnit_freeOutput s h) (State.sameUnit_setControl _ _ h)
  · exact State.sameUnit_refl s v

/-! ### A presented command -/

/-- What a command presented at the port of `u` can do: it waits, it is accepted and begins, or it is answered
`BadArgument` as foreign. -/
theorem presented_cases (own u : UnitId) (body : State → State) (s : State) :
    (s.busy u = true ∧ presented own u body s = .next s) ∨
    (s.busy u = false ∧ u = own ∧ presented own u body s = .next (body (s.accept own))) ∨
    (s.busy u = false ∧ u ≠ own ∧ presented own u body s = .next ((s.accept u).raise u .badArgument)) := by
  unfold presented
  cases hb : s.busy u
  · by_cases hu : u = own
    · exact .inr (.inl ⟨rfl, hu, by simp [hu]⟩)
    · exact .inr (.inr ⟨rfl, hu, by simp [hu]⟩)
  · exact .inl ⟨rfl, by simp⟩

theorem presented_own {own : UnitId} (body : State → State) {s : State} (h : s.busy own = false) :
    presented own own body s = .next (body (s.accept own)) := by
  simp [presented, h]

theorem presented_foreign {own u : UnitId} (body : State → State) {s : State} (h : s.busy u = false) (hu : u ≠ own) :
    presented own u body s = .next ((s.accept u).raise u .badArgument) := by
  simp [presented, h, hu]

theorem presented_busy {own u : UnitId} (body : State → State) {s : State} (h : s.busy u = true) :
    presented own u body s = .next s := by
  simp [presented, h]

/-! ### The host's write, abort and reset -/

/-- What the host's write can do. -/
theorem hostWrite_cases (b : Buffer) (offset : BitVec 33) (x : Byte) (s : State) :
    (b.extent ≤ offset.toNat ∧ hostWrite b offset x s = .fault .noSuchOffset) ∨
    (offset.toNat < b.extent ∧ s.busy b.owner = true ∧ hostWrite b offset x s = .refused .hostWritesOwnedBuffer) ∨
    (offset.toNat < b.extent ∧ s.busy b.owner = false ∧
      hostWrite b offset x s = .next (s.setBuffer b (Memory.write (s.buffer b) offset.toNat x))) := by
  unfold hostWrite
  by_cases ho : b.extent ≤ offset.toNat
  · exact .inl ⟨ho, by simp [ho]⟩
  · cases hb : s.busy b.owner
    · exact .inr (.inr ⟨by omega, rfl, by simp [ho]⟩)
    · exact .inr (.inl ⟨by omega, rfl, by simp [ho]⟩)

/-- `abort` of an idle unit does nothing. -/
theorem State.abort_of_idle {s : State} {u : UnitId} (h : s.busy u = false) : s.abort u = s := by
  simp [State.abort, h]

@[simp] theorem State.abort_agenda (s : State) (u : UnitId) : (s.abort u).agenda = s.agenda := by
  unfold State.abort; split <;> simp

/-- `abort` changes at most the output buffer of its unit. -/
theorem State.abort_buffer_of_ne (s : State) {u : UnitId} {b : Buffer} (h : outputOf u ≠ some b) :
    (s.abort u).buffer b = s.buffer b := by
  unfold State.abort
  split
  · rw [State.setControl_buffer, State.freeOutput_buffer_of_ne _ _ h]
  · rfl

/-- `abort` leaves `busy` of every other unit. -/
theorem State.abort_control_of_ne (s : State) {u v : UnitId} (h : v ≠ u) : (s.abort u).control v = s.control v :=
  (State.sameUnit_abort' s h).1.symm

@[simp] theorem State.abortAll_agenda (us : List UnitId) (s : State) : (s.abortAll us).agenda = s.agenda := by
  induction us generalizing s with
  | nil => rfl
  | cons u us ih => rw [State.abortAll, ih, State.abort_agenda]

/-- `reset` keeps each buffer as the abandoned operations leave it. -/
@[simp] theorem State.applyReset_buffer (s : State) (b : Buffer) :
    s.applyReset.buffer b = (s.abortAll UnitId.all).buffer b := by
  cases b <;> rfl

@[simp] theorem State.applyReset_control (s : State) (u : UnitId) : s.applyReset.control u = {} := by
  cases u <;> rfl

@[simp] theorem State.applyReset_agenda (s : State) : s.applyReset.agenda = s.agenda :=
  State.abortAll_agenda _ _

/-! ### Canonical buffers -/

/-- No space is wider than 2^33 offsets. -/
theorem Buffer.extent_le (b : Buffer) : b.extent ≤ Config.spaceSize := by cases b <;> decide

theorem State.buffersFit_of_buffer_eq {s t : State} (h : s.buffersFit) (he : ∀ b, t.buffer b = s.buffer b) :
    t.buffersFit := fun b => by rw [he b]; exact h b

theorem State.buffersFit_setBuffer {s : State} (h : s.buffersFit) (b : Buffer) {m : Memory}
    (hm : ∀ c ∈ m, c.1 < b.extent) : (s.setBuffer b m).buffersFit := by
  intro b'
  by_cases hb : b' = b
  · subst hb; rw [State.setBuffer_buffer_self]; exact hm
  · rw [State.setBuffer_buffer_of_ne _ _ _ hb]; exact h b'

/-- Free contents keep every buffer inside its space. -/
theorem State.buffersFit_freeOutput {s : State} (h : s.buffersFit) (u : UnitId) : (s.freeOutput u).buffersFit := by
  intro b
  by_cases hb : outputOf u = some b
  · rw [State.freeOutput_buffer_output _ _ hb]; exact Memory.ofCells_lt _ (by simp)
  · rw [State.freeOutput_buffer_of_ne _ _ hb]; exact h b

theorem State.buffersFit_raise {s : State} (h : s.buffersFit) (u : UnitId) (k : Status) : (s.raise u k).buffersFit := by
  intro b
  by_cases hb : outputOf u = some b
  · rw [State.raise_buffer_output _ _ _ hb]; exact Memory.ofCells_lt _ (by simp)
  · rw [State.raise_buffer_of_ne _ _ _ hb]; exact h b

theorem State.buffersFit_abort {s : State} (h : s.buffersFit) (u : UnitId) : (s.abort u).buffersFit := by
  unfold State.abort
  split
  · exact State.buffersFit_of_buffer_eq (State.buffersFit_freeOutput h u) (State.setControl_buffer _ _ _)
  · exact h

theorem State.buffersFit_abortAll (us : List UnitId) {s : State} (h : s.buffersFit) : (s.abortAll us).buffersFit := by
  induction us generalizing s with
  | nil => exact h
  | cons u us ih => exact ih (State.buffersFit_abort h u)

theorem State.buffersWf_of_buffer_eq {s t : State} (h : s.buffersWf) (he : ∀ b, t.buffer b = s.buffer b) :
    t.buffersWf := fun b => by rw [he b]; exact h b

theorem State.buffersWf_setBuffer {s : State} (h : s.buffersWf) (b : Buffer) {m : Memory}
    (hm : Memory.wf m = true) : (s.setBuffer b m).buffersWf := by
  intro b'
  by_cases hb : b' = b
  · subst hb; rw [State.setBuffer_buffer_self]; exact hm
  · rw [State.setBuffer_buffer_of_ne _ _ _ hb]; exact h b'

/-- Free contents keep every buffer canonical. -/
theorem State.buffersWf_freeOutput {s : State} (h : s.buffersWf) (u : UnitId) : (s.freeOutput u).buffersWf := by
  intro b
  by_cases hb : outputOf u = some b
  · rw [State.freeOutput_buffer_output _ _ hb]; exact Memory.wf_ofCells b.extent_le _ rfl
  · rw [State.freeOutput_buffer_of_ne _ _ hb]; exact h b

theorem State.buffersWf_raise {s : State} (h : s.buffersWf) (u : UnitId) (k : Status) : (s.raise u k).buffersWf := by
  intro b
  by_cases hb : outputOf u = some b
  · rw [State.raise_buffer_output _ _ _ hb]; exact Memory.wf_ofCells b.extent_le _ rfl
  · rw [State.raise_buffer_of_ne _ _ _ hb]; exact h b

theorem State.buffersWf_accept {s : State} (h : s.buffersWf) (u : UnitId) : (s.accept u).buffersWf :=
  State.buffersWf_of_buffer_eq h (State.accept_buffer s u)

theorem State.buffersWf_abort {s : State} (h : s.buffersWf) (u : UnitId) : (s.abort u).buffersWf := by
  unfold State.abort
  split
  · exact State.buffersWf_of_buffer_eq (State.buffersWf_freeOutput h u) (State.setControl_buffer _ _ _)
  · exact h

theorem State.buffersWf_abortAll (us : List UnitId) {s : State} (h : s.buffersWf) : (s.abortAll us).buffersWf := by
  induction us generalizing s with
  | nil => exact h
  | cons u us ih => exact ih (State.buffersWf_abort h u)

end Sys2Proof.Machine
end

