-- ==== Sys2Proof/Laws/Bitpack.lean ====
section
/-! SUPPORT. The bit-packing family: what a pass and a step of PACK and UNPACK can do. -/

namespace Sys2Proof.Machine

/-- A pass of PACK's loop advances the value index and emits at most one byte. -/
theorem packPass_cases (bw : Nat) (v : Value) (w : PackRegs) :
    let acc := w.bp_acc ||| (v.setWidth 32 <<< w.bp_nbits.toNat)
    let nbits := w.bp_nbits + BitVec.ofNat 4 bw
    (8 ≤ nbits.toNat ∧ packPass bw v w = (some (acc.setWidth 8),
      { bp_acc := acc >>> 8, bp_nbits := nbits - 8, bp_k := w.bp_k + 1, bp_j := w.bp_j + 1 })) ∨
    (nbits.toNat < 8 ∧ packPass bw v w = (none,
      { bp_acc := acc, bp_nbits := nbits, bp_k := w.bp_k + 1, bp_j := w.bp_j })) := by
  intro acc nbits
  by_cases h : 8 ≤ (w.bp_nbits + BitVec.ofNat 4 bw).toNat
  · exact .inl ⟨h, by simp only [packPass]; rw [if_pos h]⟩
  · exact .inr ⟨Nat.lt_of_not_le h, by simp only [packPass]; rw [if_neg h]⟩

/-- What a step of bit_packer can do: one value taken in, and the answer after the eighth. -/
theorem packStep_cases (s : State) :
    let p := packPass s.bp.bw.toNat (s.bp.vals.at s.bp.work.bp_k.toNat) s.bp.work
    let m := Memory.writeList s.bp.sout s.bp.work.bp_j.toNat p.1.toList
    (8 ≤ p.2.bp_k.toNat ∧ packStep s =
      { s with bp := { s.bp with work := p.2, sout := m, olen := p.2.bp_j.setWidth 33 } }.respond
        .bitPacker .ok) ∨
    (p.2.bp_k.toNat < 8 ∧ packStep s = { s with bp := { s.bp with work := p.2, sout := m } }) := by
  intro p m
  by_cases h : Config.groupSize ≤ p.2.bp_k.toNat
  · exact .inl ⟨h, by simp only [packStep]; rw [if_pos h]⟩
  · exact .inr ⟨Nat.lt_of_not_le h, by simp only [packStep]; rw [if_neg h]⟩

/-- What a step of bit_unpacker can do: one value extracted, and the answer after the eighth. -/
theorem unpackStep_cases (s : State) :
    let p := unpackPass s.bu.bw.toNat 0 s.bu.sin s.bu.work
    let g := s.bu.vals.setIfInBounds s.bu.work.bu_k.toNat p.1
    (8 ≤ p.2.bu_k.toNat ∧ unpackStep s =
      { s with bu := { s.bu with work := p.2, vals := g, consumed := p.2.bu_j } }.respond .bitUnpacker .ok) ∨
    (p.2.bu_k.toNat < 8 ∧ unpackStep s = { s with bu := { s.bu with work := p.2, vals := g } }) := by
  intro p g
  by_cases h : Config.groupSize ≤ p.2.bu_k.toNat
  · exact .inl ⟨h, by simp only [unpackStep]; rw [if_pos h]⟩
  · exact .inr ⟨Nat.lt_of_not_le h, by simp only [unpackStep]; rw [if_neg h]⟩

/-- The bytes a run of PACK's loop emits never outnumber its passes. -/
theorem packLoop_length_le (bw : Nat) (g : Group) (count : Nat) (w : PackRegs) :
    (packLoop bw g count w).1.length ≤ count := by
  induction count generalizing w with
  | zero => simp [packLoop]
  | succ count ih =>
    simp only [packLoop, List.length_append]
    have := ih (packPass bw (g.at w.bp_k.toNat) w).2
    have hone : (packPass bw (g.at w.bp_k.toNat) w).1.toList.length ≤ 1 := by
      cases (packPass bw (g.at w.bp_k.toNat) w).1 <;> simp
    omega

/-- A pass of PACK's loop counts its value, and at most one byte. -/
theorem packPass_count_le (bw : Nat) (v : Value) (w : PackRegs) {n : Nat} (hk : w.bp_k.toNat ≤ n)
    (hj : w.bp_j.toNat ≤ n) :
    (packPass bw v w).2.bp_k.toNat ≤ n + 1 ∧ (packPass bw v w).2.bp_j.toNat ≤ n + 1 := by
  obtain ⟨-, h⟩ | ⟨-, h⟩ := packPass_cases bw v w <;> rw [h]
  · exact ⟨toNat_add_one_le _ hk, toNat_add_one_le _ hj⟩
  · exact ⟨toNat_add_one_le _ hk, by simp only; omega⟩

theorem packLoop_count_le (bw : Nat) (g : Group) (count : Nat) (w : PackRegs) {n : Nat} (hk : w.bp_k.toNat ≤ n)
    (hj : w.bp_j.toNat ≤ n) :
    (packLoop bw g count w).2.bp_k.toNat ≤ n + count ∧ (packLoop bw g count w).2.bp_j.toNat ≤ n + count := by
  induction count generalizing w n with
  | zero => exact ⟨hk, hj⟩
  | succ count ih =>
    have hp := packPass_count_le bw (g.at w.bp_k.toNat) w hk hj
    have := ih _ hp.1 hp.2
    simp only [packLoop]
    omega

/-- The private packer ends with its counters in range (10_state.md R27). -/
theorem packWhole_count_le (bw : Nat) (g : Group) :
    (packWhole bw g).2.bp_k.toNat ≤ 8 ∧ (packWhole bw g).2.bp_j.toNat ≤ 8 := by
  simpa [packWhole, Config.groupSize] using packLoop_count_le bw g Config.groupSize {} (n := 0) (by simp) (by simp)

/-- A pass of UNPACK's loop counts its value, and at most one byte. -/
theorem unpackPass_count_le (bw base : Nat) (sin : Memory) (w : UnpackRegs) {n : Nat} (hk : w.bu_k.toNat ≤ n)
    (hj : w.bu_j.toNat ≤ n) :
    (unpackPass bw base sin w).2.bu_k.toNat ≤ n + 1 ∧ (unpackPass bw base sin w).2.bu_j.toNat ≤ n + 1 := by
  refine ⟨toNat_add_one_le _ hk, ?_⟩
  simp only [unpackPass]
  split
  · exact toNat_add_one_le _ hj
  · omega

theorem unpackLoop_count_le (bw base : Nat) (sin : Memory) (count : Nat) (w : UnpackRegs) (g : Group) {n : Nat}
    (hk : w.bu_k.toNat ≤ n) (hj : w.bu_j.toNat ≤ n) :
    (unpackLoop bw base sin count w g).2.bu_k.toNat ≤ n + count ∧
      (unpackLoop bw base sin count w g).2.bu_j.toNat ≤ n + count := by
  induction count generalizing w g n with
  | zero => exact ⟨hk, hj⟩
  | succ count ih =>
    have hp := unpackPass_count_le bw base sin w hk hj
    have := ih _ (g.setIfInBounds w.bu_k.toNat (unpackPass bw base sin w).1) hp.1 hp.2
    simp only [unpackLoop]
    omega

/-- The private unpacker ends with its counters in range (10_state.md R28). -/
theorem unpackWhole_count_le (bw base : Nat) (sin : Memory) (g : Group) :
    (unpackWhole bw base sin g).2.bu_k.toNat ≤ 8 ∧ (unpackWhole bw base sin g).2.bu_j.toNat ≤ 8 := by
  simpa [unpackWhole, Config.groupSize] using
    unpackLoop_count_le bw base sin Config.groupSize {} g (n := 0) (by simp) (by simp)

end Sys2Proof.Machine
end

