-- ==== Sys2Proof/Laws/Varint.lean ====
section
/-! SUPPORT. The varint family: what a fetch, a byte and a pass of VENC's loop can do. -/

namespace Sys2Proof.Machine

/-- What the tests and the read before a varint byte can give. -/
theorem varintFetch_cases (w : VdecRegs) (avail base : Nat) (sin : Memory) :
    ((w.vd_n.toNat = 10 ∨ avail ≤ w.vd_n.toNat) ∧ varintFetch w avail base sin = .error .malformedHeader) ∨
    (w.vd_n.toNat ≠ 10 ∧ w.vd_n.toNat < avail ∧
      varintFetch w avail base sin = .ok (Memory.read sin (base + w.vd_n.toNat))) := by
  unfold varintFetch
  by_cases h1 : w.vd_n.toNat = Config.maxVarintBytes
  · exact .inl ⟨.inl h1, by simp [h1]⟩
  · by_cases h2 : avail ≤ w.vd_n.toNat
    · exact .inl ⟨.inr h2, by simp [h1, h2]⟩
    · exact .inr ⟨h1, by omega, by simp [h1, h2]⟩

/-- Payload bits 6:1 are all 0 exactly for payloads 0 and 1. -/
theorem payload_high_ne_zero_iff (p : BitVec 7) : p.extractLsb' 1 6 ≠ 0 ↔ 2 ≤ p.toNat := by
  rw [ne_eq, ← BitVec.toNat_inj]
  simp [BitVec.extractLsb'_toNat, Nat.shiftRight_eq_div_pow]
  have := p.isLt
  omega

/-- What taking in a byte can give. -/
theorem varintAbsorb_cases (w : VdecRegs) (p : BitVec 7) :
    (w.vd_n.toNat = 9 ∧ 2 ≤ p.toNat ∧ varintAbsorb w p = none) ∨
    (¬ (w.vd_n.toNat = 9 ∧ 2 ≤ p.toNat) ∧ varintAbsorb w p = some
      { vd_acc := w.vd_acc ||| (p.setWidth 64 <<< (7 * w.vd_n.toNat)), vd_n := w.vd_n + 1 }) := by
  have hp := payload_high_ne_zero_iff p
  by_cases h : w.vd_n.toNat = 9 ∧ 2 ≤ p.toNat
  · exact .inl ⟨h.1, h.2, if_pos ⟨h.1, hp.mpr h.2⟩⟩
  · exact .inr ⟨h, if_neg fun hc => h ⟨hc.1, hp.mp hc.2⟩⟩

/-- What a varint byte with more to follow can do. -/
theorem execVarintCont_cases (d : DecoderId) (p : BitVec 7) (s : State) :
    (varintAbsorb (s.vdecRegs d) p = none ∧ execVarintCont d p s = .next (s.raise d.unit .malformedHeader)) ∨
    (∃ w, varintAbsorb (s.vdecRegs d) p = some w ∧ execVarintCont d p s = .next (s.setVdecRegs d w)) := by
  unfold execVarintCont
  cases h : varintAbsorb (s.vdecRegs d) p with
  | none => exact .inl ⟨rfl, rfl⟩
  | some w => exact .inr ⟨w, rfl, rfl⟩

/-- What a final varint byte can do. -/
theorem execVarintLast_cases (d : DecoderId) (p : BitVec 7) (s : State) :
    (varintAbsorb (s.vdecRegs d) p = none ∧ execVarintLast d p s = .next (s.raise d.unit .malformedHeader)) ∨
    (∃ w, varintAbsorb (s.vdecRegs d) p = some w ∧ execVarintLast d p s = .next (varintDone d w s)) := by
  unfold execVarintLast
  cases h : varintAbsorb (s.vdecRegs d) p with
  | none => exact .inl ⟨rfl, rfl⟩
  | some w => exact .inr ⟨w, rfl, rfl⟩

@[simp] theorem State.setVdecRegs_buffer (s : State) (d : DecoderId) (w : VdecRegs) (b : Buffer) :
    (s.setVdecRegs d w).buffer b = s.buffer b := by cases d <;> cases b <;> rfl

@[simp] theorem State.setVdecRegs_ctl (s : State) (d : DecoderId) (w : VdecRegs) :
    (s.setVdecRegs d w).ctl = s.ctl := by cases d <;> rfl

@[simp] theorem State.setVdecRegs_agenda (s : State) (d : DecoderId) (w : VdecRegs) :
    (s.setVdecRegs d w).agenda = s.agenda := by cases d <;> rfl

@[simp] theorem State.setVdecRegs_draws (s : State) (d : DecoderId) (w : VdecRegs) :
    (s.setVdecRegs d w).draws = s.draws := by cases d <;> rfl

theorem State.sameUnit_setVdecRegs (s : State) (d : DecoderId) (w : VdecRegs) {v : UnitId} (h : v ≠ d.unit) :
    s.sameUnit (s.setVdecRegs d w) v := by
  cases d <;> cases v <;> first | exact ⟨rfl, rfl⟩ | exact absurd rfl h

@[simp] theorem varintDone_buffer (d : DecoderId) (w : VdecRegs) (s : State) (b : Buffer) :
    (varintDone d w s).buffer b = s.buffer b := by cases d <;> cases b <;> rfl

@[simp] theorem varintDone_agenda (d : DecoderId) (w : VdecRegs) (s : State) :
    (varintDone d w s).agenda = s.agenda := by cases d <;> rfl

@[simp] theorem varintDone_draws (d : DecoderId) (w : VdecRegs) (s : State) :
    (varintDone d w s).draws = s.draws := by cases d <;> rfl

theorem sameUnit_varintDone (d : DecoderId) (w : VdecRegs) (s : State) {v : UnitId} (h : v ≠ d.unit) :
    s.sameUnit (varintDone d w s) v := by
  cases d <;> cases v <;> first | exact ⟨rfl, rfl⟩ | exact absurd rfl h

/-- What a step of varint_encoder can do: one byte emitted, and the answer when nothing is left. -/
theorem vencStep_cases (s : State) :
    let w := (vencPass s.ve.work).2
    let m := Memory.write s.ve.sout s.ve.work.ve_len.toNat (vencPass s.ve.work).1
    (w.ve_v = 0 ∧ vencStep s =
      { s with ve := { s.ve with work := w, sout := m, len := w.ve_len } }.respond .varintEncoder .ok) ∨
    (w.ve_v ≠ 0 ∧ vencStep s = { s with ve := { s.ve with work := w, sout := m } }) := by
  intro w m
  by_cases h : (vencPass s.ve.work).2.ve_v = 0
  · exact .inl ⟨h, by simp only [vencStep]; rw [if_pos h]⟩
  · exact .inr ⟨h, by simp only [vencStep]; rw [if_neg h]⟩

/-- The value left after a pass. -/
theorem vencPass_value (w : VencRegs) : (vencPass w).2.ve_v.toNat = w.ve_v.toNat / 128 := by
  simp [vencPass, Nat.shiftRight_eq_div_pow]

/-- The two fields of a varint byte, as a number. -/
theorem varintByteOf_toNat (cont : Bool) (p : BitVec 7) :
    (varintByteOf cont p).toNat = p.toNat + (if cont then 128 else 0) := by
  have hp := p.isLt
  unfold varintByteOf
  rw [BitVec.toNat_append, ← Nat.shiftLeft_add_eq_or_of_lt hp]
  cases cont <;> simp [Nat.shiftLeft_eq]
  omega

/-- The byte a pass emits. -/
theorem vencPass_byte (w : VencRegs) : (vencPass w).1.toNat =
    w.ve_v.toNat % 128 + (if (vencPass w).2.ve_v = 0 then 0 else 128) := by
  have hb : (vencPass w).1.toNat = w.ve_v.toNat % 128 + (if decide ((vencPass w).2.ve_v ≠ 0) then 128 else 0) := by
    rw [show (vencPass w).1 = varintByteOf (decide ((vencPass w).2.ve_v ≠ 0)) (w.ve_v.extractLsb' 0 7) from rfl,
      varintByteOf_toNat]
    simp [BitVec.extractLsb'_toNat]
  rw [hb]
  by_cases h : (vencPass w).2.ve_v = 0
  · rw [if_pos h, if_neg (by simp [h])]
  · rw [if_neg h, if_pos (decide_eq_true h)]

/-- VENC's loop counts at most one byte a pass. -/
theorem vencLoop_len_le (fuel : Nat) (w : VencRegs) {n : Nat} (h : w.ve_len.toNat ≤ n) :
    (vencLoop fuel w).2.ve_len.toNat ≤ n + fuel := by
  induction fuel generalizing w n with
  | zero => exact h
  | succ fuel ih =>
    have hp : (vencPass w).2.ve_len.toNat ≤ n + 1 := toNat_add_one_le _ h
    simp only [vencLoop]
    split
    · exact hp.trans (by omega)
    · exact (ih _ hp).trans (by omega)

/-- The private varint_encoder ends with its length in range (10_state.md R25). -/
theorem vencWhole_len_le (v : BitVec 64) : (vencWhole v).2.ve_len.toNat ≤ 10 := by
  simpa [vencWhole, Config.maxVarintBytes] using
    vencLoop_len_le Config.maxVarintBytes { ve_v := v, ve_len := 0 } (n := 0) (by simp)

end Sys2Proof.Machine
end

