-- ==== Sys2Proof/Laws/Reader.lean ====
section
/-! SUPPORT. The reader family: the append to the output sequence, and what the run instructions and the top of the
loop can do. -/

namespace Sys2Proof.Machine

/-- `appendAll` changes `VOUT` and `rr_count` only. -/
theorem appendAll_frame (vs : List Value) (u : RunReader) :
    appendAll u vs = { u with vout := (appendAll u vs).vout, rr_count := (appendAll u vs).rr_count } := by
  induction vs generalizing u with
  | nil => rfl
  | cons v vs ih => rw [appendAll, ih]

/-- Where the count does not wrap, `appendAll` writes the values at `rr_count` and up and advances it by their
number. -/
theorem appendAll_spec (vs : List Value) (u : RunReader) (h : u.rr_count.toNat + vs.length < 2 ^ 32) :
    (appendAll u vs).rr_count.toNat = u.rr_count.toNat + vs.length ∧
    (appendAll u vs).vout = Memory.writeList u.vout u.rr_count.toNat vs := by
  induction vs generalizing u with
  | nil => exact ⟨rfl, rfl⟩
  | cons v vs ih =>
    simp only [List.length_cons] at h
    have h1 := toNat_add_one u.rr_count (by omega)
    obtain ⟨hl, hm⟩ := ih { u with vout := Memory.write u.vout u.rr_count.toNat v, rr_count := u.rr_count + 1 }
      (by simp only [h1]; omega)
    simp only [appendAll, Memory.writeList, List.length_cons]
    refine ⟨?_, ?_⟩
    · rw [hl]; simp only [h1]; omega
    · rw [hm]; simp only [h1]

/-- `appendAll` keeps the output buffer canonical. -/
theorem appendAll_wf (vs : List Value) {u : RunReader} (h : Memory.wf u.vout = true) :
    Memory.wf (appendAll u vs).vout = true := by
  induction vs generalizing u with
  | nil => exact h
  | cons v vs ih =>
    exact ih (Memory.wf_write h (by have := u.rr_count.isLt; simp only [Config.spaceSize]; omega) v)

/-- What RLE can do. -/
theorem execRle_cases (c : BitVec 63) (s : State) :
    (s.rr.rr_pos = s.rr.slen ∧ execRle c s = .next (s.raise .runReader .truncatedBuffer)) ∨
    (s.rr.rr_pos ≠ s.rr.slen ∧ execRle c s = .next
      { s with
        rr := appendAll
          { s.rr with
            rr_val := Memory.read s.rr.sin s.rr.rr_pos.toNat, rr_pos := s.rr.rr_pos + 1, phase := .top }
          (List.replicate (min c.toNat s.rr.room) (Memory.read s.rr.sin s.rr.rr_pos.toNat)) }) := by
  unfold execRle
  by_cases h : s.rr.rr_pos = s.rr.slen
  · exact .inl ⟨h, if_pos h⟩
  · exact .inr ⟨h, if_neg h⟩

/-- What BP can do. -/
theorem execBp_cases (g : BitVec 63) (s : State) :
    let p := unpackWhole s.rr.bw.toNat s.rr.rr_pos.toNat s.rr.sin s.rr.rr_grp
    (s.rr.slen.toNat - s.rr.rr_pos.toNat < s.rr.bw.toNat ∧
      execBp g s = .next (s.raise .runReader .truncatedBuffer)) ∨
    (s.rr.bw.toNat ≤ s.rr.slen.toNat - s.rr.rr_pos.toNat ∧ execBp g s = .next
      { s with
        rr := appendAll
          { s.rr with
            rr_grp := p.1, bu := p.2, rr_pos := s.rr.rr_pos + s.rr.bw.setWidth 33, phase := .top }
          (p.1.toList.take (min 8 s.rr.room)) }) := by
  intro p
  by_cases h : s.rr.slen.toNat - s.rr.rr_pos.toNat < s.rr.bw.toNat
  · exact .inl ⟨h, by unfold execBp; rw [if_pos h]⟩
  · exact .inr ⟨Nat.le_of_not_lt h, by unfold execBp; rw [if_neg h]⟩

/-- What the top of DECODE's loop can do. -/
theorem readerTop_cases (s : State) :
    (s.rr.total.toNat ≤ s.rr.rr_count.toNat ∧ readerTop s = s.respond .runReader .ok) ∨
    (s.rr.rr_count.toNat < s.rr.total.toNat ∧ s.rr.rr_pos = s.rr.slen ∧
      readerTop s = s.raise .runReader .overrunError) ∨
    (s.rr.rr_count.toNat < s.rr.total.toNat ∧ s.rr.rr_pos ≠ s.rr.slen ∧
      readerTop s = { s with rr := { s.rr with vd := {}, phase := .header } }) := by
  unfold readerTop
  by_cases h : s.rr.rr_count.toNat < s.rr.total.toNat
  · by_cases hp : s.rr.rr_pos = s.rr.slen
    · exact .inr (.inl ⟨h, hp, by simp [h, hp]⟩)
    · exact .inr (.inr ⟨h, hp, by simp [h, hp]⟩)
  · exact .inl ⟨Nat.le_of_not_lt h, if_neg h⟩

end Sys2Proof.Machine
end

