-- ==== Sys2Proof/Laws/Segmenter.lean ====
section
/-! SUPPORT. The segmenter family: the append to the output stream, the classifier's loop, and what a step of
rle_run_classifier and run_segmenter can do. -/

namespace Sys2Proof.Machine

/-- `emitAll` changes `SOUT` and `rs_olen` only. -/
theorem emitAll_frame (bs : List Byte) (u : RunSegmenter) :
    emitAll u bs = { u with sout := (emitAll u bs).sout, rs_olen := (emitAll u bs).rs_olen } := by
  induction bs generalizing u with
  | nil => rfl
  | cons b bs ih => rw [emitAll, ih]

/-- Where the cursor does not wrap, `emitAll` writes the bytes at `rs_olen` and up and advances it by their number. -/
theorem emitAll_spec (bs : List Byte) (u : RunSegmenter) (h : u.rs_olen.toNat + bs.length < 2 ^ 33) :
    (emitAll u bs).rs_olen.toNat = u.rs_olen.toNat + bs.length ∧
    (emitAll u bs).sout = Memory.writeList u.sout u.rs_olen.toNat bs := by
  induction bs generalizing u with
  | nil => exact ⟨rfl, rfl⟩
  | cons b bs ih =>
    simp only [List.length_cons] at h
    have h1 := toNat_add_one u.rs_olen (by omega)
    obtain ⟨hl, hm⟩ := ih { u with sout := Memory.write u.sout u.rs_olen.toNat b, rs_olen := u.rs_olen + 1 }
      (by simp only [h1]; omega)
    simp only [emitAll, Memory.writeList, List.length_cons]
    refine ⟨?_, ?_⟩
    · rw [hl]; simp only [h1]; omega
    · rw [hm]; simp only [h1]

/-- `emitAll` keeps the output buffer canonical. -/
theorem emitAll_wf (bs : List Byte) {u : RunSegmenter} (h : Memory.wf u.sout = true) :
    Memory.wf (emitAll u bs).sout = true := by
  induction bs generalizing u with
  | nil => exact h
  | cons b bs ih => exact ih (Memory.wf_write h u.rs_olen.isLt b)

/-- What a step of rle_run_classifier can do: one more equal value counted, or the answer. -/
theorem classifyStep_cases (s : State) :
    (classifyMore s.rc.vin s.rc.n.toNat s.rc.i.toNat s.rc.work = true ∧ classifyStep s =
      { s with rc := { s.rc with work := { s.rc.work with rc_len := s.rc.work.rc_len + 1 } } }) ∨
    (classifyMore s.rc.vin s.rc.n.toNat s.rc.i.toNat s.rc.work = false ∧ classifyStep s =
      { s with rc := { s.rc with
          work := { s.rc.work with rc_kind := kindOf s.rc.work.rc_len }
          L := s.rc.work.rc_len, kind := kindOf s.rc.work.rc_len } }.respond .rleRunClassifier .ok) := by
  unfold classifyStep
  cases h : classifyMore s.rc.vin s.rc.n.toNat s.rc.i.toNat s.rc.work
  · exact .inr ⟨rfl, by simp⟩
  · exact .inl ⟨rfl, by simp⟩

/-- The condition of CLASSIFY's loop, read out. -/
theorem classifyMore_iff (vin : Memory) (n i : Nat) (w : ClassifyRegs) :
    classifyMore vin n i w = true ↔
      w.rc_len.toNat < 0x3FFF ∧ i + w.rc_len.toNat < n ∧
        Memory.read vin (i + w.rc_len.toNat) = w.rc_first := by
  simp [classifyMore, and_assoc]

/-- The classifier's loop keeps the first value and stays within the input. -/
theorem classifyLoop_bounds (vin : Memory) (n i fuel : Nat) (w : ClassifyRegs) (h1 : 1 ≤ w.rc_len.toNat)
    (hn : i + w.rc_len.toNat ≤ n) :
    (classifyLoop vin n i fuel w).rc_first = w.rc_first ∧
    w.rc_len.toNat ≤ (classifyLoop vin n i fuel w).rc_len.toNat ∧
    i + (classifyLoop vin n i fuel w).rc_len.toNat ≤ n ∧
    (classifyLoop vin n i fuel w).rc_kind = kindOf (classifyLoop vin n i fuel w).rc_len := by
  induction fuel generalizing w with
  | zero => exact ⟨rfl, Nat.le_refl _, hn, rfl⟩
  | succ fuel ih =>
    simp only [classifyLoop]
    split
    · next hm =>
      obtain ⟨ha, hb, -⟩ := (classifyMore_iff vin n i w).mp hm
      have hl := toNat_add_one w.rc_len (by omega)
      obtain ⟨r1, r2, r3, r4⟩ := ih { w with rc_len := w.rc_len + 1 } (by simp only [hl]; omega)
        (by simp only [hl]; omega)
      simp only [hl] at r2
      exact ⟨r1, by omega, r3, r4⟩
    · exact ⟨rfl, Nat.le_refl _, hn, rfl⟩

/-- What a step of run_segmenter can do: one run, or the answer. -/
theorem encodeStep_cases (s : State) :
    (s.rs.rs_i.toNat < s.rs.n.toNat ∧ encodeStep s = { s with rs := encodePass s.rs }) ∨
    (s.rs.n.toNat ≤ s.rs.rs_i.toNat ∧ encodeStep s =
      { s with rs := { s.rs with olen := s.rs.rs_olen } }.respond .runSegmenter .ok) := by
  unfold encodeStep
  by_cases h : s.rs.rs_i.toNat < s.rs.n.toNat
  · exact .inl ⟨h, if_pos h⟩
  · exact .inr ⟨Nat.le_of_not_lt h, if_neg h⟩

/-- A pass of ENCODE's loop is the RLE step or the bit-packed step after the classification. -/
theorem encodePass_cases (u : RunSegmenter) :
    let u' := { u with rc := classifyWhole u.vin u.n.toNat u.rs_i.toNat }
    (u'.rc.rc_kind = 0 ∧ encodePass u = rleEmit u') ∨ (u'.rc.rc_kind ≠ 0 ∧ encodePass u = bpEmit u') := by
  intro u'
  by_cases h : u'.rc.rc_kind = 0
  · exact .inl ⟨h, if_pos h⟩
  · exact .inr ⟨h, if_neg h⟩

/-- The RLE step leaves the operands, the input and the result register alone. -/
theorem rleEmit_frame (u : RunSegmenter) :
    (rleEmit u).bw = u.bw ∧ (rleEmit u).n = u.n ∧ (rleEmit u).vin = u.vin ∧ (rleEmit u).olen = u.olen := by
  simp only [rleEmit]
  rw [emitAll_frame]
  exact ⟨rfl, rfl, rfl, rfl⟩

/-- The bit-packed step leaves the operands, the input and the result register alone. -/
theorem bpEmit_frame (u : RunSegmenter) :
    (bpEmit u).bw = u.bw ∧ (bpEmit u).n = u.n ∧ (bpEmit u).vin = u.vin ∧ (bpEmit u).olen = u.olen := by
  simp only [bpEmit]
  rw [emitAll_frame]
  exact ⟨rfl, rfl, rfl, rfl⟩

/-- A pass of ENCODE's loop leaves the operands, the input and the result register alone. -/
theorem encodePass_frame (u : RunSegmenter) :
    (encodePass u).bw = u.bw ∧ (encodePass u).n = u.n ∧ (encodePass u).vin = u.vin ∧
      (encodePass u).olen = u.olen := by
  obtain ⟨-, h⟩ | ⟨-, h⟩ := encodePass_cases u
  · rw [h]; exact rleEmit_frame _
  · rw [h]; exact bpEmit_frame _

/-- A pass of ENCODE's loop keeps the output buffer canonical. -/
theorem encodePass_wf {u : RunSegmenter} (h : Memory.wf u.sout = true) : Memory.wf (encodePass u).sout = true := by
  obtain ⟨-, he⟩ | ⟨-, he⟩ := encodePass_cases u
  · rw [he]; exact emitAll_wf _ h
  · rw [he]; exact emitAll_wf _ h

end Sys2Proof.Machine
end

