-- ==== Sys2Proof/Laws/Step.lean ====
section
/-! SUPPORT. One step of the block: what moves, and what each move does. -/

namespace Sys2Proof.Machine

/-- With a busy unit in the list, `firstBusy` names one. -/
theorem firstBusy_of_busy (us : List UnitId) {s : State} (h : ∃ u, u ∈ us ∧ s.busy u = true) :
    ∃ u, s.busy u = true ∧ s.firstBusy us = .unit u := by
  induction us with
  | nil => obtain ⟨u, hu, -⟩ := h; cases hu
  | cons v vs ih =>
    cases hv : s.busy v with
    | true => exact ⟨v, hv, by simp [State.firstBusy, hv]⟩
    | false =>
      obtain ⟨u, hu, hb⟩ := h
      cases hu with
      | head => rw [hv] at hb; cases hb
      | tail _ hu =>
        obtain ⟨w, hw, he⟩ := ih ⟨u, hu, hb⟩
        exact ⟨w, hw, by simp [State.firstBusy, hv, he]⟩

/-- With no busy unit, `firstBusy` names none. -/
theorem firstBusy_of_idle (us : List UnitId) {s : State} (h : ∀ u, s.busy u = false) : s.firstBusy us = .idle := by
  induction us with
  | nil => rfl
  | cons v vs ih => simp [State.firstBusy, h v, ih]

/-- What a step can be: with nothing from outside, a unit at work or nothing at all; else the head of the agenda. -/
theorem step_cases (s : State) :
    (s.agenda = [] ∧ (∃ u, s.busy u = true ∧ step s = advance u s)) ∨
    (s.agenda = [] ∧ (∀ u, s.busy u = false) ∧ step s = .next s) ∨
    (∃ u op x rest, s.agenda = .command u op x :: rest ∧ s.busy u = true ∧ step s = advance u s) ∨
    (∃ u op x rest, s.agenda = .command u op x :: rest ∧ s.busy u = false ∧
      step s = exec (decodeCommand u op x) { s with agenda := rest }) ∨
    (∃ u rest, s.agenda = .abort u :: rest ∧ step s = .next (State.abort { s with agenda := rest } u)) ∨
    (∃ rest, s.agenda = .reset :: rest ∧ step s = .next (State.applyReset { s with agenda := rest })) ∨
    (∃ b offset x rest, s.agenda = .hostWrite b offset x :: rest ∧
      step s = hostWrite b offset x { s with agenda := rest }) ∨
    (∃ u rest, s.agenda = .tick u :: rest ∧ step s = advance u { s with agenda := rest }) := by
  cases ha : s.agenda with
  | nil =>
    have hm : step s = s.perform (s.firstBusy UnitId.all) := by simp [step, State.move, ha]
    by_cases hi : ∃ u, s.busy u = true
    · obtain ⟨u, hu, he⟩ := firstBusy_of_busy UnitId.all (s := s) (by
        obtain ⟨u, hu⟩ := hi; exact ⟨u, by cases u <;> simp [UnitId.all], hu⟩)
      exact .inl ⟨rfl, u, hu, by rw [hm, he]; rfl⟩
    · have hall : ∀ u, s.busy u = false := fun u => by
        cases hu : s.busy u with
        | false => rfl
        | true => exact absurd ⟨u, hu⟩ hi
      exact .inr (.inl ⟨rfl, hall, by rw [hm, firstBusy_of_idle UnitId.all hall]; rfl⟩)
  | cons e rest =>
    cases e with
    | command u op x =>
      cases hb : s.busy u
      · exact .inr (.inr (.inr (.inl ⟨u, op, x, rest, rfl, hb, by simp [step, State.move, ha, hb, State.perform]⟩)))
      · exact .inr (.inr (.inl ⟨u, op, x, rest, rfl, hb, by simp [step, State.move, ha, hb, State.perform]⟩))
    | abort u =>
      exact .inr (.inr (.inr (.inr (.inl ⟨u, rest, rfl, by simp [step, State.move, ha, State.perform]⟩))))
    | reset =>
      exact .inr (.inr (.inr (.inr (.inr (.inl ⟨rest, rfl, by simp [step, State.move, ha, State.perform]⟩)))))
    | hostWrite b offset x =>
      exact .inr (.inr (.inr (.inr (.inr (.inr (.inl
        ⟨b, offset, x, rest, rfl, by simp [step, State.move, ha, State.perform]⟩))))))
    | tick u =>
      exact .inr (.inr (.inr (.inr (.inr (.inr (.inr
        ⟨u, rest, rfl, by simp [step, State.move, ha, State.perform]⟩))))))

/-- What a step of a unit can be: nothing while it is idle; else one pass of its operation's loop. -/
theorem advance_busy {u : UnitId} {s : State} (h : s.busy u = true) :
    advance u s =
      match u with
      | .varintEncoder => .next (vencStep s)
      | .varintDecoder => vdecStep s
      | .bitPacker => .next (packStep s)
      | .bitUnpacker => .next (unpackStep s)
      | .rleRunClassifier => .next (classifyStep s)
      | .runSegmenter => .next (encodeStep s)
      | .runReader => readerStep s := by
  unfold advance
  rw [if_pos h]
  cases u <;> rfl

theorem advance_idle {u : UnitId} {s : State} (h : s.busy u = false) : advance u s = .next s := by
  unfold advance
  rw [if_neg (by simp [h])]

theorem advanceN_add (j k : Nat) (u : UnitId) (s t : State) (h : advanceN j u s = .next t) :
    advanceN (j + k) u s = advanceN k u t := by
  induction j generalizing s with
  | zero =>
    simp only [advanceN, Host.Outcome.next.injEq] at h
    rw [Nat.zero_add, h]
  | succ j ih =>
    rw [show j + 1 + k = (j + k) + 1 by omega]
    simp only [advanceN] at h ⊢
    cases ha : advance u s with
    | next r => rw [ha] at h; exact ih r h
    | fault r => rw [ha] at h; cases h
    | refused r => rw [ha] at h; cases h

/-- A unit that is idle stays as it is, however many steps it is given. -/
theorem advanceN_idle (k : Nat) {u : UnitId} {s : State} (h : s.busy u = false) : advanceN k u s = .next s := by
  induction k with
  | zero => rfl
  | succ k ih => simp only [advanceN, advance_idle h, ih]

/-! ### What a unit's step can do -/

/-- What a varint byte can do at a decoder. -/
theorem exec_varintByte_cases (d : DecoderId) (b : Byte) (s : State) :
    (varintAbsorb (s.vdecRegs d) (payloadBits b) = none ∧
      exec (decodeVarintByte d b) s = .next (s.raise d.unit .malformedHeader)) ∨
    (∃ w, varintAbsorb (s.vdecRegs d) (payloadBits b) = some w ∧ contBit b = true ∧
      exec (decodeVarintByte d b) s = .next (s.setVdecRegs d w)) ∨
    (∃ w, varintAbsorb (s.vdecRegs d) (payloadBits b) = some w ∧ contBit b = false ∧
      exec (decodeVarintByte d b) s = .next (varintDone d w s)) := by
  unfold decodeVarintByte
  cases hb : contBit b
  · obtain ⟨ha, h⟩ | ⟨w, ha, h⟩ := execVarintLast_cases d (payloadBits b) s
    · exact .inl ⟨ha, h⟩
    · exact .inr (.inr ⟨w, ha, rfl, h⟩)
  · obtain ⟨ha, h⟩ | ⟨w, ha, h⟩ := execVarintCont_cases d (payloadBits b) s
    · exact .inl ⟨ha, h⟩
    · exact .inr (.inl ⟨w, ha, rfl, h⟩)

/-- What a step of varint_decoder at work can do. -/
theorem vdecStep_cases (s : State) :
    (((s.vd.work.vd_n.toNat = 10 ∨ s.vd.avail.toNat ≤ s.vd.work.vd_n.toNat) ∨
        varintAbsorb s.vd.work (payloadBits (Memory.read s.vd.sin s.vd.work.vd_n.toNat)) = none) ∧
      vdecStep s = .next (s.raise .varintDecoder .malformedHeader)) ∨
    (s.vd.work.vd_n.toNat ≠ 10 ∧ s.vd.work.vd_n.toNat < s.vd.avail.toNat ∧ ∃ w,
      varintAbsorb s.vd.work (payloadBits (Memory.read s.vd.sin s.vd.work.vd_n.toNat)) = some w ∧
      (contBit (Memory.read s.vd.sin s.vd.work.vd_n.toNat) = true ∧
          vdecStep s = .next (s.setVdecRegs .standalone w) ∨
        contBit (Memory.read s.vd.sin s.vd.work.vd_n.toNat) = false ∧
          vdecStep s = .next (varintDone .standalone w s))) := by
  obtain ⟨h, he⟩ | ⟨h1, h2, he⟩ := varintFetch_cases s.vd.work s.vd.avail.toNat 0 s.vd.sin
  · exact .inl ⟨.inl h, by simp only [vdecStep, he]⟩
  · rw [Nat.zero_add] at he
    have hv : vdecStep s = exec (decodeVarintByte .standalone (Memory.read s.vd.sin s.vd.work.vd_n.toNat)) s := by
      simp only [vdecStep, he]
    rw [hv]
    obtain ⟨ha, h⟩ | ⟨w, ha, hc, h⟩ | ⟨w, ha, hc, h⟩ :=
      exec_varintByte_cases .standalone (Memory.read s.vd.sin s.vd.work.vd_n.toNat) s
    · exact .inl ⟨.inr ha, h⟩
    · exact .inr ⟨h1, h2, w, ha, .inl ⟨hc, h⟩⟩
    · exact .inr ⟨h1, h2, w, ha, .inr ⟨hc, h⟩⟩

/-- What a step of run_reader inside the header fetch can do. -/
theorem readerStep_header_cases (s : State) (hp : s.rr.phase = .header) :
    let b := Memory.read s.rr.sin (s.rr.rr_pos.toNat + s.rr.vd.vd_n.toNat)
    (((s.rr.vd.vd_n.toNat = 10 ∨ s.rr.slen.toNat - s.rr.rr_pos.toNat ≤ s.rr.vd.vd_n.toNat) ∨
        varintAbsorb s.rr.vd (payloadBits b) = none) ∧
      readerStep s = .next (s.raise .runReader .malformedHeader)) ∨
    (s.rr.vd.vd_n.toNat ≠ 10 ∧ s.rr.vd.vd_n.toNat < s.rr.slen.toNat - s.rr.rr_pos.toNat ∧ ∃ w,
      varintAbsorb s.rr.vd (payloadBits b) = some w ∧
      (contBit b = true ∧ readerStep s = .next (s.setVdecRegs .reader w) ∨
        contBit b = false ∧ readerStep s = .next (varintDone .reader w s))) := by
  intro b
  obtain ⟨h, he⟩ | ⟨h1, h2, he⟩ :=
    varintFetch_cases s.rr.vd (s.rr.slen.toNat - s.rr.rr_pos.toNat) s.rr.rr_pos.toNat s.rr.sin
  · exact .inl ⟨.inl h, by simp only [readerStep, hp, he]⟩
  · have hv : readerStep s = exec (decodeVarintByte .reader b) s := by simp only [readerStep, hp, he, b]
    rw [hv]
    obtain ⟨ha, h⟩ | ⟨w, ha, hc, h⟩ | ⟨w, ha, hc, h⟩ := exec_varintByte_cases .reader b s
    · exact .inl ⟨.inr ha, h⟩
    · exact .inr ⟨h1, h2, w, ha, .inl ⟨hc, h⟩⟩
    · exact .inr ⟨h1, h2, w, ha, .inr ⟨hc, h⟩⟩

/-- A step of run_reader at the body of a run is the run instruction its header selects. -/
theorem readerStep_body (s : State) (hp : s.rr.phase = .body) : readerStep s = exec (decodeHeader s.rr.rr_h) s := by
  simp only [readerStep, hp]

/-- A step of run_reader at the stop test. -/
theorem readerStep_top (s : State) (hp : s.rr.phase = .top) : readerStep s = .next (readerTop s) := by
  simp only [readerStep, hp]

/-- A run instruction does not touch the control state, unless it raises `TruncatedBuffer`. -/
theorem exec_run_control (h : BitVec 64) (s : State) :
    ∃ t, exec (decodeHeader h) s = .next t ∧ (t = s.raise .runReader .truncatedBuffer ∨ ∃ r, t = { s with rr := r }) := by
  unfold decodeHeader
  split
  · obtain ⟨-, he⟩ | ⟨-, he⟩ := execBp_cases (h.extractLsb' 1 63) s
    · exact ⟨_, he, .inl rfl⟩
    · exact ⟨_, he, .inr ⟨_, rfl⟩⟩
  · obtain ⟨-, he⟩ | ⟨-, he⟩ := execRle_cases (h.extractLsb' 1 63) s
    · exact ⟨_, he, .inl rfl⟩
    · exact ⟨_, he, .inr ⟨_, rfl⟩⟩

/-- What the step of a unit at work can do to its control state: nothing, the answer OK, or an error of its own. -/
theorem advance_control {u : UnitId} {s t : State} (h : advance u s = .next t) :
    (∀ v, v ≠ u → s.sameUnit t v) ∧ t.agenda = s.agenda ∧
    (t.control u = s.control u ∧ t.draws = s.draws ∨
      s.busy u = true ∧ t.control u = answeredWith .ok ∧ t.draws = s.draws ∨
      s.busy u = true ∧ ∃ k, t = s.raise u k ∧
        (k = .malformedHeader ∧ (u = .varintDecoder ∨ u = .runReader ∧ s.rr.phase = .header) ∨
          k = .truncatedBuffer ∧ u = .runReader ∧ s.rr.phase = .body ∨
          k = .overrunError ∧ u = .runReader ∧ s.rr.phase = .top)) := by
  have hraise : ∀ k, t = s.raise u k → (∀ v, v ≠ u → s.sameUnit t v) ∧ t.agenda = s.agenda := by
    rintro k rfl; exact ⟨fun v hv => State.sameUnit_raise s k hv, by simp⟩
  cases hb : s.busy u with
  | false =>
    rw [advance_idle hb] at h; cases h
    exact ⟨fun v _ => State.sameUnit_refl s v, rfl, .inl ⟨rfl, rfl⟩⟩
  | true =>
    rw [advance_busy hb] at h
    cases u with
    | varintEncoder =>
      simp only [Host.Outcome.next.injEq] at h
      obtain ⟨-, he⟩ | ⟨-, he⟩ := vencStep_cases s <;> rw [← h, he]
      · refine ⟨fun v hv => ?_, rfl, .inr (.inl ⟨rfl, rfl, rfl⟩)⟩
        cases v <;> first | exact ⟨rfl, rfl⟩ | exact absurd rfl hv
      · refine ⟨fun v hv => ?_, rfl, .inl ⟨rfl, rfl⟩⟩
        cases v <;> first | exact ⟨rfl, rfl⟩ | exact absurd rfl hv
    | varintDecoder =>
      simp only at h
      obtain ⟨-, he⟩ | ⟨-, -, w, -, ⟨-, he⟩ | ⟨-, he⟩⟩ := vdecStep_cases s <;> rw [he] at h <;> cases h
      · exact ⟨(hraise _ rfl).1, (hraise _ rfl).2, .inr (.inr ⟨rfl, _, rfl, .inl ⟨rfl, .inl rfl⟩⟩)⟩
      · exact ⟨fun v hv => State.sameUnit_setVdecRegs s _ w hv, rfl, .inl ⟨rfl, rfl⟩⟩
      · exact ⟨fun v hv => sameUnit_varintDone _ w s hv, rfl, .inr (.inl ⟨rfl, rfl, rfl⟩)⟩
    | bitPacker =>
      simp only [Host.Outcome.next.injEq] at h
      obtain ⟨-, he⟩ | ⟨-, he⟩ := packStep_cases s <;> rw [← h, he]
      · refine ⟨fun v hv => ?_, rfl, .inr (.inl ⟨rfl, rfl, rfl⟩)⟩
        cases v <;> first | exact ⟨rfl, rfl⟩ | exact absurd rfl hv
      · refine ⟨fun v hv => ?_, rfl, .inl ⟨rfl, rfl⟩⟩
        cases v <;> first | exact ⟨rfl, rfl⟩ | exact absurd rfl hv
    | bitUnpacker =>
      simp only [Host.Outcome.next.injEq] at h
      obtain ⟨-, he⟩ | ⟨-, he⟩ := unpackStep_cases s <;> rw [← h, he]
      · refine ⟨fun v hv => ?_, rfl, .inr (.inl ⟨rfl, rfl, rfl⟩)⟩
        cases v <;> first | exact ⟨rfl, rfl⟩ | exact absurd rfl hv
      · refine ⟨fun v hv => ?_, rfl, .inl ⟨rfl, rfl⟩⟩
        cases v <;> first | exact ⟨rfl, rfl⟩ | exact absurd rfl hv
    | rleRunClassifier =>
      simp only [Host.Outcome.next.injEq] at h
      obtain ⟨-, he⟩ | ⟨-, he⟩ := classifyStep_cases s <;> rw [← h, he]
      · refine ⟨fun v hv => ?_, rfl, .inl ⟨rfl, rfl⟩⟩
        cases v <;> first | exact ⟨rfl, rfl⟩ | exact absurd rfl hv
      · refine ⟨fun v hv => ?_, rfl, .inr (.inl ⟨rfl, rfl, rfl⟩)⟩
        cases v <;> first | exact ⟨rfl, rfl⟩ | exact absurd rfl hv
    | runSegmenter =>
      simp only [Host.Outcome.next.injEq] at h
      obtain ⟨-, he⟩ | ⟨-, he⟩ := encodeStep_cases s <;> rw [← h, he]
      · refine ⟨fun v hv => ?_, rfl, .inl ⟨rfl, rfl⟩⟩
        cases v <;> first | exact ⟨rfl, rfl⟩ | exact absurd rfl hv
      · refine ⟨fun v hv => ?_, rfl, .inr (.inl ⟨rfl, rfl, rfl⟩)⟩
        cases v <;> first | exact ⟨rfl, rfl⟩ | exact absurd rfl hv
    | runReader =>
      simp only at h
      cases hp : s.rr.phase with
      | top =>
        rw [readerStep_top s hp, Host.Outcome.next.injEq] at h
        obtain ⟨-, he⟩ | ⟨-, -, he⟩ | ⟨-, -, he⟩ := readerTop_cases s <;> rw [he] at h <;> subst h
        · refine ⟨fun v hv => State.sameUnit_respond s _ hv, rfl, .inr (.inl ⟨rfl, rfl, rfl⟩)⟩
        · exact ⟨(hraise _ rfl).1, (hraise _ rfl).2, .inr (.inr ⟨rfl, _, rfl, .inr (.inr ⟨rfl, rfl, rfl⟩)⟩)⟩
        · refine ⟨fun v hv => ?_, rfl, .inl ⟨rfl, rfl⟩⟩
          cases v <;> first | exact ⟨rfl, rfl⟩ | exact absurd rfl hv
      | header =>
        obtain ⟨-, he⟩ | ⟨-, -, w, -, ⟨-, he⟩ | ⟨-, he⟩⟩ := readerStep_header_cases s hp <;> rw [he] at h <;> cases h
        · exact ⟨(hraise _ rfl).1, (hraise _ rfl).2, .inr (.inr ⟨rfl, _, rfl, .inl ⟨rfl, .inr ⟨rfl, rfl⟩⟩⟩)⟩
        · exact ⟨fun v hv => State.sameUnit_setVdecRegs s _ w hv, rfl, .inl ⟨rfl, rfl⟩⟩
        · exact ⟨fun v hv => sameUnit_varintDone _ w s hv, rfl, .inl ⟨rfl, rfl⟩⟩
      | body =>
        rw [readerStep_body s hp] at h
        obtain ⟨t', he, ht⟩ := exec_run_control s.rr.rr_h s
        rw [he] at h; cases h
        obtain rfl | ⟨r, rfl⟩ := ht
        · exact ⟨(hraise _ rfl).1, (hraise _ rfl).2, .inr (.inr ⟨rfl, _, rfl, .inr (.inl ⟨rfl, rfl, rfl⟩)⟩)⟩
        · refine ⟨fun v hv => ?_, rfl, .inl ⟨rfl, rfl⟩⟩
          cases v <;> first | exact ⟨rfl, rfl⟩ | exact absurd rfl hv

end Sys2Proof.Machine
end

