-- ==== Sys2Proof/Laws/Commands.lean ====
section
/-! SUPPORT. The commands: what each code presents, and everything a presented command can do. -/

namespace Sys2Proof.Machine

/-- The legal widths, as numbers. -/
theorem legalWidth_iff (bw : BitVec 8) : legalWidth bw = true ↔ 1 ≤ bw.toNat ∧ bw.toNat ≤ 8 := by
  simp [legalWidth]

/-- The range check of ENCODE finds a value exactly where there is one. -/
theorem anyOutOfRange_iff (vin : Memory) (n bw : Nat) :
    anyOutOfRange vin n bw = true ↔ ∃ k, k < n ∧ 2 ^ bw ≤ (Memory.read vin k).toNat := by
  simp [anyOutOfRange]

/-- The error that an accepted command of unit `u` answers at once, if any: the checks before its loop. -/
def promptError (s : State) (u : UnitId) (x : Operands) : Option Status :=
  match u with
  | .varintEncoder => none
  | .varintDecoder => none
  | .bitPacker => if legalWidth x.bw then none else some .badArgument
  | .bitUnpacker =>
    if legalWidth x.bw then if x.avail.toNat < x.bw.toNat then some .truncatedBuffer else none else some .badArgument
  | .rleRunClassifier => if x.n.toNat ≤ x.i.toNat then some .badArgument else none
  | .runSegmenter =>
    if legalWidth x.bw then if anyOutOfRange s.rs.vin x.n.toNat x.bw.toNat then some .valueOutOfRange else none
    else some .badArgument
  | .runReader => if legalWidth x.bw then none else some .badArgument

/-- The eight command codes. -/
theorem op_cases (op : BitVec 3) :
    op = 0 ∨ op = 1 ∨ op = 2 ∨ op = 3 ∨ op = 4 ∨ op = 5 ∨ op = 6 ∨ op = 7 := by revert op; decide

/-! One command, by its code. -/

section command
variable (u : UnitId) (x : Operands) (s : State)
theorem exec_command_0 : exec (decodeCommand u 0 x) s = execReserved u s := rfl
theorem exec_command_1 : exec (decodeCommand u 1 x) s = presented .varintEncoder u (beginVenc x.v) s := rfl
theorem exec_command_2 :
    exec (decodeCommand u 2 x) s = presented .varintDecoder u (fun s => s.latchVdec x.avail) s := rfl
theorem exec_command_3 : exec (decodeCommand u 3 x) s = presented .bitPacker u (beginPack x.bw x.vals) s := rfl
theorem exec_command_4 : exec (decodeCommand u 4 x) s = presented .bitUnpacker u (beginUnpack x.bw x.avail) s := rfl
theorem exec_command_5 : exec (decodeCommand u 5 x) s = presented .rleRunClassifier u (beginClassify x.n x.i) s := rfl
theorem exec_command_6 : exec (decodeCommand u 6 x) s = presented .runSegmenter u (beginEncode x.bw x.n) s := rfl
theorem exec_command_7 :
    exec (decodeCommand u 7 x) s = presented .runReader u (beginDecode x.bw x.total x.slen) s := rfl
end command


/-- A command of its own at an idle unit: accepted, or answered at once with the error of its checks. -/
theorem exec_own_command {u : UnitId} {op : BitVec 3} (x : Operands) {s : State} (hf : ¬ foreignCode u op)
    (hb : s.busy u = false) :
    ∃ r : State, r.ctl = (s.accept u).ctl ∧ r.agenda = s.agenda ∧ r.draws = s.draws ∧
      (∀ b, r.buffer b = s.buffer b) ∧ (∀ v, v ≠ u → s.sameUnit r v) ∧
      (promptError s u x = none ∧ exec (decodeCommand u op x) s = .next r ∨
        ∃ k, promptError s u x = some k ∧ exec (decodeCommand u op x) s = .next (r.raise u k)) := by
  have h0 : op ≠ 0 := fun h => hf (.inl h)
  have hu : ownerOf op = u := Classical.byContradiction fun h => hf (.inr h)
  obtain rfl | rfl | rfl | rfl | rfl | rfl | rfl | rfl := op_cases op
  · exact absurd rfl h0
  · obtain rfl : u = .varintEncoder := hu.symm
    rw [exec_command_1, presented_own _ hb]
    refine ⟨beginVenc x.v (s.accept .varintEncoder), rfl, rfl, rfl, fun b => by cases b <;> rfl, fun v hv =>
      State.sameUnit_trans (State.sameUnit_accept s hv) ⟨rfl, ?_⟩, .inl ⟨rfl, rfl⟩⟩
    cases v <;> first | rfl | exact absurd rfl hv
  · obtain rfl : u = .varintDecoder := hu.symm
    rw [exec_command_2, presented_own _ hb]
    refine ⟨(s.accept .varintDecoder).latchVdec x.avail, rfl, rfl, rfl, fun b => by cases b <;> rfl, fun v hv =>
      State.sameUnit_trans (State.sameUnit_accept s hv) ⟨rfl, ?_⟩, .inl ⟨rfl, rfl⟩⟩
    cases v <;> first | rfl | exact absurd rfl hv
  · obtain rfl : u = .bitPacker := hu.symm
    rw [exec_command_3, presented_own _ hb]
    refine ⟨(s.accept .bitPacker).latchPack x.bw x.vals, rfl, rfl, rfl, fun b => by cases b <;> rfl, fun v hv =>
      State.sameUnit_trans (State.sameUnit_accept s hv) ⟨rfl, ?_⟩, ?_⟩
    · cases v <;> first | rfl | exact absurd rfl hv
    · unfold beginPack promptError
      cases legalWidth x.bw
      · exact .inr ⟨_, rfl, rfl⟩
      · exact .inl ⟨rfl, rfl⟩
  · obtain rfl : u = .bitUnpacker := hu.symm
    rw [exec_command_4, presented_own _ hb]
    refine ⟨(s.accept .bitUnpacker).latchUnpack x.bw x.avail, rfl, rfl, rfl, fun b => by cases b <;> rfl, fun v hv =>
      State.sameUnit_trans (State.sameUnit_accept s hv) ⟨rfl, ?_⟩, ?_⟩
    · cases v <;> first | rfl | exact absurd rfl hv
    · unfold beginUnpack promptError
      cases legalWidth x.bw
      · exact .inr ⟨_, rfl, rfl⟩
      · by_cases h : x.avail.toNat < x.bw.toNat
        · exact .inr ⟨.truncatedBuffer, by simp [h], by simp [h]⟩
        · exact .inl ⟨by simp [h], by simp [h]⟩
  · obtain rfl : u = .rleRunClassifier := hu.symm
    rw [exec_command_5, presented_own _ hb]
    by_cases h : x.n.toNat ≤ x.i.toNat
    · refine ⟨(s.accept .rleRunClassifier).latchClassify x.n x.i, rfl, rfl, rfl, fun b => by cases b <;> rfl,
        fun v hv => State.sameUnit_trans (State.sameUnit_accept s hv) ⟨rfl, ?_⟩,
        .inr ⟨.badArgument, by simp [promptError, h], by simp [beginClassify, h]⟩⟩
      cases v <;> first | rfl | exact absurd rfl hv
    · have hbeg : beginClassify x.n x.i (s.accept .rleRunClassifier) =
          { (s.accept .rleRunClassifier).latchClassify x.n x.i with
            rc := { ((s.accept .rleRunClassifier).latchClassify x.n x.i).rc with
              work := classifyStart s.rc.vin x.i.toNat {} } } := by
        unfold beginClassify; rw [if_neg h]; rfl
      rw [hbeg]
      refine ⟨{ (s.accept .rleRunClassifier).latchClassify x.n x.i with
            rc := { ((s.accept .rleRunClassifier).latchClassify x.n x.i).rc with
              work := classifyStart s.rc.vin x.i.toNat {} } }, rfl, rfl, rfl, fun b => by cases b <;> rfl,
        fun v hv => State.sameUnit_trans (State.sameUnit_accept s hv) ⟨rfl, ?_⟩,
        .inl ⟨by simp [promptError, h], rfl⟩⟩
      cases v <;> first | rfl | exact absurd rfl hv
  · obtain rfl : u = .runSegmenter := hu.symm
    rw [exec_command_6, presented_own _ hb]
    refine ⟨(s.accept .runSegmenter).latchEncode x.bw x.n, rfl, rfl, rfl, fun b => by cases b <;> rfl, fun v hv =>
      State.sameUnit_trans (State.sameUnit_accept s hv) ⟨rfl, ?_⟩, ?_⟩
    · cases v <;> first | rfl | exact absurd rfl hv
    · unfold beginEncode promptError
      cases legalWidth x.bw
      · exact .inr ⟨_, rfl, rfl⟩
      · have hv : ((s.accept .runSegmenter).latchEncode x.bw x.n).rs.vin = s.rs.vin := rfl
        simp only [hv]
        cases h : anyOutOfRange s.rs.vin x.n.toNat x.bw.toNat
        · exact .inl ⟨by simp, by simp⟩
        · exact .inr ⟨_, by simp; rfl, by simp⟩
  · obtain rfl : u = .runReader := hu.symm
    rw [exec_command_7, presented_own _ hb]
    refine ⟨(s.accept .runReader).latchDecode x.bw x.total x.slen, rfl, rfl, rfl, fun b => by cases b <;> rfl,
      fun v hv => State.sameUnit_trans (State.sameUnit_accept s hv) ⟨rfl, ?_⟩, ?_⟩
    · cases v <;> first | rfl | exact absurd rfl hv
    · unfold beginDecode promptError
      cases legalWidth x.bw
      · exact .inr ⟨_, rfl, rfl⟩
      · exact .inl ⟨rfl, rfl⟩

/-- A foreign code at an idle unit is answered `BadArgument`. -/
theorem exec_foreign_command {u : UnitId} {op : BitVec 3} (x : Operands) {s : State} (hf : foreignCode u op)
    (hb : s.busy u = false) : exec (decodeCommand u op x) s = .next ((s.accept u).raise u .badArgument) := by
  obtain rfl | rfl | rfl | rfl | rfl | rfl | rfl | rfl := op_cases op
  · rw [exec_command_0]; unfold execReserved; rw [if_neg (by simp [hb])]
  all_goals have hne := Ne.symm (hf.resolve_left (by decide))
  · rw [exec_command_1]; exact presented_foreign _ hb hne
  · rw [exec_command_2]; exact presented_foreign _ hb hne
  · rw [exec_command_3]; exact presented_foreign _ hb hne
  · rw [exec_command_4]; exact presented_foreign _ hb hne
  · rw [exec_command_5]; exact presented_foreign _ hb hne
  · rw [exec_command_6]; exact presented_foreign _ hb hne
  · rw [exec_command_7]; exact presented_foreign _ hb hne

/-- A command at a busy unit has no effect. -/
theorem exec_busy_command (u : UnitId) (op : BitVec 3) (x : Operands) {s : State} (hb : s.busy u = true) :
    exec (decodeCommand u op x) s = .next s := by
  obtain rfl | rfl | rfl | rfl | rfl | rfl | rfl | rfl := op_cases op
  · rw [exec_command_0]; unfold execReserved; rw [if_pos hb]
  · rw [exec_command_1]; exact presented_busy _ hb
  · rw [exec_command_2]; exact presented_busy _ hb
  · rw [exec_command_3]; exact presented_busy _ hb
  · rw [exec_command_4]; exact presented_busy _ hb
  · rw [exec_command_5]; exact presented_busy _ hb
  · rw [exec_command_6]; exact presented_busy _ hb
  · rw [exec_command_7]; exact presented_busy _ hb

end Sys2Proof.Machine
end

