-- ==== Sys2Proof/Laws/PerInstr.lean ====
section
/-! SUPPORT. Statements made of every instruction as syntax, one lemma per constructor. -/

namespace Sys2Proof.Laws

/-- `TableBits`: the words of an instruction carry the fixed bits of its row of opcode_table.json: bit 0 of a run's
first byte, bit 7 of a varint byte, the 3-bit code of a command. -/
def TableBits.Statement (i : Instr) : Prop :=
  match i, encode i with
  | .rle _, .runHeader (b :: _) => b.getLsbD 0 = false
  | .bp _, .runHeader (b :: _) => b.getLsbD 0 = true
  | .varintCont _ _, .varintByte _ b => b.getLsbD 7 = true
  | .varintLast _ _, .varintByte _ b => b.getLsbD 7 = false
  | .venc _ _, .command _ op _ => op = 1
  | .vdec _ _, .command _ op _ => op = 2
  | .pack _ _ _, .command _ op _ => op = 3
  | .unpack _ _ _, .command _ op _ => op = 4
  | .classify _ _ _, .command _ op _ => op = 5
  | .encode _ _ _, .command _ op _ => op = 6
  | .decode _ _ _ _, .command _ op _ => op = 7
  | .reserved _, .command _ op _ => op = 0
  | _, _ => False

/-- Bit 0 of a varint byte is bit 0 of its payload, and bit 7 its continuation bit. -/
theorem varintByteOf_bits (cont : Bool) (p : BitVec 7) :
    (varintByteOf cont p).getLsbD 0 = p.getLsbD 0 ∧ (varintByteOf cont p).getLsbD 7 = cont := by
  unfold varintByteOf
  rw [BitVec.getLsbD_append, BitVec.getLsbD_append]
  cases cont <;> simp

/-- A varint has a first byte, whose bit 0 is bit 0 of the value. -/
theorem varintBytes_first (v : BitVec 64) :
    ∃ b bs, varintBytes v = b :: bs ∧ b.getLsbD 0 = v.getLsbD 0 := by
  have hpos : 0 < varintLen v := by unfold varintLen; split_ifs <;> omega
  obtain ⟨m, hm⟩ : ∃ m, varintLen v = m + 1 := ⟨varintLen v - 1, by omega⟩
  refine ⟨varintByteOf (decide (0 + 1 < varintLen v)) (v.extractLsb' (7 * 0) 7),
    ((List.range m).map (· + 1)).map fun k =>
      varintByteOf (decide (k + 1 < varintLen v)) (v.extractLsb' (7 * k) 7), ?_, ?_⟩
  · unfold varintBytes
    conv_lhs => rw [show List.range (varintLen v) = List.range (m + 1) by rw [hm], List.range_succ_eq_map]
    rfl
  · rw [(varintByteOf_bits _ _).1]
    simp

theorem TableBits.rle (c : BitVec 63) : TableBits.Statement (.rle c) := by
  obtain ⟨b, bs, h, hb⟩ := varintBytes_first (rleHeader c)
  simp only [TableBits.Statement, encode, h, hb]
  rw [rleHeader, BitVec.getLsbD_append]
  rfl

theorem TableBits.bp (g : BitVec 63) : TableBits.Statement (.bp g) := by
  obtain ⟨b, bs, h, hb⟩ := varintBytes_first (bpHeaderOf g)
  simp only [TableBits.Statement, encode, h, hb]
  rw [bpHeaderOf, BitVec.getLsbD_append]
  rfl

theorem TableBits.varintCont (d : DecoderId) (p : BitVec 7) : TableBits.Statement (.varintCont d p) :=
  (varintByteOf_bits true p).2

theorem TableBits.varintLast (d : DecoderId) (p : BitVec 7) : TableBits.Statement (.varintLast d p) :=
  (varintByteOf_bits false p).2

theorem TableBits.venc (u : UnitId) (v : BitVec 64) : TableBits.Statement (.venc u v) := rfl

theorem TableBits.vdec (u : UnitId) (avail : BitVec 33) : TableBits.Statement (.vdec u avail) := rfl

theorem TableBits.pack (u : UnitId) (bw : BitVec 8) (vals : Group) : TableBits.Statement (.pack u bw vals) := rfl

theorem TableBits.unpack (u : UnitId) (bw : BitVec 8) (avail : BitVec 33) :
    TableBits.Statement (.unpack u bw avail) := rfl

theorem TableBits.classify (u : UnitId) (n i : BitVec 32) : TableBits.Statement (.classify u n i) := rfl

theorem TableBits.encode (u : UnitId) (bw : BitVec 8) (n : BitVec 32) : TableBits.Statement (.encode u bw n) := rfl

theorem TableBits.decode (u : UnitId) (bw : BitVec 8) (total : BitVec 32) (slen : BitVec 33) :
    TableBits.Statement (.decode u bw total slen) := rfl

theorem TableBits.reserved (u : UnitId) : TableBits.Statement (.reserved u) := rfl

end Sys2Proof.Laws
end

