-- ==== Sys2Proof/Tests/Slice0.lean ====
section
/-! SUPPORT. The model's own tests: words written out from 30_encoding.md, single steps against the examples of the
spec, ill-formed terms, and for each statement with hypotheses a state that meets them. -/

namespace Sys2Proof.Tests

open Sys2Proof Sys2Proof.Machine

/-- The next state of an outcome; the reset state for a stop. -/
def after (o : Host.Outcome State Fault Refusal) : State :=
  match o with
  | .next t => t
  | .fault _ => State.reset
  | .refused _ => State.reset

/-- Bytes at offsets from 0. -/
def bytesAt0 (bs : List Byte) : Memory := Memory.writeList [] 0 bs

/-- The reset state with unit `u` at work. -/
def atWork (u : UnitId) : State :=
  State.reset.setControl u { busy := true, status := .ok, answered := false }

/-! ### Words from the encoding tables, bit by bit -/

/-- 30_encoding.md R93, 43_reader.md R228: `28 07`, header 40, run_length 20. -/
theorem test_decode_rle : decodeRun [0b00101000, 0b00000111] = .ok (.rle 20) := by decide

/-- 30_encoding.md R100: the greatest emitted RLE header is `FE FF 01`, for count 0x3FFF. -/
theorem test_decode_rle_three_bytes : decodeRun [0b11111110, 0b11111111, 0b00000001] = .ok (.rle 0x3FFF) := by decide

/-- 30_encoding.md R94: header byte `03`, group count 1. -/
theorem test_decode_bp : decodeRun [0b00000011] = .ok (.bp 1) := by decide

/-- 30_encoding.md R103: bit 7 set and bit 0 set is a multi-byte bit-packed header. -/
theorem test_decode_bp_multi_byte : decodeRun [0b10000001, 0b00000001] = .ok (.bp 64) := by decide

/-- 30_encoding.md R90: `AC` has bit 7 set and payload 0x2C. -/
theorem test_decode_varint_cont :
    decodeVarintByte .reader 0b10101100 = .varintCont .reader 0b0101100 := by decide

/-- 30_encoding.md R90: `02` has bit 7 clear and payload 2. -/
theorem test_decode_varint_last :
    decodeVarintByte .standalone 0b00000010 = .varintLast .standalone 0b0000010 := by decide

/-- 30_encoding.md R106: code 1. -/
theorem test_decode_venc : decodeCommand .varintEncoder 0b001 { v := 300 } = .venc .varintEncoder 300 := by decide

/-- 30_encoding.md R106: code 2. -/
theorem test_decode_vdec : decodeCommand .varintDecoder 0b010 { avail := 3 } = .vdec .varintDecoder 3 := by decide

/-- 30_encoding.md R106: code 3. -/
theorem test_decode_pack :
    decodeCommand .bitPacker 0b011 { bw := 3, vals := #v[0, 1, 2, 3, 4, 5, 6, 7] }
      = .pack .bitPacker 3 #v[0, 1, 2, 3, 4, 5, 6, 7] := by decide

/-- 30_encoding.md R106: code 4. -/
theorem test_decode_unpack :
    decodeCommand .bitUnpacker 0b100 { bw := 3, avail := 5 } = .unpack .bitUnpacker 3 5 := by decide

/-- 30_encoding.md R106: code 5. -/
theorem test_decode_classify :
    decodeCommand .rleRunClassifier 0b101 { n := 9, i := 1 } = .classify .rleRunClassifier 9 1 := by decide

/-- 30_encoding.md R106: code 6. -/
theorem test_decode_encode :
    decodeCommand .runSegmenter 0b110 { bw := 6, n := 28 } = .encode .runSegmenter 6 28 := by decide

/-- 30_encoding.md R106: code 7. -/
theorem test_decode_decode :
    decodeCommand .runReader 0b111 { bw := 6, total := 28, slen := 4 } = .decode .runReader 6 28 4 := by decide

/-- 30_encoding.md R105, R106: code 0 is reserved at every unit. -/
theorem test_decode_reserved : decodeCommand .bitPacker 0b000 { bw := 3 } = .reserved .bitPacker := by decide

/-- 40_varint.md R135: input that ends after a continuation byte, and an eleventh byte. -/
theorem test_decode_rejects :
    decodeRun [] = .error .noByte ∧ decodeRun [0x80] = .error .malformedHeader ∧
    decodeRun [0x80, 0x80, 0x80, 0x80, 0x80, 0x80, 0x80, 0x80, 0x80, 0x02] = .error .malformedHeader := by decide

/-- Bare words of the opcode table (log entry 13): `28` is a run, `AC` a varint byte, `06` a command. -/
theorem test_decode_table_words :
    decodeTableWord 8 0x28 = some (.rle 20) ∧ decodeTableWord 8 0xAC = some (.varintCont .reader 0x2C) ∧
    decodeTableWord 8 0x06 = some (.encode .runSegmenter 0 0) := by decide

/-- A placed word is what the next step fetches. -/
theorem test_fetch_placed_words :
    (State.reset.withFetchWord 8 0x28).fetch = some (.rle 20) ∧
    (State.reset.withFetchWord 8 0x0B).fetch = some (.bp 5) ∧
    (State.reset.withFetchWord 8 0xAC).fetch = some (.varintCont .reader 0x2C) ∧
    (State.reset.withFetchWord 8 0x00).fetch = some (.reserved .varintEncoder) ∧
    (State.reset.withFetchWord 8 0x05).fetch = some (.classify .rleRunClassifier 0 0) := by decide

/-! ### WellFormed: an ill-formed term for each check -/

theorem test_wf_legal :
    (Instr.pack .bitPacker 8 Group.zero).wellFormed = true ∧
    (Instr.classify .rleRunClassifier 1 0).wellFormed = true := by decide

theorem test_wf_refuses_foreign_unit :
    (Instr.venc .runReader 0).wellFormed = false ∧ (Instr.vdec .varintEncoder 0).wellFormed = false ∧
    (Instr.pack .bitUnpacker 1 Group.zero).wellFormed = false ∧
    (Instr.unpack .bitPacker 1 1).wellFormed = false ∧
    (Instr.classify .runSegmenter 1 0).wellFormed = false ∧
    (Instr.encode .rleRunClassifier 1 0).wellFormed = false ∧
    (Instr.decode .varintDecoder 1 0 0).wellFormed = false := by decide

theorem test_wf_refuses_width_zero :
    (Instr.pack .bitPacker 0 Group.zero).wellFormed = false ∧ (Instr.unpack .bitUnpacker 0 1).wellFormed = false ∧
    (Instr.encode .runSegmenter 0 0).wellFormed = false ∧
    (Instr.decode .runReader 0 0 0).wellFormed = false := by decide

theorem test_wf_refuses_width_nine :
    (Instr.pack .bitPacker 9 Group.zero).wellFormed = false ∧ (Instr.unpack .bitUnpacker 9 9).wellFormed = false ∧
    (Instr.encode .runSegmenter 9 0).wellFormed = false ∧
    (Instr.decode .runReader 9 0 0).wellFormed = false := by decide

theorem test_wf_refuses_index_at_length : (Instr.classify .rleRunClassifier 3 3).wellFormed = false := by decide

theorem test_wf_refuses_reserved : (Instr.reserved .runReader).wellFormed = false := by decide

/-! ### Single steps against the spec's examples -/

/-- 95_test_vectors.md 2.1, trace of `VENC 300`: byte `AC`, `ve_v = 2`, `ve_len = 1`. -/
theorem test_venc_first_byte :
    let s := { atWork .varintEncoder with ve := { v := 300, work := { ve_v := 300, ve_len := 0 } } }
    (after (advance .varintEncoder s)).ve =
      { v := 300, work := { ve_v := 2, ve_len := 1 }, sout := [(0, 0xAC)] } := by decide

/-- The same trace, second byte: `02`, `len = 2`, status OK. -/
theorem test_venc_last_byte :
    let s := { atWork .varintEncoder with
      ve := { v := 300, work := { ve_v := 2, ve_len := 1 }, sout := [(0, 0xAC)] } }
    let t := after (advance .varintEncoder s)
    t.ve.sout = [(0, 0xAC), (1, 0x02)] ∧ t.ve.len = 2 ∧ t.control .varintEncoder = answeredWith .ok := by decide

/-- 40_varint.md R135: VDEC with nothing on offer answers MalformedHeader at its first step. -/
theorem test_vdec_empty :
    let t := after (exec (.vdec .varintDecoder 0) State.reset)
    t.busy .varintDecoder = true ∧
    (after (advance .varintDecoder t)).control .varintDecoder = answeredWith .malformedHeader := by decide

/-- 95_test_vectors.md 2.2, trace of VDEC on `AC 02`, first byte: `vd_acc = 0x2C`, `vd_n = 1`. -/
theorem test_varint_cont :
    (after (exec (.varintCont .standalone 0x2C) (atWork .varintDecoder))).vd.work =
      { vd_acc := 0x2C, vd_n := 1 } := by decide

/-- The same trace, second byte: value 300, consumed 2, status OK. -/
theorem test_varint_last :
    let s := { atWork .varintDecoder with vd := { avail := 2, work := { vd_acc := 0x2C, vd_n := 1 } } }
    let t := after (exec (.varintLast .standalone 2) s)
    t.vd.value = 300 ∧ t.vd.consumed = 2 ∧ t.control .varintDecoder = answeredWith .ok := by decide

/-- 95_test_vectors.md 2.2: a tenth byte `02` is MalformedHeader. -/
theorem test_varint_tenth_byte :
    let s := { atWork .varintDecoder with vd := { avail := 10, work := { vd_acc := 0, vd_n := 9 } } }
    (after (exec (.varintLast .standalone 2) s)).control .varintDecoder = answeredWith .malformedHeader := by decide

/-- 41_bitpack.md R161, `PACK 3, 0 .. 7` gives `88 C6 FA`: value 2 completes the first byte. -/
theorem test_pack_value :
    let s := { atWork .bitPacker with bp := {
      bw := 3, vals := #v[0, 1, 2, 3, 4, 5, 6, 7], work := { bp_acc := 8, bp_nbits := 6, bp_k := 2 } } }
    let t := after (advance .bitPacker s)
    t.bp.sout = [(0, 0x88)] ∧ t.bp.work = { bp_acc := 0, bp_nbits := 1, bp_k := 3, bp_j := 1 } := by decide

/-- 41_bitpack.md R164: width 9 is BadArgument. -/
theorem test_pack_bad_width :
    (after (exec (.pack .bitPacker 9 Group.zero) State.reset)).control .bitPacker =
      answeredWith .badArgument := by decide

/-- 41_bitpack.md R167, `UNPACK 3, D1 58 00`: value 2 (the third) is 3 and straddles two bytes. -/
theorem test_unpack_value :
    let s := { atWork .bitUnpacker with bu := {
      bw := 3, avail := 3, work := { bu_acc := 3, bu_nbits := 2, bu_k := 2, bu_j := 1 },
      sin := bytesAt0 [0xD1, 0x58, 0x00] } }
    (after (advance .bitUnpacker s)).bu.vals = #v[0, 0, 3, 0, 0, 0, 0, 0] := by decide

/-- 41_bitpack.md R167: two bytes on offer for width 3 is TruncatedBuffer. -/
theorem test_unpack_truncated :
    (after (exec (.unpack .bitUnpacker 3 2) State.reset)).control .bitUnpacker =
      answeredWith .truncatedBuffer := by decide

/-- 42_segmenter.md R191, `CLASSIFY 1` of `6 4 4 4 4 4 4 4 4`: at length 8 the input ends, kind 0. -/
theorem test_classify_end :
    let s := { atWork .rleRunClassifier with rc := {
      n := 9, i := 1, work := { rc_first := 4, rc_len := 8 }, vin := bytesAt0 [6, 4, 4, 4, 4, 4, 4, 4, 4] } }
    let t := after (advance .rleRunClassifier s)
    t.rc.L = 8 ∧ t.rc.kind = 0 ∧ t.control .rleRunClassifier = answeredWith .ok := by decide

/-- 42_segmenter.md R191: `i >= n` is BadArgument. -/
theorem test_classify_past_end :
    (after (exec (.classify .rleRunClassifier 9 9) State.reset)).control .rleRunClassifier =
      answeredWith .badArgument := by decide

/-- 95_test_vectors.md S2: `ENCODE 3, 1 2 3 4 5` emits `03 D1 58 00` in one bit-packed run. -/
theorem test_encode_run :
    let s := { atWork .runSegmenter with rs := { bw := 3, n := 5, vin := bytesAt0 [1, 2, 3, 4, 5] } }
    let t := after (advance .runSegmenter s)
    t.rs.sout = [(0, 0x03), (1, 0xD1), (2, 0x58)] ∧ t.rs.rs_olen = 4 ∧ t.rs.rs_i = 8 := by decide

/-- 42_segmenter.md R195: the value 8 at width 3 is ValueOutOfRange. -/
theorem test_encode_out_of_range :
    let s := { State.reset with rs := { vin := bytesAt0 [1, 8] } }
    (after (exec (.encode .runSegmenter 3 2) s)).control .runSegmenter = answeredWith .valueOutOfRange := by decide

/-- 43_reader.md R223: values owed and no byte left is OverrunError. -/
theorem test_decode_overrun :
    let s := { atWork .runReader with rr := { bw := 3, total := 1, slen := 0 } }
    (after (advance .runReader s)).control .runReader = answeredWith .overrunError := by decide

/-- 43_reader.md R221: an accepted DECODE stands at the stop test with its cursors 0. -/
theorem test_decode_accepted :
    let s := { State.reset with rr := { rr_pos := 9, rr_count := 7, rr_val := 3, phase := .body } }
    let t := after (exec (.decode .runReader 6 28 4) s)
    t.rr = { bw := 6, total := 28, slen := 4 } ∧ t.busy .runReader = true := by decide

/-- 43_reader.md R228's example `28 07`, with room for 3 of the 20 values. -/
theorem test_rle_capped :
    let s := { atWork .runReader with rr := {
      bw := 6, total := 3, slen := 2, rr_pos := 1, rr_h := 40, phase := .body, sin := bytesAt0 [0x28, 0x07] } }
    let t := after (exec (.rle 20) s)
    t.rr.vout = [(0, 7), (1, 7), (2, 7)] ∧ t.rr.rr_pos = 2 ∧ t.rr.rr_count = 3 := by decide

/-- 60_exceptions.md R256: no byte for the value is TruncatedBuffer. -/
theorem test_rle_truncated :
    let s := { atWork .runReader with rr := { bw := 6, total := 3, slen := 1, rr_pos := 1, rr_h := 40, phase := .body } }
    (after (exec (.rle 20) s)).control .runReader = answeredWith .truncatedBuffer := by decide

/-- 43_reader.md R229's example: `03 D1 58 00`, width 3, total 5. -/
theorem test_bp_group :
    let s := { atWork .runReader with rr := {
      bw := 3, total := 5, slen := 4, rr_pos := 1, rr_h := 3, phase := .body,
      sin := bytesAt0 [0x03, 0xD1, 0x58, 0x00] } }
    let t := after (exec (.bp 1) s)
    t.rr.vout = [(0, 1), (1, 2), (2, 3), (3, 4), (4, 5)] ∧ t.rr.rr_grp = #v[1, 2, 3, 4, 5, 0, 0, 0] ∧
    t.rr.rr_pos = 4 ∧ t.rr.rr_count = 5 := by decide

/-- 95_test_vectors.md S5: `03 D1 58` at width 3 is TruncatedBuffer. -/
theorem test_bp_truncated :
    let s := { atWork .runReader with rr := { bw := 3, total := 5, slen := 3, rr_pos := 1, rr_h := 3, phase := .body } }
    (after (exec (.bp 1) s)).control .runReader = answeredWith .truncatedBuffer := by decide

/-- 30_encoding.md R105: the reserved code is BadArgument. -/
theorem test_reserved :
    (after (exec (.reserved .bitUnpacker) State.reset)).control .bitUnpacker = answeredWith .badArgument := by decide

/-- 30_encoding.md R105: VENC's code at run_reader is BadArgument. -/
theorem test_foreign_code :
    (after (exec (.venc .runReader 300) State.reset)).control .runReader = answeredWith .badArgument := by decide

/-- 42_segmenter.md R199: `ENCODE 3` of `4 * 7`, `4 * 8` and `4 * 9`, by the contract. -/
theorem test_encode_contract :
    encodeStream 3 (List.replicate 7 4) = .ok [0x03, 0x24, 0x49, 0x12] ∧
    encodeStream 3 (List.replicate 8 4) = .ok [0x10, 0x04] ∧
    encodeStream 3 (List.replicate 9 4) = .ok [0x12, 0x04] := by decide

/-- 70_reset_and_hazards.md R300, R301: wrong `bw` and wrong `total`, by the contract. -/
theorem test_decode_contract :
    decodeStream 2 5 [0x03, 0xD1, 0x58, 0x00] = .ok [1, 0, 1, 3, 0] ∧
    decodeStream 4 5 [0x03, 0xD1, 0x58, 0x00] = .error .truncatedBuffer ∧
    decodeStream 3 8 [0x03, 0xD1, 0x58, 0x00] = .ok [1, 2, 3, 4, 5, 0, 0, 0] ∧
    decodeStream 3 9 [0x03, 0xD1, 0x58, 0x00] = .error .overrunError := by decide

/-- 42_segmenter.md R201: the ten fives are never an RLE run; 70_reset_and_hazards.md R302: streams do not
concatenate; 43_reader.md R233: values are not validated. -/
theorem test_greedy_and_hazards :
    encodeStream 3 ([1, 2] ++ List.replicate 10 5) =
      .ok (Run.bytes 3 (.bp #v[1, 2, 5, 5, 5, 5, 5, 5]) ++ Run.bytes 3 (.bp #v[5, 5, 5, 5, 0, 0, 0, 0])) ∧
    encodeStream 3 [6, 7] = .ok [0x03, 0x3E, 0x00, 0x00] ∧
    decodeStream 3 7 [0x03, 0xD1, 0x58, 0x00, 0x03, 0x3E, 0x00, 0x00] = .ok [1, 2, 3, 4, 5, 0, 0] ∧
    decodeStream 3 3 [0x06, 0xFF] = .ok [255, 255, 255] := by decide

/-- 41_bitpack.md R165's example: `PACK 2, 7 0 0 0 0 0 0 0` gives `07 00`, read back as `3 1 0 0 0 0 0 0`. -/
theorem test_pack_contract :
    packBytes 2 #v[7, 0, 0, 0, 0, 0, 0, 0] = [0x07, 0x00] ∧
    unpackGroup 2 [0x07, 0x00] = #v[3, 1, 0, 0, 0, 0, 0, 0] := by decide

/-! ### States that meet the hypotheses of the statements (Certificates/Slice0/Obligations.lean) -/

/-- The reset state with one thing to come from outside. -/
def withEvent (e : Event) : State := { State.reset with agenda := [e] }

/-- run_reader at the body of a run: header just read, one value owed. -/
def readerAtBody (pos slen : BitVec 33) (h : BitVec 64) : State :=
  { atWork .runReader with rr := { bw := 3, total := 1, slen := slen, rr_pos := pos, rr_h := h, phase := .body } }

/-- VENC 300 answered. -/
def vencDone : State :=
  after (advanceN 2 .varintEncoder (after (exec (.venc .varintEncoder 300) State.reset)))

/-- PACK 3 of 0 to 7 answered. -/
def packDone : State :=
  after (advanceN 8 .bitPacker (after (exec (.pack .bitPacker 3 #v[0, 1, 2, 3, 4, 5, 6, 7]) State.reset)))

/-- The values 1 to 5 in ENCODE's input. -/
def fiveValues : State := { State.reset with rs := { vin := bytesAt0 [1, 2, 3, 4, 5] } }

/-- ENCODE 3 of 1 to 5 answered. -/
def encodeDone : State :=
  after (advanceN 2 .runSegmenter (after (exec (.encode .runSegmenter 3 5) fiveValues)))

theorem witness_reset :
    (withEvent .reset).agenda = .reset :: [] ∧ State.reset.agenda = [] ∧ ∀ u, State.reset.busy u = false :=
  ⟨rfl, rfl, fun u => by cases u <;> rfl⟩

/-- Both cases of the statement on buffers: an idle owner, and the input buffer of a busy one. -/
theorem witness_reset_abandons :
    let s := { atWork .runReader with agenda := [.reset] }
    s.agenda = .reset :: [] ∧ s.busy Buffer.packSout.owner = false ∧
    s.busy Buffer.decodeSin.owner = true ∧ outputOf Buffer.decodeSin.owner ≠ some .decodeSin := by decide

theorem witness_abort :
    let s := { atWork .runReader with agenda := [.abort .runReader] }
    s.agenda = .abort .runReader :: [] ∧ s.busy .runReader = true ∧
    (withEvent (.abort .bitPacker)).agenda = .abort .bitPacker :: [] ∧
    (withEvent (.abort .bitPacker)).busy .bitPacker = false ∧ outputOf .runReader ≠ some .decodeSin := by decide

/-- The first offset that is none, and the last that is one, at a busy and at an idle owner. -/
theorem witness_host_write :
    Memory.wf (State.reset.buffer .classifyVin) = true ∧
    (withEvent (.hostWrite .classifyVin 0x100000000 1)).agenda = [.hostWrite .classifyVin 0x100000000 1] ∧
    Buffer.classifyVin.extent ≤ (0x100000000 : BitVec 33).toNat ∧
    (0xFFFFFFFF : BitVec 33).toNat < Buffer.classifyVin.extent ∧
    (0x1FFFFFFFF : BitVec 33).toNat < Buffer.decodeSin.extent ∧
    (atWork .rleRunClassifier).busy Buffer.classifyVin.owner = true ∧
    State.reset.busy Buffer.classifyVin.owner = false := by decide

theorem witness_header_type_bit :
    (0 : BitVec 64).toNat % 2 = 0 ∧ (0xFFFFFFFFFFFFFFFF : BitVec 64).toNat % 2 = 1 ∧
    decodeRun (0x80 :: [0x00]) = .ok (.rle 0) ∧ (0x80 : Byte).toNat % 2 = 0 ∧
    decodeRun (0x81 :: [0x00]) = .ok (.bp 0) ∧ (0x81 : Byte).toNat % 2 = 1 := by decide

theorem witness_step_runs_fetched :
    (State.reset.withFetchWord 8 0x28).fetch = some (.rle 20) ∧
    (withEvent (.command .runReader 7 {})).agenda = .command .runReader 7 {} :: [] ∧
    State.reset.busy .runReader = false := by decide

/-- The ninth byte of ten is the last before the tenth: bytes 9 of 10 at both decoders, and a run's body. -/
theorem witness_step_runs_bytes :
    let s := { atWork .varintDecoder with
      vd := { avail := 10, work := { vd_n := 9 } }, agenda := [.tick .varintDecoder] }
    let r := { atWork .runReader with
      rr := { bw := 1, total := 1, slen := 10, vd := { vd_n := 9 }, phase := .header }, agenda := [.tick .runReader] }
    let b := { readerAtBody 1 2 40 with agenda := [.tick .runReader] }
    s.agenda = .tick .varintDecoder :: [] ∧ s.busy .varintDecoder = true ∧
    s.vd.work.vd_n.toNat < 10 ∧ s.vd.work.vd_n.toNat < s.vd.avail.toNat ∧
    r.agenda = .tick .runReader :: [] ∧ r.busy .runReader = true ∧ r.rr.phase = .header ∧
    r.rr.vd.vd_n.toNat < 10 ∧ r.rr.rr_pos.toNat + r.rr.vd.vd_n.toNat < r.rr.slen.toNat ∧
    b.agenda = .tick .runReader :: [] ∧ b.busy .runReader = true ∧ b.rr.phase = .body := by decide

theorem witness_step_advances :
    (withEvent (.tick .bitPacker)).agenda = .tick .bitPacker :: [] ∧
    (atWork .bitPacker).agenda = [] ∧ (atWork .bitPacker).busy .bitPacker = true := by decide

theorem witness_busy_unit :
    let s := { atWork .runReader with agenda := [.command .runReader 7 {}] }
    s.busy .runReader = true ∧ s.agenda = .command .runReader 7 {} :: [] ∧
    step s = .next (after (step s)) := ⟨rfl, rfl, rfl⟩

/-- Idle units and operands at the ends of their legal ranges. -/
theorem witness_legal_command :
    (∀ u, State.reset.busy u = false) ∧ legalWidth 1 = true ∧ legalWidth 8 = true ∧
    (8 : BitVec 8).toNat ≤ (8 : BitVec 33).toNat ∧ (0 : BitVec 32).toNat < (1 : BitVec 32).toNat ∧
    (∀ k, k < (5 : BitVec 32).toNat → (Memory.read fiveValues.rs.vin k).toNat < 2 ^ (3 : BitVec 8).toNat) :=
  ⟨fun u => by cases u <;> rfl, by decide, by decide, by decide, by decide, by decide⟩

theorem witness_foreign_code :
    foreignCode .bitPacker 0 ∧ foreignCode .runReader 1 ∧ foreignCode .varintEncoder 7 ∧
    State.reset.busy .bitPacker = false ∧ outputOf .bitPacker ≠ some .unpackSin ∧
    outputOf .bitPacker = some .packSout :=
  ⟨.inl rfl, .inr (by decide), .inr (by decide), rfl, by decide, rfl⟩

/-- A unit that comes to its response in one step, at the boundary widths and index of the first clause. -/
theorem witness_bad_argument :
    let s := { atWork .runReader with rr := { bw := 3, total := 1, slen := 0 } }
    s.busy .runReader = true ∧ advance .runReader s = .next (after (advance .runReader s)) ∧
    (after (advance .runReader s)).busy .runReader = false ∧ State.reset.busy .bitPacker = false ∧
    9 ≤ ({ bw := 9 } : Operands).bw.toNat ∧
    ({ n := 3, i := 3 } : Operands).n.toNat ≤ ({ n := 3, i := 3 } : Operands).i.toNat :=
  ⟨rfl, rfl, rfl, rfl, by decide, by decide⟩

/-- The least value out of range at width 3; a status left from an earlier ENCODE. -/
theorem witness_value_out_of_range :
    let s := { State.reset with rs := { vin := bytesAt0 [7, 8] } }
    let e := State.reset.setControl .runSegmenter (answeredWith .valueOutOfRange)
    s.busy .runSegmenter = false ∧ legalWidth 3 = true ∧
    2 ^ (3 : BitVec 8).toNat ≤ (Memory.read s.rs.vin 1).toNat ∧
    exec (.venc .varintEncoder 0) e = .next (after (exec (.venc .varintEncoder 0) e)) ∧
    ((after (exec (.venc .varintEncoder 0) e)).control .runSegmenter).status = .valueOutOfRange ∧
    advance .bitPacker e = .next e :=
  ⟨rfl, rfl, by decide, rfl, rfl, rfl⟩

/-- One byte too few, and just enough, at width 3. -/
theorem witness_truncated_buffer :
    State.reset.busy .bitUnpacker = false ∧ (2 : BitVec 33).toNat < (3 : BitVec 8).toNat ∧
    (readerAtBody 1 1 40).busy .runReader = true ∧ (readerAtBody 1 1 40).rr.rr_pos = (readerAtBody 1 1 40).rr.slen ∧
    (readerAtBody 1 3 3).rr.slen.toNat - (readerAtBody 1 3 3).rr.rr_pos.toNat < (readerAtBody 1 3 3).rr.bw.toNat ∧
    ¬ (readerAtBody 1 4 3).rr.slen.toNat - (readerAtBody 1 4 3).rr.rr_pos.toNat
        < (readerAtBody 1 4 3).rr.bw.toNat := by decide

/-- Both decoders at the three places where a step finds a malformed header, and at the last where it does not. -/
theorem witness_malformed_step :
    let v (n : BitVec 4) (avail : BitVec 33) (b : Byte) := { atWork .varintDecoder with
      vd := { avail := avail, work := { vd_n := n }, sin := [(9, b)] } }
    let r (n : BitVec 4) (slen : BitVec 33) (b : Byte) := { atWork .runReader with
      rr := { bw := 1, total := 1, slen := slen, vd := { vd_n := n }, phase := .header, sin := [(9, b)] } }
    (v 10 11 1).busy .varintDecoder = true ∧ (v 10 11 1).vd.work.vd_n.toNat = 10 ∧
    (v 9 9 1).vd.avail.toNat ≤ (v 9 9 1).vd.work.vd_n.toNat ∧
    2 ≤ (payloadBits (Memory.read (v 9 10 2).vd.sin 9)).toNat ∧
    ¬ 2 ≤ (payloadBits (Memory.read (v 9 10 1).vd.sin 9)).toNat ∧
    (r 10 11 1).busy .runReader = true ∧ (r 10 11 1).rr.phase = .header ∧ (r 10 11 1).rr.vd.vd_n.toNat = 10 ∧
    (r 9 9 1).rr.slen.toNat - (r 9 9 1).rr.rr_pos.toNat ≤ (r 9 9 1).rr.vd.vd_n.toNat ∧
    2 ≤ (payloadBits (Memory.read (r 9 10 2).rr.sin 9)).toNat ∧
    (r 0 1 1).rr.vd.vd_n = 0 ∧ (r 0 1 1).rr.rr_pos.toNat < (r 0 1 1).rr.slen.toNat := by decide

/-- Each of the three causes of R252 over whole inputs, and an input with none. -/
theorem witness_malformed_input :
    let c : List Byte := List.replicate 9 0x80
    varintMalformed (bytesAt0 (c ++ [0x80])) 0 11 ∧ varintMalformed [] 0 0 ∧ varintMalformed (bytesAt0 [0x80]) 0 1 ∧
    varintMalformed (bytesAt0 (c ++ [0x02])) 0 10 ∧ ¬ varintMalformed (bytesAt0 (c ++ [0x01])) 0 10 := by
  refine ⟨.inl ⟨by decide, by decide⟩, .inr (.inl ⟨by decide, by decide⟩), .inr (.inl ⟨by decide, by decide⟩),
    .inr (.inr ⟨by decide, by decide, by decide⟩), ?_⟩
  rintro (⟨-, h⟩ | ⟨h, -⟩ | ⟨-, -, h⟩)
  · exact absurd (h 9 (by decide)) (by decide)
  · exact absurd h (by decide)
  · exact absurd h (by decide)

/-- A status left from an earlier operation, and instructions and steps that leave it. -/
theorem witness_malformed_elsewhere :
    let e := State.reset.setControl .varintDecoder (answeredWith .malformedHeader)
    exec (.venc .varintEncoder 0) e = .next (after (exec (.venc .varintEncoder 0) e)) ∧
    ((after (exec (.venc .varintEncoder 0) e)).control .varintDecoder).status = .malformedHeader ∧
    advance .bitPacker e = .next e ∧ UnitId.bitPacker ≠ .varintDecoder ∧ UnitId.bitPacker ≠ .runReader :=
  ⟨rfl, rfl, rfl, by decide, by decide⟩

/-- run_reader at the stop test with one value owed: no byte left, and one. -/
theorem witness_overrun :
    let s := { atWork .runReader with rr := { bw := 3, total := 1 } }
    let t := { atWork .runReader with rr := { bw := 3, total := 1, slen := 1 } }
    s.busy .runReader = true ∧ s.rr.phase = .top ∧ s.rr.rr_pos = s.rr.slen ∧ t.rr.rr_pos ≠ t.rr.slen ∧
    State.reset.busy .runReader = false ∧ legalWidth 8 = true ∧ 1 ≤ (1 : BitVec 32).toNat := by decide

theorem witness_venc : State.reset.busy .varintEncoder = false ∧ Memory.wf State.reset.ve.sout = true := by decide

/-- A varint of ten bytes with the greatest legal tenth byte; none where only continuation bytes are on offer. -/
theorem witness_vdec :
    State.reset.busy .varintDecoder = false ∧
    varintEndsAt (bytesAt0 [0xFF, 0xFF, 0xFF, 0xFF, 0xFF, 0xFF, 0xFF, 0xFF, 0xFF, 0x01]) 10 10 ∧
    ∀ m, ¬ varintEndsAt (bytesAt0 [0x80]) 1 m := by
  refine ⟨rfl, ⟨by decide, by decide, by decide, ?_, by decide, by decide⟩, ?_⟩
  · intro k hk
    have h : ∀ k < 9, contBit (Memory.read
      (bytesAt0 [0xFF, 0xFF, 0xFF, 0xFF, 0xFF, 0xFF, 0xFF, 0xFF, 0xFF, 0x01]) k) = true := by decide
    exact h k (by omega)
  · rintro m ⟨h1, _, h3, _, h5, _⟩
    obtain rfl : m = 1 := by omega
    exact absurd h5 (by decide)

theorem witness_vdec_undoes_venc :
    let s₂ := { State.reset with vd := { sin := bytesAt0 [0xAC, 0x02, 0xFF] } }
    State.reset.busy .varintEncoder = false ∧ Memory.wf State.reset.ve.sout = true ∧
    exec (.venc .varintEncoder 300) State.reset = .next (after (exec (.venc .varintEncoder 300) State.reset)) ∧
    advanceN 2 .varintEncoder (after (exec (.venc .varintEncoder 300) State.reset)) = .next vencDone ∧
    vencDone.control .varintEncoder = answeredWith .ok ∧ s₂.busy .varintDecoder = false ∧
    vencDone.ve.len.toNat ≤ (3 : BitVec 33).toNat ∧
    (∀ a, a < vencDone.ve.len.toNat → Memory.read s₂.vd.sin a = Memory.read vencDone.ve.sout a) :=
  ⟨rfl, rfl, rfl, rfl, by decide, rfl, by decide, by decide⟩

/-- The least tenth payload that is refused and the greatest that is not. -/
theorem witness_varint_byte :
    let s := { atWork .varintDecoder with vd := { avail := 10, work := { vd_n := 9 } } }
    ((s.vdecRegs .standalone).vd_n.toNat = 9 ∧ 2 ≤ (2 : BitVec 7).toNat) ∧
    ¬ ((s.vdecRegs .standalone).vd_n.toNat = 9 ∧ 2 ≤ (1 : BitVec 7).toNat) ∧
    ¬ ((s.vdecRegs .reader).vd_n.toNat = 9 ∧ 2 ≤ (2 : BitVec 7).toNat) := by decide

theorem witness_pack :
    State.reset.busy .bitPacker = false ∧ Memory.wf State.reset.bp.sout = true ∧ legalWidth 1 = true ∧
    legalWidth 8 = true := by decide

/-- Values that fit width 3 exactly, and one that does not; a payload of three bytes. -/
theorem witness_fitting_values :
    (∀ k, k < 8 → (Group.at #v[0, 1, 2, 3, 4, 5, 6, 7] k).toNat < 2 ^ 3) ∧
    (∃ k, k < 8 ∧ 2 ^ 3 ≤ (Group.at #v[8, 0, 0, 0, 0, 0, 0, 0] k).toNat) ∧
    ([0x88, 0xC6, 0xFA] : List Byte).length = 3 := by decide

theorem witness_unpack :
    State.reset.busy .bitUnpacker = false ∧ legalWidth 8 = true ∧
    (8 : BitVec 8).toNat ≤ (8 : BitVec 33).toNat := by decide

theorem witness_unpack_undoes_pack :
    let vals : Group := #v[0, 1, 2, 3, 4, 5, 6, 7]
    let s₂ := { State.reset with bu := { sin := bytesAt0 [0x88, 0xC6, 0xFA] } }
    State.reset.busy .bitPacker = false ∧ Memory.wf State.reset.bp.sout = true ∧ legalWidth 3 = true ∧
    (∀ j, j < 8 → (vals.at j).toNat < 2 ^ (3 : BitVec 8).toNat) ∧
    exec (.pack .bitPacker 3 vals) State.reset = .next (after (exec (.pack .bitPacker 3 vals) State.reset)) ∧
    advanceN 8 .bitPacker (after (exec (.pack .bitPacker 3 vals) State.reset)) = .next packDone ∧
    packDone.control .bitPacker = answeredWith .ok ∧ s₂.busy .bitUnpacker = false ∧
    packDone.bp.olen.toNat ≤ (3 : BitVec 33).toNat ∧
    (∀ a, a < packDone.bp.olen.toNat → Memory.read s₂.bu.sin a = Memory.read packDone.bp.sout a) :=
  ⟨rfl, rfl, by decide, by decide, rfl, rfl, by decide, rfl, by decide, by decide⟩

theorem witness_classify :
    State.reset.busy .rleRunClassifier = false ∧ (0xFFFFFFFE : BitVec 32).toNat < (0xFFFFFFFF : BitVec 32).toNat := by
  decide

theorem witness_encode :
    fiveValues.busy .runSegmenter = false ∧ Memory.wf fiveValues.rs.sout = true ∧ legalWidth 3 = true ∧
    (∀ k, k < (5 : BitVec 32).toNat → (Memory.read fiveValues.rs.vin k).toNat < 2 ^ (3 : BitVec 8).toNat) := by
  decide

theorem witness_encode_contract :
    legalWidth 3 = true ∧ (7 : Value).toNat < 2 ^ (3 : BitVec 8).toNat ∧
    8 ≤ classifyLen (4 :: List.replicate 7 4) ∧ classifyLen (4 :: List.replicate 6 4) < 8 ∧
    encodeStream 3 [1, 2, 3, 4, 5] = .ok [0x03, 0xD1, 0x58, 0x00] := by decide

/-- run_segmenter at work before its first run. -/
theorem witness_encode_pass :
    let s := { atWork .runSegmenter with rs := { bw := 3, n := 5, vin := bytesAt0 [1, 2, 3, 4, 5] } }
    s.busy .runSegmenter = true ∧ s.segmenterInRange ∧ s.rs.rs_i.toNat < s.rs.n.toNat ∧
    advance .runSegmenter s = .next (after (advance .runSegmenter s)) :=
  ⟨rfl, ⟨by decide, by decide, fun _ => by decide⟩, by decide, rfl⟩

theorem witness_rle :
    (readerAtBody 1 1 40).rr.rr_pos = (readerAtBody 1 1 40).rr.slen ∧
    (readerAtBody 1 2 40).rr.rr_pos ≠ (readerAtBody 1 2 40).rr.slen ∧
    Memory.wf (readerAtBody 1 2 40).rr.vout = true := by decide

theorem witness_bp :
    (readerAtBody 1 3 3).rr.slen.toNat - (readerAtBody 1 3 3).rr.rr_pos.toNat < (readerAtBody 1 3 3).rr.bw.toNat ∧
    legalWidth (readerAtBody 1 4 3).rr.bw = true ∧
    (readerAtBody 1 4 3).rr.bw.toNat ≤ (readerAtBody 1 4 3).rr.slen.toNat - (readerAtBody 1 4 3).rr.rr_pos.toNat ∧
    Memory.wf (readerAtBody 1 4 3).rr.vout = true := by decide

/-- The four places where the input can run out. -/
theorem witness_exhausted_input :
    let top := { atWork .runReader with rr := { bw := 3, total := 1 } }
    let hd := { atWork .runReader with rr := { bw := 3, total := 1, slen := 1, vd := { vd_n := 1 }, phase := .header } }
    (top.busy .runReader = true ∧ top.rr.phase = .top ∧ top.rr.rr_count.toNat < top.rr.total.toNat ∧
      top.rr.slen = top.rr.rr_pos) ∧
    (hd.busy .runReader = true ∧ hd.rr.phase = .header ∧ 1 ≤ hd.rr.vd.vd_n.toNat ∧
      hd.rr.slen.toNat ≤ hd.rr.rr_pos.toNat + hd.rr.vd.vd_n.toNat) ∧
    ((readerAtBody 1 1 40).busy .runReader = true ∧ (readerAtBody 1 1 40).rr.phase = .body ∧
      (readerAtBody 1 1 40).rr.rr_h.toNat % 2 = 0 ∧ (readerAtBody 1 1 40).rr.slen = (readerAtBody 1 1 40).rr.rr_pos) ∧
    ((readerAtBody 1 3 3).rr.rr_h.toNat % 2 = 1 ∧
      (readerAtBody 1 3 3).rr.slen.toNat - (readerAtBody 1 3 3).rr.rr_pos.toNat
        < (readerAtBody 1 3 3).rr.bw.toNat) := by decide

theorem witness_decode :
    State.reset.busy .runReader = false ∧ Memory.wf State.reset.rr.vout = true ∧ legalWidth 1 = true ∧
    legalWidth 0 = false ∧ legalWidth 9 = false := by decide

theorem witness_trailing_bytes : decodeStream 3 5 [0x03, 0xD1, 0x58, 0x00] = .ok [1, 2, 3, 4, 5] := by decide

theorem witness_decode_undoes_encode :
    let s₂ := { State.reset with rr := { sin := bytesAt0 [0x03, 0xD1, 0x58, 0x00] } }
    fiveValues.busy .runSegmenter = false ∧ Memory.wf fiveValues.rs.sout = true ∧
    exec (.encode .runSegmenter 3 5) fiveValues = .next (after (exec (.encode .runSegmenter 3 5) fiveValues)) ∧
    advanceN 2 .runSegmenter (after (exec (.encode .runSegmenter 3 5) fiveValues)) = .next encodeDone ∧
    encodeDone.control .runSegmenter = answeredWith .ok ∧ s₂.busy .runReader = false ∧
    Memory.wf s₂.rr.vout = true ∧
    (∀ a, a < encodeDone.rs.olen.toNat → Memory.read s₂.rr.sin a = Memory.read encodeDone.rs.sout a) ∧
    (5 : BitVec 32).toNat ≤ (5 : BitVec 32).toNat :=
  ⟨rfl, rfl, rfl, rfl, by decide, rfl, rfl, by decide, by decide⟩

/-- A step at which a status changes: the reserved code at an idle unit. -/
theorem witness_status :
    let s := withEvent (.command .runReader 0 {})
    step s = .next (after (step s)) ∧ s.agenda.head? ≠ some .reset ∧
    ((after (step s)).control .runReader).status ≠ (s.control .runReader).status :=
  ⟨rfl, by decide, by decide⟩

theorem witness_other_units :
    (UnitId.bitPacker ≠ .runReader) ∧
    advance .runReader (atWork .runReader) = .next (after (advance .runReader (atWork .runReader))) ∧
    exec (decodeCommand .runReader 7 {}) State.reset = .next (after (exec (decodeCommand .runReader 7 {}) State.reset)) :=
  ⟨by decide, rfl, rfl⟩

/-- Two units at work, interleaved, and the second alone: no free value drawn. -/
theorem witness_interleaving :
    let s := (atWork .runReader).setControl .varintEncoder { busy := true, status := .ok, answered := false }
    (after (advanceAll [.runReader, .varintEncoder] s)).control .varintEncoder = answeredWith .ok ∧
    (after (advanceN ([UnitId.runReader, .varintEncoder].count .varintEncoder) .varintEncoder s)).draws = s.draws :=
  ⟨rfl, rfl⟩

theorem reset_buffersWf : State.reset.buffersWf := by intro b; cases b <;> rfl

theorem reset_buffersFit : State.reset.buffersFit := by intro b c hc; cases b <;> cases hc

theorem reset_registersInRange : State.reset.registersInRange := by
  refine ⟨⟨?_, ?_⟩, ⟨?_, ?_⟩, ⟨?_, ?_, ?_⟩, ⟨?_, ?_, ?_⟩, ?_, ⟨?_, ?_, ?_⟩, ⟨?_, ?_, ?_, ?_⟩, ?_, ?_, ?_, ?_, ?_⟩ <;>
    first
      | decide
      | (intro h; exact absurd h (by decide))

/-- The seven units at work, each in the middle of its operation, at ends of its ranges; run_reader inside a header. -/
def allAtWork : State :=
  let c : Control := { busy := true, status := .ok, answered := false }
  { ctl := {
      varintEncoder := c, varintDecoder := c, bitPacker := c, bitUnpacker := c, rleRunClassifier := c,
      runSegmenter := c, runReader := c }
    ve := { v := 0xFFFFFFFFFFFFFFFF, work := { ve_v := 1, ve_len := 9 } }
    vd := { avail := 10, work := { vd_n := 10 } }
    bp := { bw := 7, work := { bp_acc := 0x7F, bp_nbits := 1, bp_k := 7, bp_j := 6 } }
    bu := { bw := 7, avail := 7, work := { bu_acc := 0x7F, bu_nbits := 7, bu_k := 7, bu_j := 7 } }
    rc := { n := 9, i := 1, work := { rc_first := 4, rc_len := 8 } }
    rs := { bw := 8, n := 1, rs_i := 8, rs_olen := 9, ve := { ve_len := 10 }, bp := { bp_k := 8, bp_j := 8 } }
    rr := {
      bw := 8, total := 1, slen := 10, rr_pos := 9, vd := { vd_n := 1 }, bu := { bu_k := 8, bu_j := 8 },
      phase := .header } }

/-- The same with run_reader before a run. -/
def allAtWorkBody : State := { allAtWork with rr := { allAtWork.rr with rr_pos := 10, phase := .body } }

/-- Two states with different histories and the same input. -/
theorem witness_response :
    vencDone.busy .runReader = false ∧ State.reset.busy .runReader = false ∧
    vencDone.sameInput State.reset .runReader ∧ vencDone.buffersWf ∧ State.reset.buffersWf :=
  ⟨by decide, by decide, fun _ => rfl, by intro b; cases b <;> decide, reset_buffersWf⟩

theorem witness_invariants :
    State.reset.buffersWf ∧ State.reset.buffersFit ∧ State.reset.registersInRange ∧
    step State.reset = .next State.reset :=
  ⟨reset_buffersWf, reset_buffersFit, reset_registersInRange, rfl⟩

/-- The range invariant where no clause on a unit at work is empty, and a step from there. -/
theorem witness_registers_at_work :
    (∀ u, allAtWork.busy u = true) ∧ allAtWork.registersInRange ∧ step allAtWork = .next (after (step allAtWork)) ∧
    (∀ u, allAtWorkBody.busy u = true) ∧ allAtWorkBody.registersInRange ∧
    step allAtWorkBody = .next (after (step allAtWorkBody)) := by
  refine ⟨fun u => by cases u <;> rfl, ?_, rfl, fun u => by cases u <;> rfl, ?_, rfl⟩ <;>
    simp [State.registersInRange, State.vencInRange, State.vdecInRange, State.packInRange, State.unpackInRange,
      State.classifyInRange, State.segmenterInRange, State.readerInRange, State.privateInRange, allAtWork,
      allAtWorkBody, State.busy, State.control, Controls.get, legalWidth,
      Config.bwMin, Config.bwMax]

/-- A buffer whose last element stands at the last offset of its space, before the host writes another. -/
theorem witness_buffers_fit :
    let s := { withEvent (.hostWrite .decodeVout 0 1) with rr := { vout := [(0xFFFFFFFF, 1)] } }
    s.buffersWf ∧ s.buffersFit ∧ step s = .next (after (step s)) ∧
    (after (step s)).buffer .decodeVout = [(0, 1), (0xFFFFFFFF, 1)] := by
  refine ⟨fun b => by cases b <;> rfl, fun b c hc => ?_, rfl, rfl⟩
  cases b
  case decodeVout => rw [List.mem_singleton.mp hc]; decide
  all_goals cases hc

end Sys2Proof.Tests
end

/-! The status of a unit (O46): a unit's status changes only in a step that leaves the unit idle with its response held. -/

namespace Sys2Proof.Machine

/-- From `s` to `t` unit `u` keeps its status, or has answered and is idle (10_state.md R23). -/
def State.statusKeptOrAnswered (s t : State) (u : UnitId) : Prop :=
  (t.control u).status = (s.control u).status ∨ t.busy u = false ∧ (t.control u).answered = true

theorem State.statusKeptOrAnswered_of_control_eq {s t : State} {u : UnitId} (h : t.control u = s.control u) :
    s.statusKeptOrAnswered t u := .inl (by rw [h])

theorem State.statusKeptOrAnswered_of_answered {s t : State} {u : UnitId} {k : Status}
    (h : t.control u = answeredWith k) : s.statusKeptOrAnswered t u :=
  .inr ⟨by rw [State.busy_eq, h]; rfl, by rw [h]; rfl⟩

/-- Raising an error is an answer of its unit, and leaves every other unit's status alone. -/
theorem State.statusKeptOrAnswered_raise (s : State) (u v : UnitId) (k : Status) :
    s.statusKeptOrAnswered (s.raise u k) v := by
  by_cases hv : v = u
  · subst hv; exact State.statusKeptOrAnswered_of_answered (State.raise_control_self s v k)
  · exact State.statusKeptOrAnswered_of_control_eq (State.raise_control_of_ne s u k hv)

theorem State.accept_status (s : State) (u v : UnitId) :
    ((s.accept u).control v).status = (s.control v).status := by
  by_cases hv : v = u
  · subst hv; rw [State.accept_control_self]
  · rw [State.accept_control_of_ne s u hv]

/-- `abort` gives no response and keeps every status (60_exceptions.md R268). -/
theorem State.abort_status (s : State) (u v : UnitId) : ((s.abort u).control v).status = (s.control v).status := by
  by_cases hv : v = u
  · subst hv
    unfold State.abort
    split
    · rw [State.setControl_control_self]
    · rfl
  · rw [State.abort_control_of_ne s hv]

/-- A step of a unit changes a status only by the unit's own answer. -/
theorem advance_status {u : UnitId} {s t : State} (h : advance u s = .next t) (v : UnitId) :
    s.statusKeptOrAnswered t v := by
  obtain ⟨hothers, -, hown⟩ := advance_control h
  by_cases hv : v = u
  · subst hv
    obtain ⟨hc, -⟩ | ⟨-, hc, -⟩ | ⟨-, k, rfl, -⟩ := hown
    · exact State.statusKeptOrAnswered_of_control_eq hc
    · exact State.statusKeptOrAnswered_of_answered hc
    · exact State.statusKeptOrAnswered_raise s v v k
  · exact State.statusKeptOrAnswered_of_control_eq (hothers v hv).1.symm

/-- A command at an idle unit changes a status only where it is answered in the step of its acceptance. -/
theorem exec_command_status {u : UnitId} {op : BitVec 3} {x : Operands} {s t : State} (hb : s.busy u = false)
    (h : exec (decodeCommand u op x) s = .next t) (v : UnitId) : s.statusKeptOrAnswered t v := by
  have haccepted : ∀ r : State, r.ctl = (s.accept u).ctl → (r.control v).status = (s.control v).status :=
    fun r hr => by rw [State.control, hr]; exact State.accept_status s u v
  have hraised : ∀ (r : State) (k : Status), r.ctl = (s.accept u).ctl → s.statusKeptOrAnswered (r.raise u k) v :=
    fun r k hr => (State.statusKeptOrAnswered_raise r u v k).imp_left (haccepted r hr ▸ ·)
  by_cases hf : foreignCode u op
  · rw [exec_foreign_command x hf hb] at h
    cases h
    exact hraised _ _ rfl
  · obtain ⟨r, hctl, -, -, -, -, ⟨-, he⟩ | ⟨k, -, he⟩⟩ := exec_own_command x hf hb <;>
      rw [he] at h <;> cases h
    · exact .inl (haccepted _ hctl)
    · exact hraised _ k hctl

/-- A step that is not a reset changes a status only by the answer of the status's own unit. -/
theorem step_status {s t : State} (h : step s = .next t) (hr : s.agenda.head? ≠ some .reset) (v : UnitId) :
    s.statusKeptOrAnswered t v := by
  obtain ⟨-, u, -, he⟩ | ⟨-, -, he⟩ | ⟨u, op, x, rest, -, -, he⟩ | ⟨u, op, x, rest, -, hb, he⟩ |
    ⟨u, rest, -, he⟩ | ⟨rest, ha, -⟩ | ⟨b, offset, x, rest, -, he⟩ | ⟨u, rest, -, he⟩ := step_cases s
  case inr.inr.inr.inr.inr.inl => exact absurd (by rw [ha]; rfl) hr
  all_goals rw [he] at h
  · exact advance_status h v
  · cases h; exact .inl rfl
  · exact advance_status h v
  · exact exec_command_status (s := { s with agenda := rest }) hb h v
  · cases h; exact .inl (State.abort_status { s with agenda := rest } u v)
  · obtain ⟨-, hw⟩ | ⟨-, -, hw⟩ | ⟨-, -, hw⟩ := hostWrite_cases b offset x { s with agenda := rest } <;>
      rw [hw] at h <;> cases h
    exact State.statusKeptOrAnswered_of_control_eq (State.setBuffer_control _ _ _ _)
  · exact advance_status (s := { s with agenda := rest }) h v

/-- Settles O46: a step that is no reset changes a status only by an answer of the status's own unit. -/
theorem statusIsWrittenAtTheResponse : Obligations.StatusIsWrittenAtTheResponse := by
  unfold Obligations.StatusIsWrittenAtTheResponse
  refine ⟨⟨rfl, rfl, rfl, rfl, rfl, rfl⟩, fun k => by cases k <;> decide, fun u => by cases u <;> rfl, ?_⟩
  intro s t u h hr hchanged
  exact (step_status h hr u).resolve_left hchanged

end Sys2Proof.Machine

/-! The response of an operation (O50): two runs of the same command on the same input stay in step, whatever the unit's output buffer and
result registers held before. -/

namespace Sys2Proof.Machine

/-! ### Buffers -/

theorem Memory.read_cons_self (a : Nat) (b : Byte) (m : Memory) : Memory.read ((a, b) :: m) a = b :=
  if_pos rfl

theorem Memory.read_cons_of_ne {a x : Nat} (b : Byte) (m : Memory) (h : x ≠ a) :
    Memory.read ((a, b) :: m) x = Memory.read m x :=
  if_neg (Ne.symm h)

theorem Memory.wfAbove_cons_iff {lo a : Nat} {b : Byte} {m : Memory} :
    Memory.wfAbove lo ((a, b) :: m) = true ↔
      lo ≤ a ∧ a < Config.spaceSize ∧ b ≠ 0 ∧ Memory.wfAbove (a + 1) m = true := by
  simp [Memory.wfAbove, and_assoc]

/-- Below its first listed offset a canonical buffer reads as 0. -/
theorem Memory.le_of_read_ne_zero {a x : Nat} {b : Byte} {m : Memory} (hm : Memory.wfAbove (a + 1) m = true)
    (h : Memory.read ((a, b) :: m) x ≠ 0) : a ≤ x := by
  by_contra hlt
  rw [Memory.read_cons_of_ne b m (by omega), Memory.read_of_wfAbove hm (by omega)] at h
  exact h rfl

theorem Memory.eq_of_read_eq_above {m m' : Memory} {lo lo' : Nat} (hm : Memory.wfAbove lo m = true)
    (hm' : Memory.wfAbove lo' m' = true) (h : ∀ x, Memory.read m x = Memory.read m' x) : m = m' := by
  induction m generalizing m' lo lo' with
  | nil =>
    cases m' with
    | nil => rfl
    | cons c' m' =>
      obtain ⟨a', b'⟩ := c'
      obtain ⟨-, -, hb', -⟩ := Memory.wfAbove_cons_iff.mp hm'
      exact absurd ((h a').trans (Memory.read_cons_self a' b' m')).symm hb'
  | cons c m ih =>
    obtain ⟨a, b⟩ := c
    obtain ⟨-, -, hb, htail⟩ := Memory.wfAbove_cons_iff.mp hm
    have ha : Memory.read m' a = b := (h a).symm.trans (Memory.read_cons_self a b m)
    cases m' with
    | nil => exact absurd ha.symm hb
    | cons c' m' =>
      obtain ⟨a', b'⟩ := c'
      obtain ⟨-, -, hb', htail'⟩ := Memory.wfAbove_cons_iff.mp hm'
      have ha' : Memory.read ((a, b) :: m) a' = b' := (h a').trans (Memory.read_cons_self a' b' m')
      obtain rfl : a = a' := le_antisymm (Memory.le_of_read_ne_zero htail (ha'.symm ▸ hb'))
        (Memory.le_of_read_ne_zero htail' (ha.symm ▸ hb))
      obtain rfl : b = b' := ha.symm.trans (Memory.read_cons_self a b' m')
      have hrest : ∀ x, Memory.read m x = Memory.read m' x := fun x => by
        by_cases hx : x = a
        · rw [Memory.read_of_wfAbove htail (by omega), Memory.read_of_wfAbove htail' (by omega)]
        · rw [← Memory.read_cons_of_ne b m hx, h x, Memory.read_cons_of_ne b m' hx]
      rw [ih htail htail' hrest]

/-- Canonical buffers that read alike are equal. -/
theorem Memory.eq_of_read_eq {m m' : Memory} (hm : Memory.wf m = true) (hm' : Memory.wf m' = true)
    (h : ∀ x, Memory.read m x = Memory.read m' x) : m = m' :=
  Memory.eq_of_read_eq_above hm hm' h

/-- Two canonical buffers that read alike below offset `n`: as far as the output of the operation at work goes. -/
structure Memory.agreeBelow (n : Nat) (m m' : Memory) : Prop where
  wf : Memory.wf m = true
  wf' : Memory.wf m' = true
  read : ∀ x, x < n → Memory.read m x = Memory.read m' x

theorem Memory.agreeBelow_zero {m m' : Memory} (hm : Memory.wf m = true) (hm' : Memory.wf m' = true) :
    Memory.agreeBelow 0 m m' :=
  ⟨hm, hm', fun _ hx => absurd hx (Nat.not_lt_zero _)⟩

theorem Memory.agreeBelow_mono {n n' : Nat} {m m' : Memory} (h : Memory.agreeBelow n m m') (hn : n' ≤ n) :
    Memory.agreeBelow n' m m' :=
  ⟨h.wf, h.wf', fun x hx => h.read x (hx.trans_le hn)⟩

/-- The same element written at the end of the common output of both. -/
theorem Memory.agreeBelow_write {n : Nat} {m m' : Memory} (h : Memory.agreeBelow n m m') (hn : n < Config.spaceSize)
    (v : Byte) : Memory.agreeBelow (n + 1) (Memory.write m n v) (Memory.write m' n v) := by
  refine ⟨Memory.wf_write h.wf hn v, Memory.wf_write h.wf' hn v, fun x hx => ?_⟩
  by_cases hxn : x = n
  · rw [hxn, Memory.read_write_self h.wf, Memory.read_write_self h.wf']
  · rw [Memory.read_write_of_ne m v hxn, Memory.read_write_of_ne m' v hxn, h.read x (by omega)]

/-- The same element appended to both at a cursor, which then advances: where it wraps, less is claimed. -/
theorem Memory.agreeBelow_append {w : Nat} {c : BitVec w} {m m' : Memory} (h : Memory.agreeBelow c.toNat m m')
    (hw : w ≤ 33) (v : Byte) :
    Memory.agreeBelow (c + 1).toNat (Memory.write m c.toNat v) (Memory.write m' c.toNat v) := by
  have hlt : c.toNat < Config.spaceSize := c.isLt.trans_le (Nat.pow_le_pow_right (by omega) hw)
  exact Memory.agreeBelow_mono (Memory.agreeBelow_write h hlt v) (toNat_add_one_le c le_rfl)

/-! ### Two runs in step -/

/-- run_segmenter is at the same point of ENCODE in both: its result register and the rest of its output buffer may
differ. -/
def RunSegmenter.sameCourse (u u' : RunSegmenter) : Prop :=
  ∃ l m, u' = { u with olen := l, sout := m } ∧ Memory.agreeBelow u.rs_olen.toNat u.sout m

/-- run_reader is at the same point of DECODE in both: the rest of its output buffer may differ. -/
def RunReader.sameCourse (u u' : RunReader) : Prop :=
  ∃ m, u' = { u with vout := m } ∧ Memory.agreeBelow u.rr_count.toNat u.vout m

/-- Unit `u` is at the same point of the same operation in both states: its operands, working registers and input are
the same, and so is its output so far. Its result registers and the rest of its output buffer may differ. -/
def State.sameCourse (s s' : State) (u : UnitId) : Prop :=
  match u with
  | .varintEncoder => ∃ l m, s'.ve = { s.ve with len := l, sout := m } ∧
      Memory.agreeBelow s.ve.work.ve_len.toNat s.ve.sout m
  | .varintDecoder => ∃ v c, s'.vd = { s.vd with value := v, consumed := c }
  | .bitPacker => ∃ l m, s'.bp = { s.bp with olen := l, sout := m } ∧
      Memory.agreeBelow s.bp.work.bp_j.toNat s.bp.sout m
  | .bitUnpacker => ∃ g c, s'.bu = { s.bu with vals := g, consumed := c } ∧
      ∀ k, k < s.bu.work.bu_k.toNat → s.bu.vals[k]? = g[k]?
  | .rleRunClassifier => ∃ l k, s'.rc = { s.rc with L := l, kind := k }
  | .runSegmenter => s.rs.sameCourse s'.rs
  | .runReader => s.rr.sameCourse s'.rr

/-- The control state of a unit at work, its response still to come (10_state.md R21, R22). -/
structure Control.working (c : Control) : Prop where
  busy : c.busy = true
  unanswered : c.answered = false

/-- Unit `u` is at work in both states, at the same point of the same operation. -/
structure State.sameProgress (s s' : State) (u : UnitId) : Prop where
  working : (s.control u).working
  working' : (s'.control u).working
  course : s.sameCourse s' u

/-- Unit `u` stands alike in both states: at the same point of an operation, or with the same response. -/
inductive State.inStep (s s' : State) (u : UnitId) : Prop
  | atWork (h : s.sameProgress s' u)
  | ok (h : s.control u = answeredWith .ok) (h' : s'.control u = answeredWith .ok) (hres : s.sameResults s' u)
  | error {k : Status} (hk : k ≠ .ok) (h : s.control u = answeredWith k) (h' : s'.control u = answeredWith k)

/-- Two steps lead to states in which unit `u` stands alike. -/
def inStepNext (o o' : Host.Outcome State Fault Refusal) (u : UnitId) : Prop :=
  ∃ t t', o = .next t ∧ o' = .next t' ∧ t.inStep t' u

theorem inStepNext_of_inStep {t t' : State} {u : UnitId} (h : t.inStep t' u) :
    inStepNext (.next t) (.next t') u := ⟨t, t', rfl, rfl, h⟩

/-- The same error in both states. -/
theorem State.inStep_raise (s s' : State) (u : UnitId) {k : Status} (hk : k ≠ .ok) :
    (s.raise u k).inStep (s'.raise u k) u :=
  .error hk (State.raise_control_self s u k) (State.raise_control_self s' u k)

/-- The response OK in both states, with the same results. -/
theorem State.inStep_respond {s s' : State} {u : UnitId} (h : s.sameResults s' u) :
    (s.respond u .ok).inStep (s'.respond u .ok) u :=
  .ok (State.respond_control_self s u .ok) (State.respond_control_self s' u .ok) (by cases u <;> exact h)

/-! ### A step of each unit at work -/

theorem vencStep_inStep {s s' : State} (h : s.sameProgress s' .varintEncoder) :
    (vencStep s).inStep (vencStep s') .varintEncoder := by
  obtain ⟨l, m, he, hm⟩ := h.course
  have hout := Memory.agreeBelow_append hm (by omega) (vencPass s.ve.work).1
  have hs' := vencStep_cases s'
  simp only [he] at hs'
  obtain ⟨hz, e⟩ | ⟨hz, e⟩ := vencStep_cases s
  · rw [e, (hs'.resolve_right fun hr => hr.1 hz).2]
    exact State.inStep_respond ⟨rfl, hout.read⟩
  · rw [e, (hs'.resolve_left fun hl => hz hl.1).2]
    exact .atWork ⟨h.working, h.working', ⟨_, _, rfl, hout⟩⟩

/-- A pass of PACK's loop appends the same bytes to both outputs. -/
theorem packPass_agree (bw : Nat) (v : Value) (w : PackRegs) {m m' : Memory}
    (h : Memory.agreeBelow w.bp_j.toNat m m') :
    Memory.agreeBelow (packPass bw v w).2.bp_j.toNat
      (Memory.writeList m w.bp_j.toNat (packPass bw v w).1.toList)
      (Memory.writeList m' w.bp_j.toNat (packPass bw v w).1.toList) := by
  obtain ⟨-, e⟩ | ⟨-, e⟩ := packPass_cases bw v w <;> rw [e]
  · exact Memory.agreeBelow_append h (by omega) _
  · exact h

theorem packStep_inStep {s s' : State} (h : s.sameProgress s' .bitPacker) :
    (packStep s).inStep (packStep s') .bitPacker := by
  obtain ⟨l, m, he, hm⟩ := h.course
  have hout := packPass_agree s.bp.bw.toNat (s.bp.vals.at s.bp.work.bp_k.toNat) s.bp.work hm
  have hs' := packStep_cases s'
  simp only [he] at hs'
  obtain ⟨hk, e⟩ | ⟨hk, e⟩ := packStep_cases s
  · rw [e, (hs'.resolve_right fun hr => absurd hk (Nat.not_le.mpr hr.1)).2]
    refine State.inStep_respond ⟨rfl, fun a ha => hout.read a (ha.trans_le ?_)⟩
    exact (BitVec.toNat_setWidth _ _).trans_le (Nat.mod_le _ _)
  · rw [e, (hs'.resolve_left fun hl => absurd hk (Nat.not_lt.mpr hl.1)).2]
    exact .atWork ⟨h.working, h.working', ⟨_, _, rfl, hout⟩⟩

/-- The same value put at the index in both groups, which then advances. -/
theorem setIfInBounds_agree {g g' : Group} {c : BitVec 4} (h : ∀ k, k < c.toNat → g[k]? = g'[k]?) (v : Value) :
    ∀ k, k < (c + 1).toNat → (g.setIfInBounds c.toNat v)[k]? = (g'.setIfInBounds c.toNat v)[k]? := by
  intro k hk
  have hle := toNat_add_one_le c le_rfl
  by_cases hkc : c.toNat = k
  · simp [Vector.getElem?_setIfInBounds, hkc]
  · rw [Vector.getElem?_setIfInBounds_ne hkc, Vector.getElem?_setIfInBounds_ne hkc, h k (by omega)]

theorem unpackStep_inStep {s s' : State} (h : s.sameProgress s' .bitUnpacker) :
    (unpackStep s).inStep (unpackStep s') .bitUnpacker := by
  obtain ⟨g, c, he, hg⟩ := h.course
  have hvals := setIfInBounds_agree hg (unpackPass s.bu.bw.toNat 0 s.bu.sin s.bu.work).1
  have hs' := unpackStep_cases s'
  simp only [he] at hs'
  obtain ⟨hk, e⟩ | ⟨hk, e⟩ := unpackStep_cases s
  · rw [e, (hs'.resolve_right fun hr => absurd hk (Nat.not_le.mpr hr.1)).2]
    refine State.inStep_respond ⟨Vector.ext fun k hk8 => Option.some.inj ?_, rfl⟩
    simpa only [Vector.getElem?_eq_getElem hk8] using hvals k (hk8.trans_le hk)
  · rw [e, (hs'.resolve_left fun hl => absurd hk (Nat.not_lt.mpr hl.1)).2]
    exact .atWork ⟨h.working, h.working', ⟨_, _, rfl, hvals⟩⟩

theorem classifyStep_inStep {s s' : State} (h : s.sameProgress s' .rleRunClassifier) :
    (classifyStep s).inStep (classifyStep s') .rleRunClassifier := by
  obtain ⟨l, k, he⟩ := h.course
  have hs' := classifyStep_cases s'
  simp only [he] at hs'
  obtain ⟨hmore, e⟩ | ⟨hmore, e⟩ := classifyStep_cases s
  · rw [e, (hs'.resolve_right fun hr => absurd hmore (Bool.eq_false_iff.mp hr.1)).2]
    exact .atWork ⟨h.working, h.working', ⟨_, _, rfl⟩⟩
  · rw [e, (hs'.resolve_left fun hl => absurd hl.1 (Bool.eq_false_iff.mp hmore)).2]
    exact State.inStep_respond ⟨rfl, rfl⟩

/-- The same bytes emitted into both output streams. -/
theorem emitAll_sameCourse (bs : List Byte) {u u' : RunSegmenter} (h : u.sameCourse u') :
    (emitAll u bs).sameCourse (emitAll u' bs) := by
  induction bs generalizing u u' with
  | nil => exact h
  | cons b bs ih =>
    obtain ⟨l, m, rfl, hm⟩ := h
    exact ih ⟨l, _, rfl, Memory.agreeBelow_append hm le_rfl b⟩

theorem rleEmit_sameCourse {u u' : RunSegmenter} (h : u.sameCourse u') : (rleEmit u).sameCourse (rleEmit u') := by
  obtain ⟨l, m, rfl, hm⟩ := h
  simp only [rleEmit]
  generalize vencWhole (rleHeader (u.rc.rc_len.setWidth 63)) = header
  obtain ⟨l', m', he, hm'⟩ := emitAll_sameCourse (header.1 ++ [Memory.read u.vin u.rs_i.toNat])
    (u := { u with ve := header.2 }) ⟨l, m, rfl, hm⟩
  exact ⟨l', m', by rw [he], hm'⟩

theorem bpEmit_sameCourse {u u' : RunSegmenter} (h : u.sameCourse u') : (bpEmit u).sameCourse (bpEmit u') := by
  obtain ⟨l, m, rfl, hm⟩ := h
  simp only [bpEmit]
  generalize vencWhole Config.bpHeader = header
  generalize groupFrom u.vin u.n.toNat u.rs_i.toNat = g
  generalize packWhole u.bw.toNat g = packed
  obtain ⟨l', m', he, hm'⟩ := emitAll_sameCourse (header.1 ++ packed.1)
    (u := { u with rs_grp := g, ve := header.2, bp := packed.2 }) ⟨l, m, rfl, hm⟩
  exact ⟨l', m', by rw [he], hm'⟩

/-- A pass of ENCODE's loop emits the same run in both. -/
theorem encodePass_sameCourse {u u' : RunSegmenter} (h : u.sameCourse u') :
    (encodePass u).sameCourse (encodePass u') := by
  obtain ⟨l, m, rfl, hm⟩ := h
  have hclassified : ({ u with rc := classifyWhole u.vin u.n.toNat u.rs_i.toNat } : RunSegmenter).sameCourse
      { u with rc := classifyWhole u.vin u.n.toNat u.rs_i.toNat, olen := l, sout := m } := ⟨l, m, rfl, hm⟩
  have hu' := encodePass_cases { u with olen := l, sout := m }
  obtain ⟨hk, e⟩ | ⟨hk, e⟩ := encodePass_cases u
  · rw [e, (hu'.resolve_right fun hr => hr.1 hk).2]
    exact rleEmit_sameCourse hclassified
  · rw [e, (hu'.resolve_left fun hl => hk hl.1).2]
    exact bpEmit_sameCourse hclassified

theorem encodeStep_inStep {s s' : State} (h : s.sameProgress s' .runSegmenter) :
    (encodeStep s).inStep (encodeStep s') .runSegmenter := by
  have hpass : (encodePass s.rs).sameCourse (encodePass s'.rs) := encodePass_sameCourse h.course
  obtain ⟨l, m, he, hm⟩ := h.course
  have hs' := encodeStep_cases s'
  obtain ⟨hi, e⟩ | ⟨hi, e⟩ := encodeStep_cases s
  · rw [e, (hs'.resolve_right fun hr => absurd hi (by simpa [he] using hr.1)).2]
    exact .atWork ⟨h.working, h.working', hpass⟩
  · rw [e, (hs'.resolve_left fun hl => absurd hi (by simpa [he] using hl.1)).2]
    exact State.inStep_respond ⟨by rw [he], fun a ha => by rw [he]; exact hm.read a ha⟩

/-! ### The decoders and run_reader -/

/-- The working registers of a varint decoder are the same. -/
theorem State.vdecRegs_of_sameCourse {d : DecoderId} {s s' : State} (h : s.sameCourse s' d.unit) :
    s'.vdecRegs d = s.vdecRegs d := by
  cases d with
  | standalone => obtain ⟨v, c, he⟩ := h; simp only [State.vdecRegs, he]
  | reader => obtain ⟨m, he, -⟩ := h; simp only [State.vdecRegs, he]

theorem setVdecRegs_inStep (d : DecoderId) (w : VdecRegs) {s s' : State} (h : s.sameProgress s' d.unit) :
    (s.setVdecRegs d w).inStep (s'.setVdecRegs d w) d.unit := by
  cases d with
  | standalone =>
    obtain ⟨v, c, he⟩ := h.course
    exact .atWork ⟨h.working, h.working', ⟨v, c, by simp only [State.setVdecRegs, he]⟩⟩
  | reader =>
    obtain ⟨m, he, hm⟩ := h.course
    exact .atWork ⟨h.working, h.working', ⟨m, by simp only [State.setVdecRegs, he], hm⟩⟩

theorem varintDone_inStep (d : DecoderId) (w : VdecRegs) {s s' : State} (h : s.sameProgress s' d.unit) :
    (varintDone d w s).inStep (varintDone d w s') d.unit := by
  cases d with
  | standalone => exact State.inStep_respond ⟨rfl, rfl⟩
  | reader =>
    obtain ⟨m, he, hm⟩ := h.course
    exact .atWork ⟨h.working, h.working', ⟨m, by simp only [varintDone, he], hm⟩⟩

/-- The same varint byte executed in both. -/
theorem exec_varintByte_inStep (d : DecoderId) (b : Byte) {s s' : State} (h : s.sameProgress s' d.unit) :
    inStepNext (exec (decodeVarintByte d b) s) (exec (decodeVarintByte d b) s') d.unit := by
  have hs' := exec_varintByte_cases d b s'
  rw [State.vdecRegs_of_sameCourse h.course] at hs'
  obtain ⟨ha, e⟩ | ⟨w, ha, hc, e⟩ | ⟨w, ha, hc, e⟩ := exec_varintByte_cases d b s
  · have e' : exec (decodeVarintByte d b) s' = .next (s'.raise d.unit .malformedHeader) := by simpa [ha] using hs'
    rw [e, e']
    exact inStepNext_of_inStep (State.inStep_raise s s' _ (by decide))
  · have e' : exec (decodeVarintByte d b) s' = .next (s'.setVdecRegs d w) := by simpa [ha, hc] using hs'
    rw [e, e']
    exact inStepNext_of_inStep (setVdecRegs_inStep d w h)
  · have e' : exec (decodeVarintByte d b) s' = .next (varintDone d w s') := by simpa [ha, hc] using hs'
    rw [e, e']
    exact inStepNext_of_inStep (varintDone_inStep d w h)

theorem vdecStep_inStep {s s' : State} (h : s.sameProgress s' .varintDecoder) :
    inStepNext (vdecStep s) (vdecStep s') .varintDecoder := by
  have ⟨v, c, he⟩ := h.course
  simp only [vdecStep, he]
  obtain ⟨-, hf⟩ | ⟨-, -, hf⟩ := varintFetch_cases s.vd.work s.vd.avail.toNat 0 s.vd.sin <;> rw [hf]
  · exact inStepNext_of_inStep (State.inStep_raise s s' _ (by decide))
  · exact exec_varintByte_inStep .standalone _ h

/-- The same values appended to both output sequences. -/
theorem appendAll_sameCourse (vs : List Value) {u u' : RunReader} (h : u.sameCourse u') :
    (appendAll u vs).sameCourse (appendAll u' vs) := by
  induction vs generalizing u u' with
  | nil => exact h
  | cons v vs ih =>
    obtain ⟨m, rfl, hm⟩ := h
    exact ih ⟨_, rfl, Memory.agreeBelow_append hm (by omega) v⟩

theorem readerTop_inStep {s s' : State} (h : s.sameProgress s' .runReader) :
    (readerTop s).inStep (readerTop s') .runReader := by
  obtain ⟨m, he, hm⟩ := h.course
  have hs' := readerTop_cases s'
  simp only [he] at hs'
  obtain ⟨hc, e⟩ | ⟨hc, hp, e⟩ | ⟨hc, hp, e⟩ := readerTop_cases s
  · have e' : readerTop s' = s'.respond .runReader .ok := by simpa [hc, Nat.not_lt.mpr hc] using hs'
    rw [e, e']
    exact State.inStep_respond ⟨by rw [he], fun a ha => by rw [he]; exact hm.read a (ha.trans_le hc)⟩
  · have e' : readerTop s' = s'.raise .runReader .overrunError := by simpa [hc, hp, Nat.not_le.mpr hc] using hs'
    rw [e, e']
    exact State.inStep_raise s s' _ (by decide)
  · have e' := ((hs'.resolve_left fun h1 => absurd hc (Nat.not_lt.mpr h1.1)).resolve_left fun h2 => hp h2.2.1).2.2
    rw [e, e']
    exact .atWork ⟨h.working, h.working', ⟨m, rfl, hm⟩⟩

theorem execRle_inStep (c : BitVec 63) {s s' : State} (h : s.sameProgress s' .runReader) :
    inStepNext (execRle c s) (execRle c s') .runReader := by
  obtain ⟨m, he, hm⟩ := h.course
  have hs' := execRle_cases c s'
  simp only [he] at hs'
  obtain ⟨hp, e⟩ | ⟨hp, e⟩ := execRle_cases c s
  · rw [e, (hs'.resolve_right fun hr => hr.1 hp).2]
    exact inStepNext_of_inStep (State.inStep_raise s s' _ (by decide))
  · rw [e, (hs'.resolve_left fun hl => hp hl.1).2]
    exact inStepNext_of_inStep (.atWork ⟨h.working, h.working', appendAll_sameCourse _ ⟨m, rfl, hm⟩⟩)

theorem execBp_inStep (g : BitVec 63) {s s' : State} (h : s.sameProgress s' .runReader) :
    inStepNext (execBp g s) (execBp g s') .runReader := by
  obtain ⟨m, he, hm⟩ := h.course
  have hs' := execBp_cases g s'
  simp only [he] at hs'
  obtain ⟨hl, e⟩ | ⟨hl, e⟩ := execBp_cases g s
  · rw [e, (hs'.resolve_right fun hr => absurd hl (Nat.not_lt.mpr hr.1)).2]
    exact inStepNext_of_inStep (State.inStep_raise s s' _ (by decide))
  · rw [e, (hs'.resolve_left fun hl' => absurd hl (Nat.not_le.mpr hl'.1)).2]
    exact inStepNext_of_inStep (.atWork ⟨h.working, h.working', appendAll_sameCourse _ ⟨m, rfl, hm⟩⟩)

theorem readerStep_inStep {s s' : State} (h : s.sameProgress s' .runReader) :
    inStepNext (readerStep s) (readerStep s') .runReader := by
  have ⟨m, he, _⟩ := h.course
  have hphase : s'.rr.phase = s.rr.phase := by rw [he]
  cases hp : s.rr.phase with
  | top =>
    rw [readerStep_top s hp, readerStep_top s' (hphase.trans hp)]
    exact inStepNext_of_inStep (readerTop_inStep h)
  | header =>
    simp only [readerStep, he, hp]
    obtain ⟨-, hf⟩ | ⟨-, -, hf⟩ :=
      varintFetch_cases s.rr.vd (s.rr.slen.toNat - s.rr.rr_pos.toNat) s.rr.rr_pos.toNat s.rr.sin <;> rw [hf]
    · exact inStepNext_of_inStep (State.inStep_raise s s' _ (by decide))
    · exact exec_varintByte_inStep .reader _ h
  | body =>
    rw [readerStep_body s hp, readerStep_body s' (hphase.trans hp), show s'.rr.rr_h = s.rr.rr_h by rw [he]]
    unfold decodeHeader
    split
    · exact execBp_inStep (s.rr.rr_h.extractLsb' 1 63) h
    · exact execRle_inStep (s.rr.rr_h.extractLsb' 1 63) h

/-! ### A step, and any number of steps -/

/-- A step of the unit in both states keeps them in step. -/
theorem advance_inStep {u : UnitId} {s s' : State} (h : s.inStep s' u) :
    inStepNext (advance u s) (advance u s') u := by
  have hidle : ∀ (r : State) (k : Status), r.control u = answeredWith k → advance u r = .next r :=
    fun r k hr => advance_idle (by rw [State.busy_eq, hr]; rfl)
  cases h with
  | ok hc hc' hres => rw [hidle s _ hc, hidle s' _ hc']; exact inStepNext_of_inStep (.ok hc hc' hres)
  | error hk hc hc' => rw [hidle s _ hc, hidle s' _ hc']; exact inStepNext_of_inStep (.error hk hc hc')
  | atWork h =>
    rw [advance_busy h.working.busy, advance_busy h.working'.busy]
    cases u with
    | varintEncoder => exact inStepNext_of_inStep (vencStep_inStep h)
    | varintDecoder => exact vdecStep_inStep h
    | bitPacker => exact inStepNext_of_inStep (packStep_inStep h)
    | bitUnpacker => exact inStepNext_of_inStep (unpackStep_inStep h)
    | rleRunClassifier => exact inStepNext_of_inStep (classifyStep_inStep h)
    | runSegmenter => exact inStepNext_of_inStep (encodeStep_inStep h)
    | runReader => exact readerStep_inStep h

theorem advanceN_inStep (k : Nat) {u : UnitId} {s s' : State} (h : s.inStep s' u) :
    inStepNext (advanceN k u s) (advanceN k u s') u := by
  induction k generalizing s s' with
  | zero => exact inStepNext_of_inStep h
  | succ k ih =>
    obtain ⟨t, t', e, e', ht⟩ := advance_inStep h
    simp only [advanceN, e, e']
    exact ih ht

/-! ### Acceptance -/

@[simp] theorem State.accept_vd (s : State) : (s.accept .varintDecoder).vd = { s.vd with work := {} } := rfl
@[simp] theorem State.accept_bu (s : State) : (s.accept .bitUnpacker).bu = { s.bu with work := {} } := rfl
@[simp] theorem State.accept_rc (s : State) : (s.accept .rleRunClassifier).rc = { s.rc with work := {} } := rfl
@[simp] theorem State.accept_rs (s : State) : (s.accept .runSegmenter).rs =
    { s.rs with rs_i := 0, rs_olen := 0, rs_grp := Group.zero, rc := {}, ve := {}, bp := {} } := rfl
@[simp] theorem State.accept_rr (s : State) : (s.accept .runReader).rr =
    { s.rr with
      rr_pos := 0, rr_count := 0, rr_h := 0, rr_val := 0, rr_grp := Group.zero, vd := {}, bu := {},
      phase := .top } := rfl

section acceptance
variable {s s' : State}

theorem beginVenc_inStep (v : BitVec 64) (hw : s.buffersWf) (hw' : s'.buffersWf) :
    (beginVenc v (s.accept .varintEncoder)).inStep (beginVenc v (s'.accept .varintEncoder)) .varintEncoder :=
  .atWork ⟨⟨rfl, rfl⟩, ⟨rfl, rfl⟩, ⟨_, _, rfl, Memory.agreeBelow_zero (hw .vencSout) (hw' .vencSout)⟩⟩

theorem latchVdec_inStep (avail : BitVec 33) (hin : s'.vd.sin = s.vd.sin) :
    ((s.accept .varintDecoder).latchVdec avail).inStep ((s'.accept .varintDecoder).latchVdec avail)
      .varintDecoder :=
  .atWork ⟨⟨rfl, rfl⟩, ⟨rfl, rfl⟩, ⟨s'.vd.value, s'.vd.consumed, by simp [State.latchVdec, hin]⟩⟩

theorem beginPack_inStep (bw : BitVec 8) (vals : Group) (hw : s.buffersWf) (hw' : s'.buffersWf) :
    (beginPack bw vals (s.accept .bitPacker)).inStep (beginPack bw vals (s'.accept .bitPacker)) .bitPacker := by
  unfold beginPack
  split
  · exact .atWork ⟨⟨rfl, rfl⟩, ⟨rfl, rfl⟩, ⟨_, _, rfl, Memory.agreeBelow_zero (hw .packSout) (hw' .packSout)⟩⟩
  · exact State.inStep_raise _ _ _ (by decide)

theorem beginUnpack_inStep (bw : BitVec 8) (avail : BitVec 33) (hin : s'.bu.sin = s.bu.sin) :
    (beginUnpack bw avail (s.accept .bitUnpacker)).inStep (beginUnpack bw avail (s'.accept .bitUnpacker))
      .bitUnpacker := by
  unfold beginUnpack
  split
  · split
    · exact State.inStep_raise _ _ _ (by decide)
    · exact .atWork ⟨⟨rfl, rfl⟩, ⟨rfl, rfl⟩, ⟨s'.bu.vals, s'.bu.consumed,
        by simp [State.latchUnpack, hin], fun k hk => absurd hk (Nat.not_lt_zero k)⟩⟩
  · exact State.inStep_raise _ _ _ (by decide)

theorem beginClassify_inStep (n i : BitVec 32) (hin : s'.rc.vin = s.rc.vin) :
    (beginClassify n i (s.accept .rleRunClassifier)).inStep (beginClassify n i (s'.accept .rleRunClassifier))
      .rleRunClassifier := by
  unfold beginClassify
  split
  · exact State.inStep_raise _ _ _ (by decide)
  · exact .atWork ⟨⟨rfl, rfl⟩, ⟨rfl, rfl⟩, ⟨s'.rc.L, s'.rc.kind, by simp [State.latchClassify, hin]⟩⟩

theorem beginEncode_inStep (bw : BitVec 8) (n : BitVec 32) (hin : s'.rs.vin = s.rs.vin) (hw : s.buffersWf)
    (hw' : s'.buffersWf) :
    (beginEncode bw n (s.accept .runSegmenter)).inStep (beginEncode bw n (s'.accept .runSegmenter))
      .runSegmenter := by
  have hvin : ((s'.accept .runSegmenter).latchEncode bw n).rs.vin =
      ((s.accept .runSegmenter).latchEncode bw n).rs.vin := hin
  simp only [beginEncode, hvin]
  split
  · split
    · exact State.inStep_raise _ _ _ (by decide)
    · exact .atWork ⟨⟨rfl, rfl⟩, ⟨rfl, rfl⟩, ⟨s'.rs.olen, s'.rs.sout, by simp [State.latchEncode, hin],
        Memory.agreeBelow_zero (hw .encodeSout) (hw' .encodeSout)⟩⟩
  · exact State.inStep_raise _ _ _ (by decide)

theorem beginDecode_inStep (bw : BitVec 8) (total : BitVec 32) (slen : BitVec 33) (hin : s'.rr.sin = s.rr.sin)
    (hw : s.buffersWf) (hw' : s'.buffersWf) :
    (beginDecode bw total slen (s.accept .runReader)).inStep (beginDecode bw total slen (s'.accept .runReader))
      .runReader := by
  unfold beginDecode
  split
  · exact .atWork ⟨⟨rfl, rfl⟩, ⟨rfl, rfl⟩, ⟨s'.rr.vout, by simp [State.latchDecode, hin],
      Memory.agreeBelow_zero (hw .decodeVout) (hw' .decodeVout)⟩⟩
  · exact State.inStep_raise _ _ _ (by decide)

/-- A command presented at the idle unit in both states: foreign in both, or accepted in both. -/
theorem presented_inStep {own u : UnitId} {body : State → State} (hb : s.busy u = false) (hb' : s'.busy u = false)
    (hbody : u = own → (body (s.accept own)).inStep (body (s'.accept own)) own) :
    inStepNext (presented own u body s) (presented own u body s') u := by
  by_cases hu : u = own
  · subst hu
    rw [presented_own _ hb, presented_own _ hb']
    exact inStepNext_of_inStep (hbody rfl)
  · rw [presented_foreign _ hb hu, presented_foreign _ hb' hu]
    exact inStepNext_of_inStep (State.inStep_raise _ _ _ (by decide))

/-- The same command accepted by the unit in both states, with the same input. -/
theorem exec_command_inStep (u : UnitId) (op : BitVec 3) (x : Operands) (hb : s.busy u = false)
    (hb' : s'.busy u = false) (hin : s.sameInput s' u) (hw : s.buffersWf) (hw' : s'.buffersWf) :
    inStepNext (exec (decodeCommand u op x) s) (exec (decodeCommand u op x) s') u := by
  have hinput : ∀ b, (∀ a, Memory.read (s.buffer b) a = Memory.read (s'.buffer b) a) → s'.buffer b = s.buffer b :=
    fun b h => (Memory.eq_of_read_eq (hw b) (hw' b) h).symm
  obtain rfl | rfl | rfl | rfl | rfl | rfl | rfl | rfl := op_cases op
  · rw [exec_foreign_command x (.inl rfl) hb, exec_foreign_command x (.inl rfl) hb']
    exact inStepNext_of_inStep (State.inStep_raise _ _ _ (by decide))
  · rw [exec_command_1, exec_command_1]
    exact presented_inStep hb hb' fun _ => beginVenc_inStep x.v hw hw'
  · rw [exec_command_2, exec_command_2]
    exact presented_inStep hb hb' (by rintro rfl; exact latchVdec_inStep x.avail (hinput .vdecSin hin))
  · rw [exec_command_3, exec_command_3]
    exact presented_inStep hb hb' fun _ => beginPack_inStep x.bw x.vals hw hw'
  · rw [exec_command_4, exec_command_4]
    exact presented_inStep hb hb' (by rintro rfl; exact beginUnpack_inStep x.bw x.avail (hinput .unpackSin hin))
  · rw [exec_command_5, exec_command_5]
    exact presented_inStep hb hb' (by rintro rfl; exact beginClassify_inStep x.n x.i (hinput .classifyVin hin))
  · rw [exec_command_6, exec_command_6]
    exact presented_inStep hb hb' (by
      rintro rfl; exact beginEncode_inStep x.bw x.n (hinput .encodeVin hin) hw hw')
  · rw [exec_command_7, exec_command_7]
    exact presented_inStep hb hb' (by
      rintro rfl; exact beginDecode_inStep x.bw x.total x.slen (hinput .decodeSin hin) hw hw')

end acceptance

/-! ### The response -/

/-- What the port of a unit that is in step shows: `busy`, whether it has answered, and with what. -/
theorem State.sameResponse_of_inStep {r r' : State} {u : UnitId} (h : r.inStep r' u) :
    r.busy u = r'.busy u ∧ (r.control u).answered = (r'.control u).answered ∧
      ((r.control u).answered = true → (r.control u).status = (r'.control u).status ∧
        ((r.control u).status = .ok → r.sameResults r' u)) := by
  simp only [State.busy_eq]
  cases h with
  | atWork h =>
    exact ⟨h.working.busy.trans h.working'.busy.symm, h.working.unanswered.trans h.working'.unanswered.symm,
      fun ha => absurd (h.working.unanswered.symm.trans ha) Bool.false_ne_true⟩
  | ok hc hc' hres => rw [hc, hc']; exact ⟨rfl, rfl, fun _ => ⟨rfl, fun _ => hres⟩⟩
  | error hk hc hc' => rw [hc, hc']; exact ⟨rfl, rfl, fun _ => ⟨rfl, fun hok => absurd hok hk⟩⟩

/-- Settles O50: the two runs are in step from the acceptance on, and so are their responses. -/
theorem responseDependsOnCommandAlone : Obligations.ResponseDependsOnCommandAlone := by
  unfold Obligations.ResponseDependsOnCommandAlone
  intro s s' u op x k hb hb' hin hw hw'
  obtain ⟨t, t', he, he', ht⟩ := exec_command_inStep u op x hb hb' hin hw hw'
  obtain ⟨r, r', hr, hr', hresponse⟩ := advanceN_inStep k ht
  exact ⟨t, t', r, r', he, he', hr, hr', State.sameResponse_of_inStep hresponse⟩

end Sys2Proof.Machine

/-! Interleaving (O49): a step of a unit reads its own part of the state alone, so its steps bring it to the same place between
the steps of other units as alone. Only the free values that an error draws tell the two runs apart. -/

namespace Sys2Proof.Machine

/-- Unit `u`, alone in `s` and among others in `s'`, has come to the same place since the draw counter stood at `d`: its
whole part of the state is the same, or it has raised the same error in both. -/
inductive State.samePlace (d : Nat) (s s' : State) (u : UnitId) : Prop
  | same (h : s.sameUnit s' u) (hd : s.draws = d)
  | raised (hc : s.control u = s'.control u) (hb : s.busy u = false) (hd : s.draws ≠ d)

theorem State.control_eq_of_samePlace {d : Nat} {s s' : State} {u : UnitId} (h : s.samePlace d s' u) :
    s.control u = s'.control u := by
  cases h with
  | same h => exact h.1
  | raised hc => exact hc

theorem State.sameUnit_of_samePlace {d : Nat} {s s' : State} {u : UnitId} (h : s.samePlace d s' u)
    (hd : s.draws = d) : s.sameUnit s' u := by
  cases h with
  | same h => exact h
  | raised _ _ hne => exact absurd hd hne

/-- Two steps lead to states in which unit `u` has come to the same place. -/
def samePlaceNext (d : Nat) (o o' : Host.Outcome State Fault Refusal) (u : UnitId) : Prop :=
  ∃ t t', o = .next t ∧ o' = .next t' ∧ t.samePlace d t' u

theorem samePlaceNext_of_samePlace {d : Nat} {t t' : State} {u : UnitId} (h : t.samePlace d t' u) :
    samePlaceNext d (.next t) (.next t') u := ⟨t, t', rfl, rfl, h⟩

section steps
variable {d : Nat} {s s' : State}

theorem State.samePlace_respond {u : UnitId} (k : Status) (h : s.sameUnit s' u) (hd : s.draws = d) :
    (s.respond u k).samePlace d (s'.respond u k) u :=
  .same ⟨(State.respond_control_self s u k).trans (State.respond_control_self s' u k).symm,
    by cases u <;> exact h.2⟩ hd

/-- The same error in both: the results and output it leaves are free values, which depend on the draws of all units. -/
theorem State.samePlaceNext_raise (u : UnitId) (k : Status) (hd : s.draws = d) :
    samePlaceNext d (.next (s.raise u k)) (.next (s'.raise u k)) u :=
  samePlaceNext_of_samePlace <| .raised
    ((State.raise_control_self s u k).trans (State.raise_control_self s' u k).symm)
    (by rw [State.busy_eq, State.raise_control_self])
    (by rw [State.raise_draws]; omega)

/-! ### A step of each unit at work -/

theorem vencStep_samePlace (h : s.sameUnit s' .varintEncoder) (hd : s.draws = d) :
    (vencStep s).samePlace d (vencStep s') .varintEncoder := by
  obtain ⟨hc, he⟩ := h
  simp only [vencStep, ← he]
  split
  · exact State.samePlace_respond _ ⟨hc, rfl⟩ hd
  · exact .same ⟨hc, rfl⟩ hd

theorem packStep_samePlace (h : s.sameUnit s' .bitPacker) (hd : s.draws = d) :
    (packStep s).samePlace d (packStep s') .bitPacker := by
  obtain ⟨hc, he⟩ := h
  simp only [packStep, ← he]
  split
  · exact State.samePlace_respond _ ⟨hc, rfl⟩ hd
  · exact .same ⟨hc, rfl⟩ hd

theorem unpackStep_samePlace (h : s.sameUnit s' .bitUnpacker) (hd : s.draws = d) :
    (unpackStep s).samePlace d (unpackStep s') .bitUnpacker := by
  obtain ⟨hc, he⟩ := h
  simp only [unpackStep, ← he]
  split
  · exact State.samePlace_respond _ ⟨hc, rfl⟩ hd
  · exact .same ⟨hc, rfl⟩ hd

theorem classifyStep_samePlace (h : s.sameUnit s' .rleRunClassifier) (hd : s.draws = d) :
    (classifyStep s).samePlace d (classifyStep s') .rleRunClassifier := by
  obtain ⟨hc, he⟩ := h
  simp only [classifyStep, ← he]
  split
  · exact .same ⟨hc, rfl⟩ hd
  · exact State.samePlace_respond _ ⟨hc, rfl⟩ hd

theorem encodeStep_samePlace (h : s.sameUnit s' .runSegmenter) (hd : s.draws = d) :
    (encodeStep s).samePlace d (encodeStep s') .runSegmenter := by
  obtain ⟨hc, he⟩ := h
  simp only [encodeStep, ← he]
  split
  · exact .same ⟨hc, rfl⟩ hd
  · exact State.samePlace_respond _ ⟨hc, rfl⟩ hd

theorem State.vdecRegs_of_sameUnit {i : DecoderId} (h : s.sameUnit s' i.unit) : s'.vdecRegs i = s.vdecRegs i := by
  cases i with
  | standalone => exact congrArg VarintDecoder.work h.2.symm
  | reader => exact congrArg RunReader.vd h.2.symm

theorem setVdecRegs_samePlace (i : DecoderId) (w : VdecRegs) (h : s.sameUnit s' i.unit) (hd : s.draws = d) :
    (s.setVdecRegs i w).samePlace d (s'.setVdecRegs i w) i.unit := by
  cases i with
  | standalone =>
    have he : s.vd = s'.vd := h.2
    simp only [State.setVdecRegs, he]
    exact .same ⟨h.1, rfl⟩ hd
  | reader =>
    have he : s.rr = s'.rr := h.2
    simp only [State.setVdecRegs, he]
    exact .same ⟨h.1, rfl⟩ hd

theorem varintDone_samePlace (i : DecoderId) (w : VdecRegs) (h : s.sameUnit s' i.unit) (hd : s.draws = d) :
    (varintDone i w s).samePlace d (varintDone i w s') i.unit := by
  cases i with
  | standalone =>
    have he : s.vd = s'.vd := h.2
    simp only [varintDone, he]
    exact State.samePlace_respond _ ⟨h.1, rfl⟩ hd
  | reader =>
    have he : s.rr = s'.rr := h.2
    simp only [varintDone, he]
    exact .same ⟨h.1, rfl⟩ hd

/-- The same varint byte executed in both. -/
theorem exec_varintByte_samePlace (i : DecoderId) (b : Byte) (h : s.sameUnit s' i.unit) (hd : s.draws = d) :
    samePlaceNext d (exec (decodeVarintByte i b) s) (exec (decodeVarintByte i b) s') i.unit := by
  have hs' := exec_varintByte_cases i b s'
  rw [State.vdecRegs_of_sameUnit h] at hs'
  obtain ⟨ha, e⟩ | ⟨w, ha, hc, e⟩ | ⟨w, ha, hc, e⟩ := exec_varintByte_cases i b s
  · have e' : exec (decodeVarintByte i b) s' = .next (s'.raise i.unit .malformedHeader) := by simpa [ha] using hs'
    rw [e, e']
    exact State.samePlaceNext_raise _ _ hd
  · have e' : exec (decodeVarintByte i b) s' = .next (s'.setVdecRegs i w) := by simpa [ha, hc] using hs'
    rw [e, e']
    exact samePlaceNext_of_samePlace (setVdecRegs_samePlace i w h hd)
  · have e' : exec (decodeVarintByte i b) s' = .next (varintDone i w s') := by simpa [ha, hc] using hs'
    rw [e, e']
    exact samePlaceNext_of_samePlace (varintDone_samePlace i w h hd)

theorem vdecStep_samePlace (h : s.sameUnit s' .varintDecoder) (hd : s.draws = d) :
    samePlaceNext d (vdecStep s) (vdecStep s') .varintDecoder := by
  have ⟨_, he⟩ := h
  simp only [vdecStep, ← he]
  split
  · exact State.samePlaceNext_raise _ _ hd
  · exact exec_varintByte_samePlace .standalone _ h hd

theorem readerTop_samePlace (h : s.sameUnit s' .runReader) (hd : s.draws = d) :
    samePlaceNext d (.next (readerTop s)) (.next (readerTop s')) .runReader := by
  obtain ⟨hc, he⟩ := h
  simp only [readerTop, ← he]
  split
  · split
    · exact State.samePlaceNext_raise _ _ hd
    · exact samePlaceNext_of_samePlace (.same ⟨hc, rfl⟩ hd)
  · exact samePlaceNext_of_samePlace (State.samePlace_respond _ ⟨hc, he⟩ hd)

theorem execRle_samePlace (c : BitVec 63) (h : s.sameUnit s' .runReader) (hd : s.draws = d) :
    samePlaceNext d (execRle c s) (execRle c s') .runReader := by
  obtain ⟨hc, he⟩ := h
  simp only [execRle, ← he]
  split
  · exact State.samePlaceNext_raise _ _ hd
  · exact samePlaceNext_of_samePlace (.same ⟨hc, rfl⟩ hd)

theorem execBp_samePlace (g : BitVec 63) (h : s.sameUnit s' .runReader) (hd : s.draws = d) :
    samePlaceNext d (execBp g s) (execBp g s') .runReader := by
  obtain ⟨hc, he⟩ := h
  simp only [execBp, ← he]
  split
  · exact State.samePlaceNext_raise _ _ hd
  · exact samePlaceNext_of_samePlace (.same ⟨hc, rfl⟩ hd)

theorem readerStep_samePlace (h : s.sameUnit s' .runReader) (hd : s.draws = d) :
    samePlaceNext d (readerStep s) (readerStep s') .runReader := by
  have ⟨_, he⟩ := h
  simp only at he
  cases hp : s.rr.phase with
  | top =>
    rw [readerStep_top s hp, readerStep_top s' (he ▸ hp)]
    exact readerTop_samePlace h hd
  | header =>
    simp only [readerStep, ← he, hp]
    split
    · exact State.samePlaceNext_raise _ _ hd
    · exact exec_varintByte_samePlace .reader _ h hd
  | body =>
    rw [readerStep_body s hp, readerStep_body s' (he ▸ hp), ← he]
    unfold decodeHeader
    split
    · exact execBp_samePlace (s.rr.rr_h.extractLsb' 1 63) h hd
    · exact execRle_samePlace (s.rr.rr_h.extractLsb' 1 63) h hd

/-! ### A step, and any interleaving -/

/-- A step of the unit itself, in both states. -/
theorem advance_samePlace {u : UnitId} (h : s.samePlace d s' u) :
    samePlaceNext d (advance u s) (advance u s') u := by
  have hbusy : s.busy u = s'.busy u := congrArg Control.busy (State.control_eq_of_samePlace h)
  cases hb : s.busy u with
  | false =>
    rw [advance_idle hb, advance_idle (hbusy.symm.trans hb)]
    exact samePlaceNext_of_samePlace h
  | true =>
    cases h with
    | raised _ hidle => exact absurd (hb.symm.trans hidle) Bool.noConfusion
    | same h hd =>
      rw [advance_busy hb, advance_busy (hbusy.symm.trans hb)]
      cases u with
      | varintEncoder => exact samePlaceNext_of_samePlace (vencStep_samePlace h hd)
      | varintDecoder => exact vdecStep_samePlace h hd
      | bitPacker => exact samePlaceNext_of_samePlace (packStep_samePlace h hd)
      | bitUnpacker => exact samePlaceNext_of_samePlace (unpackStep_samePlace h hd)
      | rleRunClassifier => exact samePlaceNext_of_samePlace (classifyStep_samePlace h hd)
      | runSegmenter => exact samePlaceNext_of_samePlace (encodeStep_samePlace h hd)
      | runReader => exact readerStep_samePlace h hd

/-- A step of another unit, in the interleaved run alone. -/
theorem advance_other_samePlace {u v : UnitId} (hv : u ≠ v) (h : s.samePlace d s' u) :
    ∃ t', advance v s' = .next t' ∧ s.samePlace d t' u := by
  obtain ⟨t', -, ht', -, -⟩ := advance_samePlace (.same (State.sameUnit_refl s' v) rfl)
  have hframe : s'.sameUnit t' u := (advance_control ht').1 u hv
  refine ⟨t', ht', ?_⟩
  cases h with
  | same h hd => exact .same (State.sameUnit_trans h hframe) hd
  | raised hc hb hd => exact .raised (hc.trans hframe.1) hb hd

/-- The interleaved run, and as many steps of the unit alone as the interleaving gives it. -/
theorem advanceAll_samePlace (us : List UnitId) {u : UnitId} (h : s.samePlace d s' u) :
    samePlaceNext d (advanceN (us.count u) u s) (advanceAll us s') u := by
  induction us generalizing s s' with
  | nil => exact samePlaceNext_of_samePlace h
  | cons v us ih =>
    by_cases hv : u = v
    · subst hv
      obtain ⟨t, t', ht, ht', hplace⟩ := advance_samePlace h
      simp only [List.count_cons_self, advanceN, advanceAll, ht, ht']
      exact ih hplace
    · obtain ⟨t', ht', hplace⟩ := advance_other_samePlace hv h
      simp only [List.count_cons_of_ne (Ne.symm hv), advanceAll, ht']
      exact ih hplace

end steps

/-- Settles O49: by induction on the interleaving, each unit stays where its own steps alone bring it. -/
theorem interleavingDoesNotMatter : Obligations.InterleavingDoesNotMatter := by
  unfold Obligations.InterleavingDoesNotMatter
  intro s us u
  obtain ⟨b, a, hb, ha, h⟩ := advanceAll_samePlace us (.same (State.sameUnit_refl s u) rfl)
  exact ⟨a, b, ha, hb, (State.control_eq_of_samePlace h).symm, State.sameUnit_of_samePlace h⟩

end Sys2Proof.Machine

/-! A run's header and its first byte (O9): the type is bit 0 of the header, and the first byte of the header's varint carries that
bit. -/

namespace Sys2Proof

/-- Bit 0 of a word tells its parity. -/
theorem getLsbD_zero_eq_decide {w : Nat} (x : BitVec w) : x.getLsbD 0 = decide (x.toNat % 2 = 1) :=
  Nat.testBit_zero x.toNat

theorem decodeHeader_of_even {h : BitVec 64} (he : h.toNat % 2 = 0) : decodeHeader h = .rle (h.extractLsb' 1 63) := by
  rw [decodeHeader, getLsbD_zero_eq_decide, if_neg (by simp [he])]

theorem decodeHeader_of_odd {h : BitVec 64} (ho : h.toNat % 2 = 1) : decodeHeader h = .bp (h.extractLsb' 1 63) := by
  rw [decodeHeader, getLsbD_zero_eq_decide, if_pos (by simp [ho])]

/-- Bits 63:1 of a header are the header halved (30_encoding.md R95). -/
theorem headerField_toNat (h : BitVec 64) : (h.extractLsb' 1 63).toNat = h.toNat / 2 := by
  rw [BitVec.extractLsb'_toNat, Nat.shiftRight_eq_div_pow]
  omega

theorem payloadBits_toNat (b : Byte) : (payloadBits b).toNat = b.toNat % 128 := by
  simp [payloadBits]

/-- The further bytes of a varint weigh 128 and more, so the first one gives the parity. -/
theorem varintValue_cons_mod_two (b : Byte) (bs : List Byte) : varintValue (b :: bs) % 2 = b.toNat % 2 := by
  rw [varintValue, payloadBits_toNat]
  omega

theorem varintOf_mod_two {b : Byte} {bs : List Byte} {h : BitVec 64} {n : Nat}
    (hv : varintOf (b :: bs) = some (h, n)) : h.toNat % 2 = b.toNat % 2 := by
  unfold varintOf at hv
  split at hv
  · cases hv
  · split at hv
    · cases hv
    · obtain ⟨rfl, -⟩ := Prod.mk.inj (Option.some.inj hv)
      rw [List.take_succ_cons, BitVec.toNat_ofNat, Nat.mod_mod_of_dvd _ (by decide), varintValue_cons_mod_two]

/-- Bytes decode to a run through a header with the parity of their first byte. -/
theorem decodeRun_ok {b : Byte} {bs : List Byte} {i : Instr} (hr : decodeRun (b :: bs) = .ok i) :
    ∃ h : BitVec 64, h.toNat % 2 = b.toNat % 2 ∧ i = decodeHeader h := by
  unfold decodeRun at hr
  cases hv : varintOf (b :: bs) with
  | none => simp [hv] at hr
  | some r => exact ⟨r.1, varintOf_mod_two hv, by simpa [hv] using hr.symm⟩

end Sys2Proof

namespace Sys2Proof.Machine

/-- A bit-packed run does not use its group count (30_encoding.md R95, 43_reader.md R229). -/
theorem exec_bp_groupCount (g g' : BitVec 63) (s : State) : exec (.bp g) s = exec (.bp g') s := rfl

/-- Settles O9: the first byte of a header's varint has the header's parity, which selects the run. -/
theorem headerTypeBitSelectsRun : Obligations.HeaderTypeBitSelectsRun := by
  unfold Obligations.HeaderTypeBitSelectsRun
  refine ⟨fun h he => ⟨_, decodeHeader_of_even he, headerField_toNat h⟩, fun h ho => ⟨_, decodeHeader_of_odd ho⟩,
    exec_bp_groupCount, ?_⟩
  intro b bs i hr
  obtain ⟨h, hparity, rfl⟩ := decodeRun_ok hr
  exact ⟨fun he => ⟨_, decodeHeader_of_even (hparity.trans he)⟩,
    fun ho => ⟨_, decodeHeader_of_odd (hparity.trans ho)⟩⟩

end Sys2Proof.Machine

/-! A foreign code (O15): its answer `(s.accept u).raise u .badArgument` reads no buffer, so replacing a buffer's contents commutes
with it, and is lost where the buffer is the unit's own output. -/

namespace Sys2Proof.Machine

/-! ### Replaced buffer contents under the shared operations -/

section setBuffer
variable (s : State) (u : UnitId) (b : Buffer) (m : Memory)

theorem State.setBuffer_busy : (s.setBuffer b m).busy u = s.busy u :=
  congrArg Control.busy (State.setBuffer_control s b m u)

theorem State.setControl_setBuffer (c : Control) :
    (s.setBuffer b m).setControl u c = (s.setControl u c).setBuffer b m := by
  cases b <;> rfl

theorem State.clearWork_setBuffer : (s.setBuffer b m).clearWork u = (s.clearWork u).setBuffer b m := by
  cases u <;> cases b <;> rfl

theorem State.accept_setBuffer : (s.setBuffer b m).accept u = (s.accept u).setBuffer b m := by
  unfold State.accept
  rw [State.clearWork_setBuffer, State.setControl_setBuffer, State.setBuffer_control]

theorem State.freeResults_setBuffer : (s.setBuffer b m).freeResults u = (s.freeResults u).setBuffer b m := by
  cases u <;> cases b <;> rfl

/-- Free contents for the output buffer leave every other buffer's contents in place. -/
theorem State.freeOutput_setBuffer_of_ne {b : Buffer} (h : outputOf u ≠ some b) :
    (s.setBuffer b m).freeOutput u = (s.freeOutput u).setBuffer b m := by
  cases u <;> cases b <;> first | rfl | exact absurd rfl h

/-- Free contents for the output buffer overwrite what it held. -/
theorem State.freeOutput_setBuffer_output {b : Buffer} (h : outputOf u = some b) :
    (s.setBuffer b m).freeOutput u = s.freeOutput u := by
  unfold State.freeOutput
  rw [h]
  cases b <;> rfl

theorem State.raise_setBuffer_of_ne (k : Status) {b : Buffer} (h : outputOf u ≠ some b) :
    (s.setBuffer b m).raise u k = (s.raise u k).setBuffer b m := by
  unfold State.raise
  rw [State.freeResults_setBuffer, State.freeOutput_setBuffer_of_ne _ _ _ h]
  exact State.setControl_setBuffer _ _ _ _ _

theorem State.raise_setBuffer_output (k : Status) {b : Buffer} (h : outputOf u = some b) :
    (s.setBuffer b m).raise u k = s.raise u k := by
  unfold State.raise
  rw [State.freeResults_setBuffer, State.freeOutput_setBuffer_output _ _ _ h]

end setBuffer

/-! ### The answer -/

/-- The answer to a foreign code whatever stands in buffer `b`. -/
theorem exec_foreign_command_setBuffer {u : UnitId} {op : BitVec 3} (x : Operands) {s : State}
    (hf : foreignCode u op) (hb : s.busy u = false) (b : Buffer) (m : Memory) :
    exec (decodeCommand u op x) (s.setBuffer b m) = .next (((s.accept u).setBuffer b m).raise u .badArgument) := by
  rw [exec_foreign_command x hf ((State.setBuffer_busy s u b m).trans hb), State.accept_setBuffer]

/-- Settles O15: the answer is `(s.accept u).raise u .badArgument`, in which no operand and no buffer's contents occur. -/
theorem foreignCodeAnsweredBadArgument : Obligations.ForeignCodeAnsweredBadArgument := by
  unfold Obligations.ForeignCodeAnsweredBadArgument
  intro s u op x hf hb
  refine ⟨(s.accept u).raise u .badArgument, exec_foreign_command x hf hb, State.raise_control_self _ _ _,
    fun v hv => State.sameUnit_trans (State.sameUnit_accept s hv) (State.sameUnit_raise _ _ hv),
    (State.raise_agenda _ _ _).trans (State.accept_agenda _ _), fun x' => exec_foreign_command x' hf hb, ?_, ?_⟩
  · intro b m hout
    refine ⟨(State.raise_buffer_of_ne _ _ _ hout).trans (State.accept_buffer _ _ _), ?_⟩
    rw [exec_foreign_command_setBuffer x hf hb, State.raise_setBuffer_of_ne _ _ _ _ hout]
  · intro b m hout
    rw [exec_foreign_command_setBuffer x hf hb, State.raise_setBuffer_output _ _ _ _ hout]

end Sys2Proof.Machine

/-! VENC (O21): a pass emits the lowest 7-bit group, so an operation at work with `m` groups to go writes the `m` bytes of
the value's minimal varint and answers. -/

namespace Sys2Proof.Machine

/-! ### The number of groups -/

/-- `m` is the least integer at least 1 with `x < 2^(7m)` (40_varint.md R132). -/
structure leastGroups (x m : Nat) : Prop where
  one_le : 1 ≤ m
  lt : x < 2 ^ (7 * m)
  least : ∀ j, 1 ≤ j → x < 2 ^ (7 * j) → m ≤ j

theorem leastGroups_of_bounds {x m : Nat} (h1 : 1 ≤ m) (hlt : x < 2 ^ (7 * m)) (hge : m = 1 ∨ 2 ^ (7 * (m - 1)) ≤ x) :
    leastGroups x m := by
  refine ⟨h1, hlt, fun j hj hxj => ?_⟩
  obtain rfl | hge := hge
  · exact hj
  · have := (Nat.pow_lt_pow_iff_right (by omega)).mp (hge.trans_lt hxj)
    omega

/-- One group is all there is exactly where nothing is left above the lowest 7 bits. -/
theorem leastGroups.div_eq_zero_iff {x m : Nat} (h : leastGroups x (m + 1)) : x / 128 = 0 ↔ m = 0 := by
  constructor
  · intro hx
    have := h.least 1 le_rfl (by omega)
    omega
  · rintro rfl
    have := h.lt
    omega

theorem leastGroups.div {x m : Nat} (h : leastGroups x (m + 1)) (hm : m ≠ 0) : leastGroups (x / 128) m := by
  have hpow : ∀ j, 2 ^ (7 * (j + 1)) = 128 * 2 ^ (7 * j) := fun j => by ring
  refine ⟨by omega, ?_, fun j hj hx => ?_⟩
  · have := h.lt
    have := hpow m
    omega
  · have := h.least (j + 1) (by omega) (by have := hpow j; omega)
    omega

/-- The table of 30_encoding.md R91 counts the groups. -/
theorem leastGroups_varintLen (v : BitVec 64) : leastGroups v.toNat (varintLen v) := by
  have := v.isLt
  unfold varintLen
  split_ifs <;> exact leastGroups_of_bounds (by omega) (by omega) (by omega)

theorem varintLen_le (v : BitVec 64) : varintLen v ≤ 10 :=
  (leastGroups_varintLen v).least 10 (by omega) (v.isLt.trans_le (by norm_num))

/-! ### The bytes -/

/-- The `m` lowest 7-bit groups of `v` as bytes, the continuation bit set in all but the last. -/
def groupBytes (v : BitVec 64) (m : Nat) : List Byte :=
  (List.range m).map fun k => varintByteOf (decide (k + 1 < m)) (v.extractLsb' (7 * k) 7)

@[simp] theorem length_groupBytes (v : BitVec 64) (m : Nat) : (groupBytes v m).length = m := by simp [groupBytes]

@[simp] theorem length_varintBytes (v : BitVec 64) : (varintBytes v).length = varintLen v := length_groupBytes v _

theorem groupBytes_succ (v : BitVec 64) (m : Nat) :
    groupBytes v (m + 1) = varintByteOf (decide (m ≠ 0)) (v.extractLsb' 0 7) :: groupBytes (v >>> 7) m := by
  have hgroup : ∀ k, v.extractLsb' (7 * (k + 1)) 7 = (v >>> 7).extractLsb' (7 * k) 7 := fun k => by
    apply BitVec.eq_of_toNat_eq
    simp [BitVec.extractLsb'_toNat, ← Nat.shiftRight_add, Nat.mul_add, Nat.add_comm]
  simp [groupBytes, List.range_succ_eq_map, hgroup, Function.comp_def, Nat.pos_iff_ne_zero]

theorem getElem_groupBytes_toNat (v : BitVec 64) (m k : Nat) (hk : k < (groupBytes v m).length) :
    (groupBytes v m)[k].toNat = v.toNat / 2 ^ (7 * k) % 128 + (if k < m - 1 then 128 else 0) := by
  have hlast : k + 1 < m ↔ k < m - 1 := by omega
  simp [groupBytes, varintByteOf_toNat, BitVec.extractLsb'_toNat, Nat.shiftRight_eq_div_pow, hlast]

/-! ### The passes of VENC -/

/-- The pass that emits the first of `m + 1` groups. -/
theorem vencPass_of_leastGroups {w : VencRegs} {m : Nat} (h : leastGroups w.ve_v.toNat (m + 1)) :
    ((vencPass w).2.ve_v = 0 ↔ m = 0) ∧
      (vencPass w).1 = varintByteOf (decide (m ≠ 0)) (w.ve_v.extractLsb' 0 7) := by
  have hz : (vencPass w).2.ve_v = 0 ↔ m = 0 := by
    rw [← h.div_eq_zero_iff, ← vencPass_value, ← BitVec.toNat_inj]
    rfl
  exact ⟨hz, congrArg (varintByteOf · _) (decide_eq_decide.mpr (not_congr hz))⟩

/-- Where VENC, at work in `s` with `m` groups to go, ends: they are written at `ve_len` and up, and the unit has
answered. -/
def State.vencAnswered (s : State) (m : Nat) : State :=
  { s with ve := { s.ve with
      work := { ve_v := 0, ve_len := s.ve.work.ve_len + BitVec.ofNat 4 m }
      len := s.ve.work.ve_len + BitVec.ofNat 4 m
      sout := Memory.writeList s.ve.sout s.ve.work.ve_len.toNat (groupBytes s.ve.work.ve_v m) } }.respond
    .varintEncoder .ok

/-- With no group to go only the answer is left. -/
theorem State.vencAnswered_zero {s : State} (h : s.ve.work.ve_v = 0) :
    s.vencAnswered 0 = { s with ve := { s.ve with len := s.ve.work.ve_len } }.respond .varintEncoder .ok := by
  have hlen : s.ve.work.ve_len + BitVec.ofNat 4 0 = s.ve.work.ve_len := BitVec.add_zero _
  simp only [State.vencAnswered, hlen, ← h]
  rfl

/-- A pass brings VENC nearer to the same end. -/
theorem State.vencAnswered_of_pass {s t : State} {m : Nat} (hlen : s.ve.work.ve_len.toNat + 1 < 2 ^ 4)
    (hbyte : (vencPass s.ve.work).1 = varintByteOf (decide (m ≠ 0)) (s.ve.work.ve_v.extractLsb' 0 7))
    (ht : t = { s with ve := { s.ve with
      work := (vencPass s.ve.work).2
      sout := Memory.write s.ve.sout s.ve.work.ve_len.toNat (vencPass s.ve.work).1 } }) :
    t.vencAnswered m = s.vencAnswered (m + 1) := by
  have hcount : s.ve.work.ve_len + 1 + BitVec.ofNat 4 m = s.ve.work.ve_len + BitVec.ofNat 4 (m + 1) := by
    rw [BitVec.ofNat_add, BitVec.add_assoc, BitVec.add_comm (1 : BitVec 4)]
    rfl
  subst ht
  simp only [State.vencAnswered, groupBytes_succ, Memory.writeList, ← hbyte, ← hcount, ← toNat_add_one _ hlen]
  rfl

/-- VENC at work with `m` groups to go answers at its `m`-th step. -/
theorem advanceN_venc {m : Nat} {s : State} (hb : s.busy .varintEncoder = true)
    (hm : leastGroups s.ve.work.ve_v.toNat m) (hlen : s.ve.work.ve_len.toNat + m ≤ 15) :
    advanceN m .varintEncoder s = .next (s.vencAnswered m) := by
  induction m generalizing s with
  | zero => exact absurd hm.one_le (by omega)
  | succ m ih =>
    obtain ⟨hz, hbyte⟩ := vencPass_of_leastGroups hm
    have hadd : (s.ve.work.ve_len + 1).toNat = s.ve.work.ve_len.toNat + 1 := toNat_add_one _ (by omega)
    simp only [advanceN, advance_busy hb]
    obtain ⟨h0, he⟩ | ⟨h0, he⟩ := vencStep_cases s <;> rw [he]
    · obtain rfl := hz.mp h0
      rw [← State.vencAnswered_of_pass (by omega) hbyte rfl, State.vencAnswered_zero h0]
      rfl
    · rw [← State.vencAnswered_of_pass (by omega) hbyte rfl]
      refine ih hb ?_ ?_
      · exact (vencPass_value s.ve.work).symm ▸ hm.div (mt hz.mpr h0)
      · exact (congrArg (· + m) hadd).trans_le (by omega)

/-! ### The command -/

/-- The state in which VENC of `v`, accepted in `s`, has answered. -/
def State.afterVenc (s : State) (v : BitVec 64) : State :=
  (beginVenc v (s.accept .varintEncoder)).vencAnswered (varintLen v)

theorem exec_venc {s : State} (v : BitVec 64) (hb : s.busy .varintEncoder = false) :
    exec (.venc .varintEncoder v) s = .next (beginVenc v (s.accept .varintEncoder)) :=
  presented_own _ hb

theorem advanceN_beginVenc (s : State) (v : BitVec 64) :
    advanceN (varintLen v) .varintEncoder (beginVenc v (s.accept .varintEncoder)) = .next (s.afterVenc v) := by
  have hlen : 0 + varintLen v ≤ 15 := by have := varintLen_le v; omega
  exact advanceN_venc rfl (leastGroups_varintLen v) hlen

section afterVenc
variable (s : State) (v : BitVec 64)

theorem State.afterVenc_control : (s.afterVenc v).control .varintEncoder = answeredWith .ok := rfl

theorem State.afterVenc_len : (s.afterVenc v).ve.len = BitVec.ofNat 4 (varintLen v) :=
  BitVec.zero_add _

theorem State.afterVenc_len_toNat : (s.afterVenc v).ve.len.toNat = varintLen v := by
  have := varintLen_le v
  rw [State.afterVenc_len, BitVec.toNat_ofNat]
  omega

theorem State.afterVenc_sout : (s.afterVenc v).ve.sout = Memory.writeList s.ve.sout 0 (varintBytes v) := rfl

theorem State.afterVenc_othersUnchanged : s.othersUnchanged (s.afterVenc v) .varintEncoder := by
  refine ⟨fun u hu => State.sameUnit_trans (State.sameUnit_accept s hu) (State.sameUnit_trans ?_
    (State.sameUnit_respond _ .ok hu)), rfl, rfl⟩
  cases u <;> first | exact ⟨rfl, rfl⟩ | exact absurd rfl hu

theorem State.afterVenc_onlyStored : s.onlyStored (s.afterVenc v) .vencSout 0 (varintLen v) := by
  intro b a hout
  cases b
  case vencSout =>
    have ha : varintLen v ≤ a := by
      by_contra hlt
      exact hout ⟨rfl, Nat.zero_le a, by omega⟩
    rw [State.buffer, State.afterVenc_sout]
    refine Memory.read_writeList_outside _ _ (.inr ?_)
    rwa [length_varintBytes, Nat.zero_add]
  all_goals rfl

/-- The bytes of the response (40_varint.md R132). -/
theorem State.afterVenc_read {s : State} (hwf : Memory.wf s.ve.sout = true) {k : Nat} (hk : k < varintLen v) :
    (Memory.read (s.afterVenc v).ve.sout k).toNat =
      v.toNat / 2 ^ (7 * k) % 128 + (if k < varintLen v - 1 then 128 else 0) := by
  have hlen := varintLen_le v
  have hread := Memory.read_writeList_inside (varintBytes v) hwf (a := 0) (k := k)
    (by rw [length_varintBytes, Config.spaceSize]; omega)
    (by rwa [length_varintBytes])
  rw [State.afterVenc_sout, ← Nat.zero_add k, hread, Nat.zero_add]
  exact getElem_groupBytes_toNat v _ k _

end afterVenc

/-- Settles O21: the least number of groups is `varintLen v`, and VENC answers in its `varintLen v`-th step. -/
theorem vencAnswersMinimalVarint : Obligations.VencAnswersMinimalVarint := by
  unfold Obligations.VencAnswersMinimalVarint
  intro s v hb hwf
  obtain ⟨hpos, hlt, hleast⟩ := leastGroups_varintLen v
  exact ⟨_, s.afterVenc v, varintLen v, exec_venc v hb, ⟨_, le_rfl, advanceN_beginVenc s v⟩, hpos, hlt, hleast,
    s.afterVenc_control v, rfl, s.afterVenc_len_toNat v, fun k hk => State.afterVenc_read v hwf hk,
    s.afterVenc_othersUnchanged v, s.afterVenc_onlyStored v⟩

end Sys2Proof.Machine

/-! VDEC (O22): while the bytes go on the unit takes one in at each step, so its registers hold the sum of the payloads so far;
the first byte that does not go on brings the answer. -/

namespace Sys2Proof.Machine

/-! ### The bytes of a varint, and the registers after some of them -/

/-- The payloads of bytes 0 to `n - 1` of `f`, byte `k` shifted by `7k` (40_varint.md R136). -/
def varintSum (f : Nat → Byte) (n : Nat) : Nat := ∑ k ∈ Finset.range n, (f k).toNat % 128 * 2 ^ (7 * k)

theorem varintSum_succ (f : Nat → Byte) (n : Nat) :
    varintSum f (n + 1) = varintSum f n + (f n).toNat % 128 * 2 ^ (7 * n) := Finset.sum_range_succ _ n

theorem varintSum_lt (f : Nat → Byte) (n : Nat) : varintSum f n < 2 ^ (7 * n) := by
  induction n with
  | zero => exact Nat.one_pos
  | succ n ih =>
    have hpow : 2 ^ (7 * (n + 1)) = 128 * 2 ^ (7 * n) := by ring
    have hgroup : (f n).toNat % 128 * 2 ^ (7 * n) ≤ 127 * 2 ^ (7 * n) := Nat.mul_le_mul_right _ (by omega)
    rw [varintSum_succ]
    omega

/-- A varint decoder may take in byte `n` of `f`: at most ten bytes, and no payload bit above bit 63 (40_varint.md R135). -/
def varintFits (f : Nat → Byte) (n : Nat) : Prop := n < 10 ∧ ¬ (n = 9 ∧ 2 ≤ (payloadBits (f n)).toNat)

theorem varintSum_succ_lt {f : Nat → Byte} {n : Nat} (h : varintFits f n) : varintSum f (n + 1) < 2 ^ 64 := by
  obtain ⟨hn, hp⟩ := h
  by_cases h9 : n = 9
  · subst h9
    have hlow := varintSum_lt f 9
    rw [payloadBits_toNat] at hp
    rw [varintSum_succ]
    omega
  · exact (varintSum_lt f (n + 1)).trans_le (Nat.pow_le_pow_right (by omega) (by omega))

/-- A varint decoder's registers after bytes 0 to `n - 1` of `f`. -/
def varintRegs (f : Nat → Byte) (n : Nat) : VdecRegs :=
  { vd_acc := BitVec.ofNat 64 (varintSum f n), vd_n := BitVec.ofNat 4 n }

theorem varintRegs_n {n : Nat} (f : Nat → Byte) (hn : n ≤ 10) : (varintRegs f n).vd_n.toNat = n :=
  Nat.mod_eq_of_lt (by omega)

theorem varintRegs_acc {n : Nat} {f : Nat → Byte} (h : varintFits f n) :
    (varintRegs f (n + 1)).vd_acc.toNat = varintSum f (n + 1) :=
  Nat.mod_eq_of_lt (varintSum_succ_lt h)

/-- Taking in byte `n` after the bytes before it: the shifted payload lies above the bits there, so the OR is a sum. -/
theorem varintAbsorb_varintRegs {f : Nat → Byte} {n : Nat} (h : varintFits f n) :
    varintAbsorb (varintRegs f n) (payloadBits (f n)) = some (varintRegs f (n + 1)) := by
  have hn := varintRegs_n f h.1.le
  obtain ⟨h9, hp, -⟩ | ⟨-, he⟩ := varintAbsorb_cases (varintRegs f n) (payloadBits (f n))
  · exact absurd ⟨hn ▸ h9, hp⟩ h.2
  · have hsum := varintSum_succ_lt h
    have hlow := varintSum_lt f n
    rw [varintSum_succ] at hsum
    have hacc : (varintRegs f n).vd_acc.toNat = varintSum f n := Nat.mod_eq_of_lt (by omega)
    have hshift : ((payloadBits (f n)).setWidth 64 <<< (7 * n)).toNat = (f n).toNat % 128 * 2 ^ (7 * n) := by
      rw [BitVec.toNat_shiftLeft, BitVec.toNat_setWidth_of_le (by omega), payloadBits_toNat, Nat.shiftLeft_eq,
        Nat.mod_eq_of_lt (by omega)]
    have hor : (varintRegs f n).vd_acc ||| ((payloadBits (f n)).setWidth 64 <<< (7 * n)) =
        (varintRegs f (n + 1)).vd_acc := by
      apply BitVec.eq_of_toNat_eq
      rw [BitVec.toNat_or, hacc, hshift, varintRegs_acc h, varintSum_succ, Nat.or_comm, Nat.mul_comm,
        ← Nat.two_pow_add_eq_or_of_lt hlow, Nat.add_comm]
    rw [he, hn, hor]
    simp [varintRegs, BitVec.ofNat_add]

/-- Byte `n` of `avail` is taken in, and another one follows it. -/
structure varintGoesOn (f : Nat → Byte) (avail n : Nat) : Prop where
  fits : varintFits f n
  lt : n < avail
  cont : contBit (f n) = true

theorem contBit_eq_decide (b : Byte) : contBit b = decide (128 ≤ b.toNat) :=
  (BitVec.msb_eq_getLsbD_last b).symm.trans (BitVec.msb_eq_decide b)

/-- A varint of `n + 1` bytes: `n` bytes that go on, and one that does not. -/
theorem varintEndsAt_succ_iff {sin : Memory} {avail n : Nat} :
    varintEndsAt sin avail (n + 1) ↔ (∀ k, k < n → varintGoesOn (Memory.read sin) avail k) ∧
      varintFits (Memory.read sin) n ∧ n < avail ∧ contBit (Memory.read sin n) = false := by
  constructor
  · rintro ⟨-, h10, havail, hcont, hlast, htenth⟩
    refine ⟨fun k hk => ⟨⟨by omega, by omega⟩, by omega, hcont k (by omega)⟩, ⟨by omega, ?_⟩, by omega, hlast⟩
    rintro ⟨rfl, hp⟩
    rw [payloadBits_toNat] at hp
    have := htenth rfl
    omega
  · rintro ⟨hprev, ⟨hn, htenth⟩, hlt, hlast⟩
    refine ⟨by omega, hn, hlt, fun k hk => (hprev k (by omega)).cont, hlast, fun h10 => ?_⟩
    obtain rfl : n = 9 := by omega
    rw [payloadBits_toNat] at htenth
    rw [contBit_eq_decide, decide_eq_false_iff_not] at hlast
    omega

/-! ### The steps of VDEC -/

/-- VDEC, accepted in `s`, after taking in bytes 0 to `n - 1`. -/
def State.vdecTaken (s : State) (avail : BitVec 33) (n : Nat) : State :=
  ((s.accept .varintDecoder).latchVdec avail).setVdecRegs .standalone (varintRegs (Memory.read s.vd.sin) n)

/-- VDEC, accepted in `s`, after answering with a varint of `m` bytes. -/
def State.vdecAnswered (s : State) (avail : BitVec 33) (m : Nat) : State :=
  varintDone .standalone (varintRegs (Memory.read s.vd.sin) m) ((s.accept .varintDecoder).latchVdec avail)

theorem exec_vdec {s : State} (avail : BitVec 33) (hb : s.busy .varintDecoder = false) :
    exec (.vdec .varintDecoder avail) s = .next (s.vdecTaken avail 0) :=
  presented_own (fun s => s.latchVdec avail) hb

section steps
variable {s : State} {avail : BitVec 33} {n : Nat}

/-- A byte that may be taken in is. -/
theorem advance_vdecTaken_of_fits (hfits : varintFits (Memory.read s.vd.sin) n) (hlt : n < avail.toNat) :
    (contBit (Memory.read s.vd.sin n) = true ∧
      advance .varintDecoder (s.vdecTaken avail n) = .next (s.vdecTaken avail (n + 1))) ∨
    (contBit (Memory.read s.vd.sin n) = false ∧
      advance .varintDecoder (s.vdecTaken avail n) = .next (s.vdecAnswered avail (n + 1))) := by
  have hn : (s.vdecTaken avail n).vd.work.vd_n.toNat = n := varintRegs_n _ hfits.1.le
  have habs : varintAbsorb (s.vdecTaken avail n).vd.work (payloadBits (Memory.read s.vd.sin n)) =
      some (varintRegs (Memory.read s.vd.sin) (n + 1)) := varintAbsorb_varintRegs hfits
  have hcases := vdecStep_cases (s.vdecTaken avail n)
  rw [hn, show (s.vdecTaken avail n).vd.sin = s.vd.sin from rfl, show (s.vdecTaken avail n).vd.avail = avail from rfl,
    habs] at hcases
  rw [advance_busy rfl]
  obtain ⟨(h10 | hle) | hnone, -⟩ | ⟨-, -, w, hw, h⟩ := hcases
  · exact absurd h10 hfits.1.ne
  · omega
  · cases hnone
  · cases hw
    exact h

/-- Where no byte is left, or the next one may not be taken in, VDEC raises `MalformedHeader`. -/
theorem advance_vdecTaken_of_stuck (hn : n ≤ 10) (h : ¬ (varintFits (Memory.read s.vd.sin) n ∧ n < avail.toNat)) :
    advance .varintDecoder (s.vdecTaken avail n) =
      .next ((s.vdecTaken avail n).raise .varintDecoder .malformedHeader) := by
  have hreg : (s.vdecTaken avail n).vd.work.vd_n.toNat = n := varintRegs_n _ hn
  rw [advance_busy rfl]
  obtain ⟨-, he⟩ | ⟨h10, hlt, w, hw, -⟩ := vdecStep_cases (s.vdecTaken avail n)
  · exact he
  · rw [hreg] at h10 hw hlt
    obtain ⟨-, -, hnone⟩ | ⟨hfit, -⟩ := varintAbsorb_cases (s.vdecTaken avail n).vd.work
      (payloadBits (Memory.read s.vd.sin n))
    · exact absurd (hw.symm.trans hnone) (by simp)
    · rw [hreg] at hfit
      exact absurd ⟨⟨by omega, hfit⟩, hlt⟩ h

/-- The first `n` bytes, all with another to follow, take `n` steps. -/
theorem advanceN_vdecTaken (h : ∀ k, k < n → varintGoesOn (Memory.read s.vd.sin) avail.toNat k) :
    advanceN n .varintDecoder (s.vdecTaken avail 0) = .next (s.vdecTaken avail n) := by
  induction n with
  | zero => rfl
  | succ n ih =>
    obtain ⟨hfits, hlt, hc⟩ := h n (by omega)
    rw [advanceN_add n 1 _ _ _ (ih fun k hk => h k (by omega))]
    obtain ⟨-, he⟩ | ⟨hc', -⟩ := advance_vdecTaken_of_fits hfits hlt
    · simp only [advanceN, he]
    · exact absurd (hc.symm.trans hc') (by decide)

/-- A varint of `m` bytes is answered in the `m`-th step. -/
theorem advanceN_vdec_ok {m : Nat} (h : varintEndsAt s.vd.sin avail.toNat m) :
    advanceN m .varintDecoder (s.vdecTaken avail 0) = .next (s.vdecAnswered avail m) := by
  obtain ⟨n, rfl⟩ : ∃ n, m = n + 1 := ⟨m - 1, by have := h.1; omega⟩
  obtain ⟨hprev, hfits, hlt, hlast⟩ := varintEndsAt_succ_iff.mp h
  rw [advanceN_add n 1 _ _ _ (advanceN_vdecTaken hprev)]
  obtain ⟨hc, -⟩ | ⟨-, he⟩ := advance_vdecTaken_of_fits hfits hlt
  · exact absurd (hlast.symm.trans hc) (by decide)
  · simp only [advanceN, he]

/-- With no varint there the first byte that does not go on is one that may not be taken in. -/
theorem advanceN_vdec_malformed (h : ∀ m, ¬ varintEndsAt s.vd.sin avail.toNat m) :
    ∃ n, n ≤ 10 ∧ advanceN (n + 1) .varintDecoder (s.vdecTaken avail 0) =
      .next ((s.vdecTaken avail n).raise .varintDecoder .malformedHeader) := by
  classical
  have hex : ∃ n, ¬ varintGoesOn (Memory.read s.vd.sin) avail.toNat n := ⟨10, fun hgo => by have := hgo.fits.1; omega⟩
  have hprev : ∀ k, k < Nat.find hex → varintGoesOn (Memory.read s.vd.sin) avail.toNat k :=
    fun k hk => not_not.mp (Nat.find_min hex hk)
  have hle : Nat.find hex ≤ 10 := Nat.find_min' hex fun hgo => by have := hgo.fits.1; omega
  refine ⟨Nat.find hex, hle, ?_⟩
  rw [advanceN_add _ 1 _ _ _ (advanceN_vdecTaken hprev)]
  have hstuck : ¬ (varintFits (Memory.read s.vd.sin) (Nat.find hex) ∧ Nat.find hex < avail.toNat) := by
    rintro ⟨hfits, hlt⟩
    cases hc : contBit (Memory.read s.vd.sin (Nat.find hex)) with
    | true => exact Nat.find_spec hex ⟨hfits, hlt, hc⟩
    | false => exact h _ (varintEndsAt_succ_iff.mpr ⟨hprev, hfits, hlt, hc⟩)
  simp only [advanceN, advance_vdecTaken_of_stuck hle hstuck]

end steps

/-! ### The frame and the response -/

section frame
variable (s : State) (avail : BitVec 33) (n : Nat)

theorem State.sameUnit_vdecTaken {u : UnitId} (hu : u ≠ .varintDecoder) : s.sameUnit (s.vdecTaken avail n) u := by
  refine State.sameUnit_trans (State.sameUnit_accept s hu) (State.sameUnit_trans ?_
    (State.sameUnit_setVdecRegs _ .standalone _ hu))
  cases u <;> first | exact ⟨rfl, rfl⟩ | exact absurd rfl hu

theorem State.vdecTaken_buffer (b : Buffer) : (s.vdecTaken avail n).buffer b = s.buffer b := by
  rw [State.vdecTaken, State.setVdecRegs_buffer, State.latchVdec_buffer, State.accept_buffer]

theorem State.sameUnit_vdecAnswered {u : UnitId} (hu : u ≠ .varintDecoder) : s.sameUnit (s.vdecAnswered avail n) u :=
  State.sameUnit_trans (s.sameUnit_vdecTaken avail n hu) (sameUnit_varintDone .standalone
    (varintRegs (Memory.read s.vd.sin) n) (s.vdecTaken avail n) hu)

theorem State.vdecAnswered_buffer (b : Buffer) : (s.vdecAnswered avail n).buffer b = s.buffer b := by
  rw [State.vdecAnswered, varintDone_buffer, State.latchVdec_buffer, State.accept_buffer]

end frame

/-- The results of a response OK (40_varint.md R136). -/
theorem State.vdecAnswered_results {s : State} {avail : BitVec 33} {m : Nat}
    (h : varintEndsAt s.vd.sin avail.toNat m) :
    (s.vdecAnswered avail m).control .varintDecoder = answeredWith .ok ∧
      (s.vdecAnswered avail m).vd.consumed.toNat = m ∧
      (s.vdecAnswered avail m).vd.value.toNat = varintSum (Memory.read s.vd.sin) m := by
  obtain ⟨n, rfl⟩ : ∃ n, m = n + 1 := ⟨m - 1, by have := h.1; omega⟩
  obtain ⟨-, hfits, -, -⟩ := varintEndsAt_succ_iff.mp h
  exact ⟨rfl, varintRegs_n (Memory.read s.vd.sin) hfits.1, varintRegs_acc hfits⟩

/-- Settles O22: a varint of `m` bytes is answered in the `m`-th step; with none, the bytes that go on are followed by one
that may not be taken in. -/
theorem vdecAcceptsExactlyVarints : Obligations.VdecAcceptsExactlyVarints := by
  unfold Obligations.VdecAcceptsExactlyVarints
  intro s avail hb
  by_cases hm : ∃ m, varintEndsAt s.vd.sin avail.toNat m
  · obtain ⟨m, hm⟩ := hm
    obtain ⟨hctl, hconsumed, hvalue⟩ := State.vdecAnswered_results hm
    refine ⟨_, s.vdecAnswered avail m, exec_vdec avail hb, ⟨m, by have := hm.2.1; omega, advanceN_vdec_ok hm⟩,
      fun u hu => s.sameUnit_vdecAnswered avail m hu, rfl, fun b a => ?_, rfl, .inl ⟨m, hm, hctl, hconsumed, hvalue⟩⟩
    rw [State.vdecAnswered_buffer]
  · push Not at hm
    obtain ⟨n, hn, he⟩ := advanceN_vdec_malformed hm
    refine ⟨_, _, exec_vdec avail hb, ⟨n + 1, by omega, he⟩, fun u hu =>
      State.sameUnit_trans (s.sameUnit_vdecTaken avail n hu) (State.sameUnit_raise _ _ hu), rfl, fun b a => ?_, rfl,
      .inr ⟨hm, State.raise_control_self _ _ _⟩⟩
    rw [State.raise_buffer_of_ne _ _ _ (by simp [outputOf]), State.vdecTaken_buffer]

end Sys2Proof.Machine

/-! The round trip of VENC and VDEC (O23): the bytes VENC answers are a varint whose payloads sum up to the value. -/

namespace Sys2Proof.Machine

/-- A unit that has come to rest comes to no second state of rest. -/
theorem advanceN_unique_of_idle {j k : Nat} {u : UnitId} {s t r : State} (ht : advanceN j u s = .next t)
    (hr : advanceN k u s = .next r) (hbt : t.busy u = false) (hbr : r.busy u = false) : t = r := by
  have ht' := advanceN_add j k u s t ht
  have hr' := advanceN_add k j u s r hr
  rw [advanceN_idle k hbt] at ht'
  rw [advanceN_idle j hbr, Nat.add_comm, ht'] at hr'
  exact Host.Outcome.next.inj hr'

/-- The bytes of the minimal varint of `v`, as 40_varint.md R132 gives them, stand at the front of `sin`. -/
def holdsVarint (sin : Memory) (v : BitVec 64) : Prop :=
  ∀ k, k < varintLen v → (Memory.read sin k).toNat =
    v.toNat / 2 ^ (7 * k) % 128 + (if k < varintLen v - 1 then 128 else 0)

section roundTrip
variable {sin : Memory} {v : BitVec 64}

theorem varintEndsAt_of_holdsVarint (h : holdsVarint sin v) {avail : Nat} (ha : varintLen v ≤ avail) :
    varintEndsAt sin avail (varintLen v) := by
  have hpos := (leastGroups_varintLen v).one_le
  refine ⟨hpos, varintLen_le v, ha, fun k hk => ?_, ?_, fun h10 => ?_⟩
  · have := h k (by omega)
    rw [if_pos (by omega)] at this
    rw [contBit_eq_decide, decide_eq_true_eq]
    omega
  · have := h (varintLen v - 1) (by omega)
    rw [if_neg (by omega)] at this
    rw [contBit_eq_decide, decide_eq_false_iff_not]
    omega
  · have := h 9 (by omega)
    rw [if_neg (by omega)] at this
    omega

/-- The payloads of the bytes of `v` sum up to `v`. -/
theorem varintSum_of_holdsVarint (h : holdsVarint sin v) : varintSum (Memory.read sin) (varintLen v) = v.toNat := by
  have hmod : ∀ n, n ≤ varintLen v → varintSum (Memory.read sin) n = v.toNat % 2 ^ (7 * n) := fun n => by
    induction n with
    | zero => exact fun _ => (Nat.mod_one _).symm
    | succ n ih =>
      intro hn
      have hbyte : (Memory.read sin n).toNat % 128 = v.toNat / 2 ^ (7 * n) % 128 := by
        rw [h n hn]; split <;> omega
      rw [varintSum_succ, ih (by omega), hbyte, Nat.mul_succ, Nat.pow_add, Nat.mod_mul,
        Nat.mul_comm (_ % 128)]
  rw [hmod _ le_rfl, Nat.mod_eq_of_lt (leastGroups_varintLen v).lt]

end roundTrip

/-- Settles O23: VENC's bytes are a varint that VDEC accepts and whose payloads sum up to `v`; the bytes `80 00` decode to 0,
whose own varint is one byte. -/
theorem vdecUndoesVenc : Obligations.VdecUndoesVenc := by
  unfold Obligations.VdecUndoesVenc
  refine ⟨?_, [0x80, 0x00], 0, 2, by decide, by decide⟩
  intro s₁ t₁ r₁ s₂ k v avail hb₁ hwf ht₁ hr₁ hok hb₂ havail hbytes
  obtain rfl := Host.Outcome.next.inj ((exec_venc v hb₁).symm.trans ht₁)
  obtain rfl : s₁.afterVenc v = r₁ :=
    advanceN_unique_of_idle (advanceN_beginVenc s₁ v) hr₁ rfl (congrArg Control.busy hok)
  rw [State.afterVenc_len_toNat] at havail hbytes
  have hholds : holdsVarint s₂.vd.sin v := fun a ha => by rw [hbytes a ha, State.afterVenc_read v hwf ha]
  have hends := varintEndsAt_of_holdsVarint hholds havail
  obtain ⟨hctl, -, hvalue⟩ := State.vdecAnswered_results hends
  refine ⟨_, s₂.vdecAnswered avail (varintLen v), exec_vdec avail hb₂,
    ⟨varintLen v, varintLen_le v, advanceN_vdec_ok hends⟩, hctl, ?_, (s₁.afterVenc_len v).symm⟩
  exact BitVec.eq_of_toNat_eq (hvalue.trans (varintSum_of_holdsVarint hholds))

end Sys2Proof.Machine

/-! The number of a packed group (O28): `P'` is built up value by value, and a value decides no bit below its own
place; so the fields of `P'` are the values where these fit, and the fields of a number make up the number. -/

namespace Sys2Proof

/-! ### Groups -/

/-- A group is known by its eight values. -/
theorem Group.ext_at {g h : Group} (heq : ∀ k, k < 8 → g.at k = h.at k) : g = h := by
  apply Vector.ext
  intro k hk
  simpa [Group.at, hk] using heq k hk

theorem unpackGroup_at (bw : Nat) (bs : List Byte) {k : Nat} (hk : k < 8) :
    (unpackGroup bw bs).at k = unpackValue bw bs k := by
  interval_cases k <;> rfl

/-! ### The number of the values below an index -/

/-- The OR of values 0 to `n - 1` of a group, value `k` shifted by `k * bw`. -/
def packPrefix (bw : Nat) (g : Group) (n : Nat) : Nat :=
  (List.range n).foldl (fun p k => p ||| ((g.at k).toNat <<< (k * bw))) 0

theorem packPrefix_zero (bw : Nat) (g : Group) : packPrefix bw g 0 = 0 := rfl

theorem packPrefix_eight (bw : Nat) (g : Group) : packPrefix bw g 8 = packNumber bw g := rfl

theorem packPrefix_succ (bw : Nat) (g : Group) (n : Nat) :
    packPrefix bw g (n + 1) = packPrefix bw g n ||| ((g.at n).toNat <<< (n * bw)) := by
  simp [packPrefix, List.range_succ]

/-- Value `n` and those after it decide no bit below bit `n * bw`. -/
theorem packPrefix_mod (bw : Nat) (g : Group) {m n : Nat} (h : n ≤ m) :
    packPrefix bw g m % 2 ^ (n * bw) = packPrefix bw g n % 2 ^ (n * bw) := by
  induction m, h using Nat.le_induction with
  | base => rfl
  | succ m hm ih =>
    have hdvd : 2 ^ (n * bw) ∣ (g.at m).toNat <<< (m * bw) := by
      rw [Nat.shiftLeft_eq]
      exact Dvd.dvd.mul_left (Nat.pow_dvd_pow 2 (Nat.mul_le_mul_right bw hm)) _
    rw [packPrefix_succ, Nat.or_mod_two_pow, Nat.mod_eq_zero_of_dvd hdvd, Nat.or_zero, ih]

/-- Bits below the place of value `n` are those of the values before it. -/
theorem packPrefix_field (bw : Nat) (g : Group) {m n a b : Nat} (h : n ≤ m) (hab : a + b ≤ n * bw) :
    packPrefix bw g m / 2 ^ a % 2 ^ b = packPrefix bw g n / 2 ^ a % 2 ^ b := by
  have hdvd : 2 ^ a * 2 ^ b ∣ 2 ^ (n * bw) := by
    rw [← Nat.pow_add]
    exact Nat.pow_dvd_pow 2 hab
  rw [← Nat.mod_mul_right_div_self, ← Nat.mod_mod_of_dvd _ hdvd, packPrefix_mod bw g h, Nat.mod_mod_of_dvd _ hdvd,
    Nat.mod_mul_right_div_self]

/-- The values below index `n` stay below eight bits past the place of value `n`. -/
theorem packPrefix_lt (bw : Nat) (g : Group) (n : Nat) : packPrefix bw g n < 2 ^ (n * bw + 8) := by
  induction n with
  | zero => simp [packPrefix_zero]
  | succ n ih =>
    have hvalue : (g.at n).toNat <<< (n * bw) < 2 ^ (n * bw + 8) := by
      rw [Nat.shiftLeft_eq, Nat.mul_comm, Nat.pow_add]
      exact Nat.mul_lt_mul_of_pos_left (g.at n).isLt (Nat.two_pow_pos _)
    rw [packPrefix_succ]
    exact (Nat.or_lt_two_pow ih hvalue).trans_le (Nat.pow_le_pow_right two_pos (by rw [Nat.succ_mul]; omega))

/-- Above a number that lies below its place, a value is added. -/
theorem packPrefix_succ_of_lt {bw : Nat} {g : Group} {n : Nat} (h : packPrefix bw g n < 2 ^ (n * bw)) :
    packPrefix bw g (n + 1) = 2 ^ (n * bw) * (g.at n).toNat + packPrefix bw g n := by
  rw [packPrefix_succ, Nat.shiftLeft_eq, Nat.or_comm, Nat.mul_comm, ← Nat.two_pow_add_eq_or_of_lt h]

/-! ### Values that fit -/

/-- Every value of the group is below `2^bw` (41_bitpack.md R163). -/
def Group.fits (bw : Nat) (g : Group) : Prop := ∀ k, k < 8 → (g.at k).toNat < 2 ^ bw

section fits
variable {bw : Nat} {g : Group}

theorem packPrefix_lt_of_fits (hg : g.fits bw) {n : Nat} (hn : n ≤ 8) : packPrefix bw g n < 2 ^ (n * bw) := by
  induction n with
  | zero => simp [packPrefix_zero]
  | succ n ih =>
    have hlow := ih (by omega)
    rw [packPrefix_succ_of_lt hlow, Nat.succ_mul, Nat.pow_add]
    calc 2 ^ (n * bw) * (g.at n).toNat + packPrefix bw g n
        < 2 ^ (n * bw) * ((g.at n).toNat + 1) := by rw [Nat.mul_succ]; omega
      _ ≤ 2 ^ (n * bw) * 2 ^ bw := Nat.mul_le_mul_left _ (hg n hn)

theorem packNumber_lt_of_fits (hg : g.fits bw) : packNumber bw g < 2 ^ (8 * bw) := packPrefix_lt_of_fits hg le_rfl

/-- The fields of the number of values that fit are the values. -/
theorem packNumber_field_of_fits (hg : g.fits bw) {k : Nat} (hk : k < 8) :
    packNumber bw g / 2 ^ (k * bw) % 2 ^ bw = (g.at k).toNat := by
  have hlow := packPrefix_lt_of_fits hg hk.le
  calc packNumber bw g / 2 ^ (k * bw) % 2 ^ bw
      = packPrefix bw g (k + 1) / 2 ^ (k * bw) % 2 ^ bw :=
        packPrefix_field bw g (show k + 1 ≤ 8 from hk) (Nat.succ_mul k bw).ge
    _ = (g.at k).toNat := by
        rw [packPrefix_succ_of_lt hlow, Nat.mul_add_div (Nat.two_pow_pos _), Nat.div_eq_of_lt hlow, Nat.add_zero,
          Nat.mod_eq_of_lt (hg k hk)]

end fits

/-! ### The bytes of a number -/

/-- The `m` lowest bytes of `x`, little-endian. -/
def numberBytes (x m : Nat) : List Byte := (List.range m).map fun j => BitVec.ofNat 8 (x / 2 ^ (8 * j))

theorem packBytes_eq_numberBytes (bw : Nat) (g : Group) : packBytes bw g = numberBytes (packNumber bw g) bw := by
  simp [packBytes, numberBytes, Nat.shiftRight_eq_div_pow]

@[simp] theorem length_packBytes (bw : Nat) (g : Group) : (packBytes bw g).length = bw := by simp [packBytes]

theorem getElem_packBytes_toNat (bw : Nat) (g : Group) (j : Nat) (hj : j < (packBytes bw g).length) :
    (packBytes bw g)[j].toNat = packNumber bw g / 2 ^ (8 * j) % 256 := by
  simp [packBytes, Nat.shiftRight_eq_div_pow]

theorem numberBytes_succ (x m : Nat) : numberBytes x (m + 1) = BitVec.ofNat 8 x :: numberBytes (x / 256) m := by
  have hbyte : ∀ j, x / 2 ^ (8 * (j + 1)) = x / 256 / 2 ^ (8 * j) := fun j => by
    rw [Nat.div_div_eq_div_mul, Nat.mul_succ, Nat.pow_add, Nat.mul_comm]
  simp [numberBytes, List.range_succ_eq_map, hbyte, Function.comp_def]

/-- The number of the `m` lowest bytes of `x`. -/
theorem unpackNumber_numberBytes (x m : Nat) : unpackNumber (numberBytes x m) = x % 2 ^ (8 * m) := by
  induction m generalizing x with
  | zero => exact (Nat.mod_one x).symm
  | succ m ih =>
    rw [numberBytes_succ, unpackNumber, ih, BitVec.toNat_ofNat, Nat.mul_succ, Nat.pow_add,
      Nat.mul_comm _ (2 ^ 8), Nat.mod_mul]

theorem numberBytes_unpackNumber (bs : List Byte) : numberBytes (unpackNumber bs) bs.length = bs := by
  induction bs with
  | nil => rfl
  | cons b bs ih =>
    have hlow : BitVec.ofNat 8 (b.toNat + 256 * unpackNumber bs) = b := by
      apply BitVec.eq_of_toNat_eq
      rw [BitVec.toNat_ofNat]
      omega
    have hhigh : (b.toNat + 256 * unpackNumber bs) / 256 = unpackNumber bs := by omega
    rw [unpackNumber, List.length_cons, numberBytes_succ, hlow, hhigh, ih]

theorem unpackNumber_lt (bs : List Byte) : unpackNumber bs < 2 ^ (8 * bs.length) := by
  have h := unpackNumber_numberBytes (unpackNumber bs) bs.length
  rw [numberBytes_unpackNumber] at h
  exact h.trans_lt (Nat.mod_lt _ (Nat.two_pow_pos _))

/-! ### The values unpacked -/

/-- A value unpacked is a field of the number of the bytes (41_bitpack.md R168). -/
theorem unpackGroup_at_toNat {bw : Nat} (hbw : bw ≤ 8) {bs : List Byte} (hlen : bs.length = bw) {k : Nat}
    (hk : k < 8) : ((unpackGroup bw bs).at k).toNat = unpackNumber bs / 2 ^ (k * bw) % 2 ^ bw := by
  have hfield : unpackNumber bs / 2 ^ (k * bw) % 2 ^ bw < 2 ^ 8 :=
    (Nat.mod_lt _ (Nat.two_pow_pos bw)).trans_le (Nat.pow_le_pow_right two_pos hbw)
  rw [unpackGroup_at bw bs hk, unpackValue, List.take_of_length_le hlen.le, Nat.shiftRight_eq_div_pow,
    BitVec.toNat_ofNat, Nat.mod_eq_of_lt hfield]

theorem unpackGroup_fits {bw : Nat} (hbw : bw ≤ 8) {bs : List Byte} (hlen : bs.length = bw) :
    (unpackGroup bw bs).fits bw := fun k hk => by
  rw [unpackGroup_at_toNat hbw hlen hk]
  exact Nat.mod_lt _ (Nat.two_pow_pos bw)

/-- Packing the fields of a number builds up the number. -/
theorem packNumber_unpackGroup {bw : Nat} (hbw : bw ≤ 8) {bs : List Byte} (hlen : bs.length = bw) :
    packNumber bw (unpackGroup bw bs) = unpackNumber bs := by
  have hfields : ∀ n, n ≤ 8 → packPrefix bw (unpackGroup bw bs) n = unpackNumber bs % 2 ^ (n * bw) := fun n => by
    induction n with
    | zero => simp [packPrefix_zero, Nat.mod_one]
    | succ n ih =>
      intro hn
      have hlow := packPrefix_lt_of_fits (unpackGroup_fits hbw hlen) (show n ≤ 8 by omega)
      rw [packPrefix_succ_of_lt hlow, ih (by omega), unpackGroup_at_toNat hbw hlen hn, Nat.succ_mul, Nat.pow_add,
        Nat.mod_mul, Nat.add_comm]
  rw [← packPrefix_eight, hfields 8 le_rfl, ← hlen, Nat.mod_eq_of_lt (unpackNumber_lt bs)]

/-- The fields of `P'`, whatever the values (41_bitpack.md R165). -/
theorem unpackGroup_packBytes_at {bw : Nat} (hbw : bw ≤ 8) (g : Group) {k : Nat} (hk : k < 8) :
    ((unpackGroup bw (packBytes bw g)).at k).toNat =
      packNumber bw g % 2 ^ (8 * bw) / 2 ^ (k * bw) % 2 ^ bw := by
  rw [unpackGroup_at_toNat hbw (length_packBytes bw g) hk, packBytes_eq_numberBytes, unpackNumber_numberBytes]

theorem unpackGroup_packBytes_of_fits {bw : Nat} (hbw : bw ≤ 8) {g : Group} (hg : g.fits bw) :
    unpackGroup bw (packBytes bw g) = g := by
  refine Group.ext_at fun k hk => BitVec.eq_of_toNat_eq ?_
  rw [unpackGroup_packBytes_at hbw g hk, Nat.mod_eq_of_lt (packNumber_lt_of_fits hg),
    packNumber_field_of_fits hg hk]

theorem packBytes_unpackGroup {bw : Nat} (hbw : bw ≤ 8) {bs : List Byte} (hlen : bs.length = bw) :
    packBytes bw (unpackGroup bw bs) = bs := by
  rw [packBytes_eq_numberBytes, packNumber_unpackGroup hbw hlen, ← hlen, numberBytes_unpackNumber]

/-- Values that come back fit. -/
theorem fits_of_unpackGroup_packBytes {bw : Nat} (hbw : bw ≤ 8) {g : Group}
    (h : unpackGroup bw (packBytes bw g) = g) : g.fits bw :=
  h ▸ unpackGroup_fits hbw (length_packBytes bw g)

end Sys2Proof

namespace Sys2Proof.Machine

/-- Settles O28: unpacking gives the fields of `P'`, which are the values exactly where these fit; and the fields of a
number make up the number. -/
theorem packAndUnpackAreInverse : Obligations.PackAndUnpackAreInverse := by
  unfold Obligations.PackAndUnpackAreInverse
  intro bw _ hbw
  refine ⟨fun g hg => unpackGroup_packBytes_of_fits hbw hg, fun bs hlen => packBytes_unpackGroup hbw hlen,
    fun g => ⟨fun k hk => unpackGroup_packBytes_at hbw g hk, ?_⟩⟩
  rintro ⟨k, hk, hbig⟩ heq
  exact (fits_of_unpackGroup_packBytes hbw heq k hk).not_ge hbig

end Sys2Proof.Machine


/-! PACK (O25): after `n` passes the bytes complete so far are out, and the accumulator holds the rest of the number
of the first `n` values. -/

namespace Sys2Proof.Machine

theorem Memory.writeList_append (m : Memory) (a : Nat) (bs cs : List Byte) :
    Memory.writeList m a (bs ++ cs) = Memory.writeList (Memory.writeList m a bs) (a + bs.length) cs := by
  induction bs generalizing m a with
  | nil => rfl
  | cons b bs ih =>
    rw [List.cons_append, Memory.writeList, ih, List.length_cons, Nat.add_comm bs.length, ← Nat.add_assoc]
    rfl

/-! ### The passes of PACK -/

/-- Dividing whole bytes off a shift leaves the shift inside a byte. -/
theorem shiftLeft_div_place (v t : Nat) : v <<< t / 2 ^ (8 * (t / 8)) = v <<< (t % 8) := by
  calc v <<< t / 2 ^ (8 * (t / 8))
      = v <<< (t % 8 + 8 * (t / 8)) / 2 ^ (8 * (t / 8)) := by rw [Nat.mod_add_div]
    _ = v <<< (t % 8) := by rw [Nat.shiftLeft_add, ← Nat.shiftRight_eq_div_pow, Nat.shiftLeft_shiftRight]

/-- A register that loses no bit at the top shifts right as its number does. -/
theorem ofNat_ushiftRight_of_lt {w x : Nat} (k : Nat) (hx : x < 2 ^ w) :
    BitVec.ofNat w x >>> k = BitVec.ofNat w (x / 2 ^ k) := by
  apply BitVec.eq_of_toNat_eq
  rw [BitVec.toNat_ushiftRight, BitVec.toNat_ofNat, BitVec.toNat_ofNat, Nat.shiftRight_eq_div_pow, Nat.mod_eq_of_lt hx,
    Nat.mod_eq_of_lt ((Nat.div_le_self _ _).trans_lt hx)]

/-- A packer's registers after taking in values 0 to `n - 1`. -/
def packRegs (bw : Nat) (g : Group) (n : Nat) : PackRegs :=
  { bp_acc := BitVec.ofNat 32 (packPrefix bw g n / 2 ^ (8 * (n * bw / 8)))
    bp_nbits := BitVec.ofNat 4 (n * bw % 8)
    bp_k := BitVec.ofNat 4 n
    bp_j := BitVec.ofNat 4 (n * bw / 8) }

/-- The bytes complete after values 0 to `n - 1`. -/
def packedBytes (bw : Nat) (g : Group) (n : Nat) : List Byte := (packBytes bw g).take (n * bw / 8)

section pass
variable {bw : Nat} {g : Group} {n : Nat}

theorem packRegs_k_toNat (hn : n ≤ 8) : (packRegs bw g n).bp_k.toNat = n := Nat.mod_eq_of_lt (by omega)

theorem packRegs_j_toNat (hbw : bw ≤ 8) (hn : n ≤ 8) : (packRegs bw g n).bp_j.toNat = n * bw / 8 := by
  have := Nat.mul_le_mul hn hbw
  exact Nat.mod_eq_of_lt (by omega)

theorem packRegs_zero : packRegs bw g 0 = {} := by simp [packRegs, packPrefix_zero]

theorem packedBytes_zero : packedBytes bw g 0 = [] := by simp [packedBytes]

theorem length_packedBytes (hn : n ≤ 8) : (packedBytes bw g n).length = n * bw / 8 := by
  have := Nat.mul_le_mul_right bw hn
  rw [packedBytes, List.length_take, length_packBytes]
  omega

/-- The byte that value `n` completes. -/
theorem packedBytes_succ_of_full (hn : n < 8) (hfull : (n + 1) * bw / 8 = n * bw / 8 + 1) :
    packedBytes bw g (n + 1) =
      packedBytes bw g n ++ [BitVec.ofNat 8 (packPrefix bw g (n + 1) / 2 ^ (8 * (n * bw / 8)))] := by
  have hplace := Nat.mul_le_mul_right bw (show n + 1 ≤ 8 by omega)
  have hlt : n * bw / 8 < (packBytes bw g).length := by rw [length_packBytes]; omega
  have hlow : packNumber bw g / 2 ^ (8 * (n * bw / 8)) % 2 ^ 8 =
      packPrefix bw g (n + 1) / 2 ^ (8 * (n * bw / 8)) % 2 ^ 8 :=
    packPrefix_field bw g (show n + 1 ≤ 8 by omega) (by omega)
  rw [packedBytes, hfull, List.take_succ_eq_append_getElem hlt, packedBytes]
  congr 2
  apply BitVec.eq_of_toNat_eq
  exact (getElem_packBytes_toNat bw g _ hlt).trans (hlow.trans (BitVec.toNat_ofNat _ _).symm)

/-- Bits not yet emitted, with at most one value more taken in, number less than 32. -/
theorem packPrefix_div_lt {m : Nat} (h : m * bw ≤ n * bw + 8) :
    packPrefix bw g m / 2 ^ (8 * (n * bw / 8)) < 2 ^ 32 := by
  refine Nat.div_lt_of_lt_mul ((packPrefix_lt bw g m).trans_le ?_)
  rw [← Nat.pow_add]
  exact Nat.pow_le_pow_right two_pos (by omega)

/-- Value `n` lands in the accumulator above the bits buffered there. -/
theorem packRegs_acc_or_value :
    (packRegs bw g n).bp_acc ||| ((g.at n).setWidth 32 <<< (packRegs bw g n).bp_nbits.toNat) =
      BitVec.ofNat 32 (packPrefix bw g (n + 1) / 2 ^ (8 * (n * bw / 8))) := by
  have hnbits : (packRegs bw g n).bp_nbits.toNat = n * bw % 8 := Nat.mod_eq_of_lt (by omega)
  have hvalue : (g.at n).setWidth 32 <<< (n * bw % 8) = BitVec.ofNat 32 ((g.at n).toNat <<< (n * bw % 8)) := by
    apply BitVec.eq_of_toNat_eq
    rw [BitVec.toNat_shiftLeft, BitVec.toNat_setWidth_of_le (by omega), BitVec.toNat_ofNat]
  rw [hnbits, packPrefix_succ, Nat.or_div_two_pow, shiftLeft_div_place, BitVec.ofNat_or, hvalue]
  rfl

/-- A pass takes in value `n`, and emits the byte it completes. -/
theorem packPass_packRegs (hbw : bw ≤ 8) (hn : n < 8) :
    (packPass bw (g.at n) (packRegs bw g n)).2 = packRegs bw g (n + 1) ∧
      packedBytes bw g (n + 1) = packedBytes bw g n ++ (packPass bw (g.at n) (packRegs bw g n)).1.toList := by
  have hplace : (n + 1) * bw = n * bw + bw := Nat.succ_mul n bw
  have hnbits : (packRegs bw g n).bp_nbits + BitVec.ofNat 4 bw = BitVec.ofNat 4 (n * bw % 8 + bw) :=
    (BitVec.ofNat_add _ _).symm
  have hnbits_toNat : (BitVec.ofNat 4 (n * bw % 8 + bw)).toNat = n * bw % 8 + bw := Nat.mod_eq_of_lt (by omega)
  have hk : (packRegs bw g n).bp_k + 1 = (packRegs bw g (n + 1)).bp_k := (BitVec.ofNat_add n 1).symm
  obtain ⟨hfull, he⟩ | ⟨hpart, he⟩ := packPass_cases bw (g.at n) (packRegs bw g n) <;>
    rw [he, packRegs_acc_or_value, hnbits, hk]
  · rw [hnbits, hnbits_toNat] at hfull
    have hj : (n + 1) * bw / 8 = n * bw / 8 + 1 := by omega
    have hrest : n * bw % 8 + bw - 8 = (n + 1) * bw % 8 := by omega
    have hleft : BitVec.ofNat 4 (n * bw % 8 + bw) - 8 = BitVec.ofNat 4 ((n + 1) * bw % 8) := by
      rw [← hrest]
      exact BitVec.ofNat_sub_ofNat_of_le _ 8 (by decide) hfull
    have hacc : BitVec.ofNat 32 (packPrefix bw g (n + 1) / 2 ^ (8 * (n * bw / 8))) >>> 8 =
        BitVec.ofNat 32 (packPrefix bw g (n + 1) / 2 ^ (8 * (n * bw / 8 + 1))) := by
      rw [ofNat_ushiftRight_of_lt 8 (packPrefix_div_lt (by omega)), Nat.div_div_eq_div_mul, ← Nat.pow_add,
        Nat.mul_succ]
    refine ⟨?_, by rw [packedBytes_succ_of_full hn hj]; simp⟩
    rw [hleft, hacc, packRegs, packRegs, hj, BitVec.ofNat_add (n * bw / 8)]
    rfl
  · rw [hnbits, hnbits_toNat] at hpart
    have hj : (n + 1) * bw / 8 = n * bw / 8 := by omega
    have hrest : n * bw % 8 + bw = (n + 1) * bw % 8 := by omega
    refine ⟨?_, by simp [packedBytes, hj]⟩
    rw [hrest, packRegs, packRegs, hj]

/-- With no value left the accumulator holds what lies above the `bw` bytes (41_bitpack.md R165). -/
theorem packRegs_eight (hbw : bw ≤ 8) :
    (packRegs bw g 8).bp_nbits = 0 ∧ (packRegs bw g 8).bp_j.toNat = bw ∧
      (packRegs bw g 8).bp_acc.toNat = packNumber bw g / 2 ^ (8 * bw) := by
  have hplace : 8 * bw / 8 = bw := Nat.mul_div_cancel_left bw (by decide)
  refine ⟨by simp [packRegs], by rw [packRegs_j_toNat hbw le_rfl, hplace], ?_⟩
  have hacc : (packRegs bw g 8).bp_acc.toNat = packPrefix bw g 8 / 2 ^ (8 * (8 * bw / 8)) :=
    Nat.mod_eq_of_lt (packPrefix_div_lt (by omega))
  rwa [hplace] at hacc

theorem packedBytes_eight : packedBytes bw g 8 = packBytes bw g := by
  rw [packedBytes, Nat.mul_div_cancel_left bw (by decide), List.take_of_length_le (length_packBytes bw g).le]

end pass

/-! ### The steps of PACK -/

/-- PACK, accepted in `s`, after taking in values 0 to `n - 1`. -/
def State.packTaken (s : State) (bw : BitVec 8) (g : Group) (n : Nat) : State :=
  let t := (s.accept .bitPacker).latchPack bw g
  { t with bp := { t.bp with
      work := packRegs bw.toNat g n
      sout := Memory.writeList s.bp.sout 0 (packedBytes bw.toNat g n) } }

/-- PACK, accepted in `s`, after its answer. -/
def State.packAnswered (s : State) (bw : BitVec 8) (g : Group) : State :=
  let t := s.packTaken bw g 8
  { t with bp := { t.bp with olen := (packRegs bw.toNat g 8).bp_j.setWidth 33 } }.respond .bitPacker .ok

section steps
variable {s : State} {bw : BitVec 8} {g : Group}

theorem exec_pack (hb : s.busy .bitPacker = false) (hbw : legalWidth bw = true) :
    exec (.pack .bitPacker bw g) s = .next (s.packTaken bw g 0) := by
  refine (presented_own (beginPack bw g) hb).trans (congrArg Host.Outcome.next ?_)
  rw [beginPack, if_pos hbw, State.packTaken, packedBytes_zero, packRegs_zero]
  rfl

/-- The pass of a step, and the output buffer after it. -/
theorem packTaken_pass (hbw : bw.toNat ≤ 8) {n : Nat} (hn : n < 8) :
    let w := (s.packTaken bw g n).bp.work
    let p := packPass bw.toNat (g.at w.bp_k.toNat) w
    p.2 = packRegs bw.toNat g (n + 1) ∧
      Memory.writeList (s.packTaken bw g n).bp.sout w.bp_j.toNat p.1.toList = (s.packTaken bw g (n + 1)).bp.sout := by
  intro w p
  have hp : p = packPass bw.toNat (g.at n) (packRegs bw.toNat g n) :=
    congrArg (fun k => packPass bw.toNat (g.at k) w) (packRegs_k_toNat hn.le)
  have hj : w.bp_j.toNat = n * bw.toNat / 8 := packRegs_j_toNat hbw hn.le
  obtain ⟨hregs, hbytes⟩ := packPass_packRegs (g := g) hbw hn
  refine ⟨hp ▸ hregs, ?_⟩
  simp only [State.packTaken, hp, hj, hbytes, Memory.writeList_append, length_packedBytes hn.le, Nat.zero_add]

/-- A step takes in the next value; after the eighth PACK answers. -/
theorem advance_packTaken (hbw : bw.toNat ≤ 8) {n : Nat} (hn : n < 8) :
    advance .bitPacker (s.packTaken bw g n) =
      .next (if n = 7 then s.packAnswered bw g else s.packTaken bw g (n + 1)) := by
  obtain ⟨hregs, hsout⟩ := packTaken_pass (s := s) (g := g) hbw hn
  have hk : (packRegs bw.toNat g (n + 1)).bp_k.toNat = n + 1 := packRegs_k_toNat hn
  have hcases := packStep_cases (s.packTaken bw g n)
  simp only [show (s.packTaken bw g n).bp.bw = bw from rfl, show (s.packTaken bw g n).bp.vals = g from rfl, hregs, hk,
    hsout] at hcases
  rw [advance_busy rfl]
  obtain ⟨h8, he⟩ | ⟨h8, he⟩ := hcases
  · obtain rfl : n = 7 := by omega
    exact congrArg Host.Outcome.next he
  · rw [if_neg (by omega)]
    exact congrArg Host.Outcome.next he

theorem advanceN_packTaken (hbw : bw.toNat ≤ 8) {n : Nat} (hn : n < 8) :
    advanceN n .bitPacker (s.packTaken bw g 0) = .next (s.packTaken bw g n) := by
  induction n with
  | zero => rfl
  | succ n ih =>
    rw [advanceN_add n 1 _ _ _ (ih (by omega))]
    simp only [advanceN, advance_packTaken hbw (show n < 8 by omega), if_neg (show n ≠ 7 by omega)]

theorem advanceN_pack (hbw : bw.toNat ≤ 8) :
    advanceN 8 .bitPacker (s.packTaken bw g 0) = .next (s.packAnswered bw g) := by
  rw [advanceN_add 7 1 _ _ _ (advanceN_packTaken hbw (by decide))]
  simp only [advanceN, advance_packTaken hbw (show 7 < 8 by decide), if_pos]

end steps

/-! ### The response and the frame -/

section packAnswered
variable (s : State) (bw : BitVec 8) (g : Group)

theorem State.packAnswered_sout :
    (s.packAnswered bw g).bp.sout = Memory.writeList s.bp.sout 0 (packBytes bw.toNat g) := by
  rw [← packedBytes_eight]
  rfl

theorem State.packAnswered_othersUnchanged : s.othersUnchanged (s.packAnswered bw g) .bitPacker := by
  refine ⟨fun u hu => State.sameUnit_trans (State.sameUnit_accept s hu) (State.sameUnit_trans ?_
    (State.sameUnit_respond _ .ok hu)), rfl, rfl⟩
  cases u <;> first | exact ⟨rfl, rfl⟩ | exact absurd rfl hu

theorem State.packAnswered_onlyStored : s.onlyStored (s.packAnswered bw g) .packSout 0 bw.toNat := by
  intro b a hout
  cases b
  case packSout =>
    have ha : bw.toNat ≤ a := by
      by_contra hlt
      exact hout ⟨rfl, Nat.zero_le a, by omega⟩
    rw [State.buffer, State.packAnswered_sout]
    refine Memory.read_writeList_outside _ _ (.inr ?_)
    rwa [length_packBytes, Nat.zero_add]
  all_goals rfl

/-- The bytes of the response (41_bitpack.md R165). -/
theorem State.packAnswered_read {s : State} (hwf : Memory.wf s.bp.sout = true) {j : Nat} (hj : j < bw.toNat) :
    (Memory.read (s.packAnswered bw g).bp.sout j).toNat = packNumber bw.toNat g / 2 ^ (8 * j) % 256 := by
  have hlen := bw.isLt
  have hread := Memory.read_writeList_inside (packBytes bw.toNat g) hwf (a := 0) (k := j)
    (by rw [length_packBytes, Config.spaceSize]; omega) (by rwa [length_packBytes])
  rw [State.packAnswered_sout, ← Nat.zero_add j, hread, Nat.zero_add]
  exact getElem_packBytes_toNat _ g j _

end packAnswered

/-- Settles O25: eight passes write the bytes of `P'` and leave in the accumulator what lies above them. -/
theorem packAnswersOrOfShiftedValues : Obligations.PackAnswersOrOfShiftedValues := by
  unfold Obligations.PackAnswersOrOfShiftedValues
  intro s bw g hb hwf hlegal
  obtain ⟨-, hbw⟩ := (legalWidth_iff bw).mp hlegal
  obtain ⟨hnbits, hj, hacc⟩ := packRegs_eight (g := g) hbw
  have holen : (s.packAnswered bw g).bp.olen.toNat = bw.toNat :=
    (BitVec.toNat_setWidth_of_le (by decide)).trans hj
  exact ⟨_, s.packAnswered bw g, exec_pack hb hlegal, advanceN_pack hbw, rfl, rfl, rfl, holen, hnbits, hacc,
    fun j hj => State.packAnswered_read bw g hwf hj, s.packAnswered_othersUnchanged bw g,
    s.packAnswered_onlyStored bw g, by decide, by decide⟩

end Sys2Proof.Machine

/-! The greedy scan on values (O32, O33, O35; 42_segmenter.md R196 to R206): at each point the scan emits one run, which stands
for the values it covers, and for zeros past the end of the input only where it is the bit-packed run of fewer than 8
values. -/

namespace Sys2Proof.Machine

/-! ### The run of equal values -/

theorem le_length_takeWhile_iff {α : Type} (p : α → Bool) (l : List α) (m : Nat) :
    m ≤ (l.takeWhile p).length ↔ ∀ k, k < m → ∃ x, l[k]? = some x ∧ p x = true := by
  induction l generalizing m with
  | nil =>
    cases m with
    | zero => simp
    | succ m => rw [Nat.forall_lt_succ_left]; simp
  | cons a l ih =>
    cases m with
    | zero => simp
    | succ m => rw [Nat.forall_lt_succ_left]; cases ha : p a <;> simp [ha, ih]

/-- The number of values at the front of `vs` that are equal to the first. -/
def equalRun (vs : List Value) : Nat := (vs.takeWhile fun x => decide (x = vs.headD 0)).length

theorem classifyLen_eq (vs : List Value) : classifyLen vs = min 0x3FFF (equalRun vs) := by
  cases vs <;> rfl

theorem le_equalRun_iff (vs : List Value) (m : Nat) :
    m ≤ equalRun vs ↔ ∀ k, k < m → vs[k]? = some (vs.headD 0) := by
  simp [equalRun, le_length_takeWhile_iff]

theorem equalRun_le_length (vs : List Value) : equalRun vs ≤ vs.length := (List.takeWhile_sublist _).length_le

theorem classifyLen_le_length (vs : List Value) : classifyLen vs ≤ vs.length := by
  rw [classifyLen_eq]
  exact (min_le_right _ _).trans (equalRun_le_length vs)

theorem classifyLen_le_cap (vs : List Value) : classifyLen vs ≤ 0x3FFF := by
  rw [classifyLen_eq]
  exact min_le_left _ _

theorem take_classifyLen (vs : List Value) :
    vs.take (classifyLen vs) = List.replicate (classifyLen vs) (vs.headD 0) := by
  have hle := classifyLen_le_length vs
  have heq := (le_equalRun_iff vs (classifyLen vs)).mp (by rw [classifyLen_eq]; exact min_le_right _ _)
  refine List.ext_getElem (by simpa using hle) fun k hk _ => ?_
  rw [List.length_take] at hk
  rw [List.getElem_take, List.getElem_replicate]
  exact (List.getElem?_eq_some_iff.mp (heq k (by omega))).2

theorem headD_replicate {len : Nat} (v : Value) (h : 0 < len) : (List.replicate len v).headD 0 = v := by
  cases len with
  | zero => exact absurd h (Nat.lt_irrefl 0)
  | succ len => rfl

theorem classifyLen_replicate (len : Nat) (v : Value) : classifyLen (List.replicate len v) = min 0x3FFF len := by
  have hle := equalRun_le_length (List.replicate len v)
  have hge : len ≤ equalRun (List.replicate len v) := by
    rw [le_equalRun_iff]
    intro k hk
    rw [headD_replicate v (Nat.zero_lt_of_lt hk), List.getElem?_replicate, if_pos hk]
  rw [List.length_replicate] at hle
  rw [classifyLen_eq, Nat.le_antisymm hle hge]

/-! ### The run emitted at a point of the scan -/

/-- How many positions of the input a run covers. -/
def runSpan (run : Run) : Nat := (runValues run).length

@[simp] theorem runSpan_rle (v : Value) (c : BitVec 63) : runSpan (.rle v c) = c.toNat := List.length_replicate

@[simp] theorem runSpan_bp (g : Group) : runSpan (.bp g) = 8 := g.length_toList

/-- The run that the greedy scan emits where the values `vs` are left (42_segmenter.md R196). -/
def nextRun (vs : List Value) : Run :=
  if 8 ≤ classifyLen vs then .rle (vs.headD 0) (BitVec.ofNat 63 (classifyLen vs)) else .bp (padGroup vs)

/-- The two runs that may be emitted, and what each covers. -/
theorem nextRun_cases (vs : List Value) :
    (8 ≤ classifyLen vs ∧ nextRun vs = .rle (vs.headD 0) (BitVec.ofNat 63 (classifyLen vs)) ∧
      runSpan (nextRun vs) = classifyLen vs) ∨
    (classifyLen vs < 8 ∧ nextRun vs = .bp (padGroup vs) ∧ runSpan (nextRun vs) = 8) := by
  by_cases h : 8 ≤ classifyLen vs
  · have hcap := classifyLen_le_cap vs
    have he : nextRun vs = .rle (vs.headD 0) (BitVec.ofNat 63 (classifyLen vs)) := if_pos h
    exact .inl ⟨h, he, by rw [he, runSpan_rle]; exact Nat.mod_eq_of_lt (by omega)⟩
  · have he : nextRun vs = .bp (padGroup vs) := if_neg h
    exact .inr ⟨by omega, he, by rw [he, runSpan_bp]⟩

theorem nextRun_span_ge (vs : List Value) : 8 ≤ runSpan (nextRun vs) := by
  obtain ⟨h, -, hspan⟩ | ⟨-, -, hspan⟩ := nextRun_cases vs <;> omega

theorem nextRun_span_le (vs : List Value) : runSpan (nextRun vs) ≤ 0x3FFF := by
  have hcap := classifyLen_le_cap vs
  obtain ⟨-, -, hspan⟩ | ⟨-, -, hspan⟩ := nextRun_cases vs <;> omega

/-- Only a bit-packed run covers positions past the end of the input. -/
theorem nextRun_of_length_lt {vs : List Value} (h : vs.length < runSpan (nextRun vs)) :
    nextRun vs = .bp (padGroup vs) ∧ runSpan (nextRun vs) = 8 := by
  obtain ⟨-, -, hspan⟩ | ⟨-, hbp⟩ := nextRun_cases vs
  · have := classifyLen_le_length vs
    omega
  · exact hbp

theorem groupAt_padGroup (vs : List Value) {k : Nat} (hk : k < 8) : (padGroup vs).at k = vs.getD k 0 := by
  interval_cases k <;> rfl

theorem toList_padGroup (vs : List Value) :
    (padGroup vs).toList = vs.take 8 ++ List.replicate (8 - vs.length) 0 := by
  refine List.ext_getElem (by simp; omega) fun k hk _ => ?_
  have hk8 : k < 8 := by simpa using hk
  have hat := groupAt_padGroup vs hk8
  simp only [Group.at, Vector.getElem?_eq_getElem hk8, Option.getD_some] at hat
  by_cases hlen : k < vs.length
  · simp [hat, hk8, hlen]
  · simp [hat, List.getElem_append, hlen]

/-- A run stands for the values it covers, and for zeros past the end of the input. -/
theorem runValues_nextRun (vs : List Value) : runValues (nextRun vs) =
    vs.take (runSpan (nextRun vs)) ++ List.replicate (runSpan (nextRun vs) - vs.length) 0 := by
  obtain ⟨-, he, hspan⟩ | ⟨-, he, hspan⟩ := nextRun_cases vs
  · have hlen := classifyLen_le_length vs
    have hcount : (BitVec.ofNat 63 (classifyLen vs)).toNat = classifyLen vs := by rwa [he, runSpan_rle] at hspan
    rw [hspan, take_classifyLen, Nat.sub_eq_zero_of_le hlen, he, runValues, hcount, List.replicate_zero,
      List.append_nil]
  · rw [hspan, he]
    exact toList_padGroup vs

/-! ### The scan -/

theorem segment_nil (fuel : Nat) : segment fuel [] = [] := by cases fuel <;> rfl

theorem segment_succ (fuel : Nat) {vs : List Value} (h : vs ≠ []) :
    segment (fuel + 1) vs = nextRun vs :: segment fuel (vs.drop (runSpan (nextRun vs))) := by
  obtain ⟨v, vs, rfl⟩ := List.exists_cons_of_ne_nil h
  obtain ⟨h8, he, hspan⟩ | ⟨h8, he, hspan⟩ := nextRun_cases (v :: vs)
  · rw [hspan, he]
    exact if_pos h8
  · rw [hspan, he]
    exact if_neg (by simpa using h8)

/-- Each run of a scan is the one emitted at some point of it. -/
theorem exists_nextRun_of_mem_segment {fuel : Nat} {vs : List Value} {run : Run} (h : run ∈ segment fuel vs) :
    ∃ ws, run = nextRun ws := by
  induction fuel generalizing vs with
  | zero => cases h
  | succ fuel ih =>
    by_cases hvs : vs = []
    · rw [hvs, segment_nil] at h
      cases h
    · rw [segment_succ fuel hvs, List.mem_cons] at h
      exact h.elim (fun h => ⟨vs, h⟩) ih

theorem segment_span_ge {fuel : Nat} {vs : List Value} : ∀ run ∈ segment fuel vs, 8 ≤ runSpan run := fun run h => by
  obtain ⟨ws, rfl⟩ := exists_nextRun_of_mem_segment h
  exact nextRun_span_ge ws

/-- The runs of a scan stand for the input followed by at most 7 zeros, and for zeros only in a last bit-packed run
(42_segmenter.md R203). -/
theorem segment_values {fuel : Nat} {vs : List Value} (hfuel : vs.length ≤ fuel) :
    ∃ p, p ≤ 7 ∧ (segment fuel vs).flatMap runValues = vs ++ List.replicate p 0 ∧
      (p ≠ 0 → ∃ g, (segment fuel vs).getLast? = some (.bp g)) := by
  induction fuel generalizing vs with
  | zero => exact ⟨0, by omega, by simp [List.length_eq_zero_iff.mp (Nat.le_zero.mp hfuel), segment_nil], by simp⟩
  | succ fuel ih =>
    obtain rfl | hvs := eq_or_ne vs []
    · exact ⟨0, by omega, by simp [segment_nil], by simp⟩
    · have hge := nextRun_span_ge vs
      have hpos := List.length_pos_iff.mpr hvs
      rw [segment_succ fuel hvs, List.flatMap_cons, runValues_nextRun]
      by_cases hlt : vs.length < runSpan (nextRun vs)
      · obtain ⟨he, hspan⟩ := nextRun_of_length_lt hlt
        rw [List.drop_of_length_le hlt.le, List.take_of_length_le hlt.le, segment_nil]
        exact ⟨runSpan (nextRun vs) - vs.length, by omega, by simp, fun _ => ⟨_, congrArg some he⟩⟩
      · obtain ⟨p, hp, hvalues, hlast⟩ := ih (vs := vs.drop (runSpan (nextRun vs))) (by rw [List.length_drop]; omega)
        refine ⟨p, hp, ?_, fun hp0 => ?_⟩
        · rw [hvalues, Nat.sub_eq_zero_of_le (by omega), List.replicate_zero, List.append_nil, ← List.append_assoc,
            List.take_append_drop]
        · obtain ⟨g, hg⟩ := hlast hp0
          exact ⟨g, by rw [List.getLast?_cons, hg]; rfl⟩

/-! ### The contract of ENCODE -/

/-- ENCODE succeeds exactly with a legal width that all values fit, and gives the bytes of the runs of the scan. -/
theorem encodeStream_ok_iff {bw : BitVec 8} {vs : List Value} {bs : List Byte} :
    encodeStream bw vs = .ok bs ↔ legalWidth bw = true ∧ (∀ v ∈ vs, v.toNat < 2 ^ bw.toNat) ∧
      bs = (segment vs.length vs).flatMap (Run.bytes bw.toNat) := by
  unfold encodeStream
  cases hbw : legalWidth bw with
  | false => simp
  | true =>
    by_cases hany : vs.any (fun v => decide (2 ^ bw.toNat ≤ v.toNat)) = true
    · have hbig : ¬ ∀ v ∈ vs, v.toNat < 2 ^ bw.toNat := by simpa using hany
      simp [hany, hbig]
    · have hfit : ∀ v ∈ vs, v.toNat < 2 ^ bw.toNat := by simpa using hany
      rw [if_pos rfl, if_neg hany, Except.ok.injEq]
      exact ⟨fun h => ⟨rfl, hfit, h.symm⟩, fun h => h.2.2.symm⟩

/-- Where all values fit a width, the zeros that pad them do too. -/
theorem runValues_lt_of_mem_segment {bw fuel : Nat} {vs : List Value} (hfuel : vs.length ≤ fuel)
    (hfit : ∀ v ∈ vs, v.toNat < 2 ^ bw) : ∀ run ∈ segment fuel vs, ∀ v ∈ runValues run, v.toNat < 2 ^ bw := by
  intro run hrun v hv
  obtain ⟨p, -, hvalues, -⟩ := segment_values hfuel
  have hmem : v ∈ vs ++ List.replicate p 0 := hvalues ▸ List.mem_flatMap.mpr ⟨run, hrun, hv⟩
  obtain hmem | hmem := List.mem_append.mp hmem
  · exact hfit v hmem
  · rw [List.eq_of_mem_replicate hmem]
    exact Nat.two_pow_pos bw

/-- A bit-packed run of values that fit holds a group that fits. -/
theorem fits_of_runValues_lt {bw : Nat} {g : Group} (h : ∀ v ∈ runValues (.bp g), v.toNat < 2 ^ bw) : g.fits bw := by
  intro k hk
  refine h _ ?_
  rw [Group.at, Vector.getElem?_eq_getElem hk, Option.getD_some]
  simp [runValues]

/-! ### The bytes of a run -/

theorem varintBytes_bpHeader : varintBytes Config.bpHeader = [0x03] := by decide

theorem runBytes_bp (bw : Nat) (g : Group) : Run.bytes bw (.bp g) = 0x03 :: packBytes bw g := by
  rw [Run.bytes, varintBytes_bpHeader]
  rfl

/-- Settles O35: each run of a scan is one that the scan emits at some point, and together they stand for the input and its
padding. -/
theorem encodeImage : Obligations.EncodeImage := by
  unfold Obligations.EncodeImage
  intro bw vs bs h
  obtain ⟨-, hfit, rfl⟩ := encodeStream_ok_iff.mp h
  refine ⟨segment vs.length vs, rfl, fun run hrun => ?_, segment_values le_rfl⟩
  have hvalues := runValues_lt_of_mem_segment le_rfl hfit run hrun
  obtain ⟨ws, hws⟩ := exists_nextRun_of_mem_segment hrun
  have hge := nextRun_span_ge ws
  have hle := nextRun_span_le ws
  cases run with
  | rle v c =>
    rw [← hws, runSpan_rle] at hge hle
    exact ⟨hge, hle, hvalues v (List.mem_replicate.mpr ⟨by omega, rfl⟩), rfl⟩
  | bp g => exact ⟨fits_of_runValues_lt hvalues, packBytes bw.toNat g, runBytes_bp _ g, length_packBytes _ g⟩

/-! ### The scan of equal values -/

/-- At least 8 copies of one value give an RLE run of them, up to the cap. -/
theorem segment_replicate_of_ge (fuel : Nat) (v : Value) {len : Nat} (h8 : 8 ≤ len) :
    segment (fuel + 1) (List.replicate len v) = .rle v (BitVec.ofNat 63 (min 0x3FFF len)) ::
      segment fuel (List.replicate (len - min 0x3FFF len) v) := by
  have hne : List.replicate len v ≠ [] := by simp; omega
  have hhead : (List.replicate len v).headD 0 = v := headD_replicate v (by omega)
  have hlen := classifyLen_replicate len v
  obtain ⟨-, he, hspan⟩ | ⟨hlt, -⟩ := nextRun_cases (List.replicate len v)
  · rw [segment_succ fuel hne, hspan, he, hhead, hlen, List.drop_replicate]
  · omega

/-- Fewer than 8 values are one bit-packed run. -/
theorem segment_of_length_lt (fuel : Nat) {vs : List Value} (hne : vs ≠ []) (h8 : vs.length < 8) :
    segment (fuel + 1) vs = [.bp (padGroup vs)] := by
  obtain ⟨he, hspan⟩ := nextRun_of_length_lt (h8.trans_le (nextRun_span_ge vs))
  rw [segment_succ fuel hne, hspan, he, List.drop_of_length_le h8.le, segment_nil]

/-- From 8 copies of one value up to the cap there is one RLE run. -/
theorem segment_replicate_of_le_cap (fuel : Nat) (v : Value) {len : Nat} (h8 : 8 ≤ len) (hcap : len ≤ 0x3FFF) :
    segment (fuel + 1) (List.replicate len v) = [.rle v (BitVec.ofNat 63 len)] := by
  rw [segment_replicate_of_ge fuel v h8, Nat.min_eq_right hcap, Nat.sub_self, List.replicate_zero, segment_nil]

section copies
variable {bw : BitVec 8} {v : Value}

theorem encodeStream_replicate (hbw : legalWidth bw = true) (hv : v.toNat < 2 ^ bw.toNat) (len : Nat) :
    encodeStream bw (List.replicate len v) =
      .ok ((segment len (List.replicate len v)).flatMap (Run.bytes bw.toNat)) := by
  refine encodeStream_ok_iff.mpr ⟨hbw, fun x hx => ?_, by rw [List.length_replicate]⟩
  rwa [List.eq_of_mem_replicate hx]

theorem encodeStream_replicate_of_le_cap (hbw : legalWidth bw = true) (hv : v.toNat < 2 ^ bw.toNat) {len : Nat}
    (h8 : 8 ≤ len) (hcap : len ≤ 0x3FFF) :
    encodeStream bw (List.replicate len v) = .ok (Run.bytes bw.toNat (.rle v (BitVec.ofNat 63 len))) := by
  obtain ⟨fuel, rfl⟩ := Nat.exists_eq_add_of_le' (show 1 ≤ len by omega)
  rw [encodeStream_replicate hbw hv, segment_replicate_of_le_cap fuel v h8 hcap, List.flatMap_singleton]

/-- Past the cap the run of the cap comes first, and what is left is scanned afresh (42_segmenter.md R200). -/
theorem encodeStream_replicate_cap_add (hbw : legalWidth bw = true) (hv : v.toNat < 2 ^ bw.toNat) (m : Nat) :
    encodeStream bw (List.replicate (0x3FFF + m) v) = .ok ([0xFE, 0xFF, 0x01, v] ++
      (segment (0x3FFD + m + 1) (List.replicate m v)).flatMap (Run.bytes bw.toNat)) := by
  have hheader : varintBytes (rleHeader (BitVec.ofNat 63 0x3FFF)) = [0xFE, 0xFF, 0x01] := by decide
  rw [encodeStream_replicate hbw hv, show 0x3FFF + m = 0x3FFD + m + 1 + 1 by omega,
    segment_replicate_of_ge _ v (by omega), Nat.min_eq_left (by omega), List.flatMap_cons,
    show 0x3FFD + m + 1 + 1 - 0x3FFF = m by omega, Run.bytes, hheader]
  rfl

end copies

/-- Settles O32: the scan emits an RLE run exactly where the measured length is at least 8, and copies of one value up to the
cap are measured whole. -/
theorem rleThresholdIsEight : Obligations.RleThresholdIsEight := by
  unfold Obligations.RleThresholdIsEight
  refine ⟨fun bw v hbw hv => ⟨?_, ?_, fun len h8 hcap => encodeStream_replicate_of_le_cap hbw hv h8 hcap⟩,
    fun fuel v vs h8 => ?_, fun fuel v vs h8 => ?_, by decide, by decide, by decide, by decide⟩
  · rw [encodeStream_replicate hbw hv, segment_of_length_lt 6 (by simp) (by simp), List.flatMap_singleton]
    rfl
  · have hheader : varintBytes (rleHeader (BitVec.ofNat 63 8)) = [0x10] := by decide
    rw [encodeStream_replicate_of_le_cap hbw hv (by omega) (by omega), Run.bytes, hheader]
    rfl
  · rw [segment_succ fuel (by simp)]
    exact congrArg some (if_pos h8)
  · rw [segment_succ fuel (by simp)]
    exact congrArg some (if_neg (by omega))

/-- Settles O33: past the cap the run of the cap is emitted, and the copies left are encoded as if they stood alone. -/
theorem runLengthCapIs3FFF : Obligations.RunLengthCapIs3FFF := by
  unfold Obligations.RunLengthCapIs3FFF
  intro bw v hbw hv
  have hcap := encodeStream_replicate_cap_add hbw hv
  refine ⟨?_, ?_, ?_, fun m h8 hle => ?_⟩
  · rw [← Nat.add_zero 0x3FFF, hcap, List.replicate_zero, segment_nil]
    rfl
  · rw [show 0x4000 = 0x3FFF + 1 from rfl, hcap, segment_of_length_lt _ (by simp) (by simp), List.flatMap_singleton]
    rfl
  · have hheader : varintBytes (rleHeader (BitVec.ofNat 63 8)) = [0x10] := by decide
    rw [hcap, segment_replicate_of_le_cap _ v (by omega) (by omega), List.flatMap_singleton, Run.bytes, hheader]
    rfl
  · rw [hcap, segment_replicate_of_le_cap _ v h8 hle, List.flatMap_singleton]

end Sys2Proof.Machine

/-! CLASSIFY (O30): while the measured length is below the capped length of the run, one more value is counted in each pass; so
the loop ends with the contract's length, standalone and inside ENCODE. -/

namespace Sys2Proof.Machine

/-! ### The values to come -/

theorem Memory.drop_slice (m : Memory) (a len k : Nat) :
    (Memory.slice m a len).drop k = Memory.slice m (a + k) (len - k) := by
  refine List.ext_getElem (by simp) fun j _ _ => ?_
  rw [List.getElem_drop, Memory.getElem_slice, Memory.getElem_slice, Nat.add_assoc]

theorem Memory.getElem?_slice (m : Memory) (a len k : Nat) :
    (Memory.slice m a len)[k]? = if k < len then some (Memory.read m (a + k)) else none := by
  by_cases hk : k < len
  · rw [List.getElem?_eq_getElem (by rwa [Memory.length_slice]), Memory.getElem_slice, if_pos hk]
  · rw [List.getElem?_eq_none (by rw [Memory.length_slice]; omega), if_neg hk]

theorem Memory.headD_slice (m : Memory) (a : Nat) {len : Nat} (h : 0 < len) :
    (Memory.slice m a len).headD 0 = Memory.read m a := by
  have hfirst := Memory.getElem?_slice m a len 0
  rw [if_pos h, Nat.add_zero] at hfirst
  rw [List.headD_eq_head?_getD, List.head?_eq_getElem?, hfirst, Option.getD_some]

/-- The values that CLASSIFY measures a run at the front of: those from offset `i` on, `n` values in all. -/
def valuesFrom (vin : Memory) (n i : Nat) : List Value := Memory.slice vin i (n - i)

section classify
variable {vin : Memory} {n i : Nat}

/-- The run of equal values at `i`, read out of the buffer (42_segmenter.md R192). -/
theorem le_equalRun_valuesFrom_iff (hi : i < n) (m : Nat) : m ≤ equalRun (valuesFrom vin n i) ↔
    i + m ≤ n ∧ ∀ j, j < m → Memory.read vin (i + j) = Memory.read vin i := by
  rw [le_equalRun_iff, valuesFrom, Memory.headD_slice vin i (by omega)]
  simp only [Memory.getElem?_slice, Option.ite_none_right_eq_some, Option.some.injEq]
  constructor
  · intro h
    refine ⟨?_, fun j hj => (h j hj).2⟩
    cases m with
    | zero => omega
    | succ m => have := (h m (by omega)).1; omega
  · rintro ⟨hm, h⟩ k hk
    exact ⟨by omega, h k hk⟩

/-! ### The classifier's loop -/

/-- The classifier's registers with `k` values counted. -/
def classifyRegs (vin : Memory) (i k : Nat) : ClassifyRegs :=
  { rc_first := Memory.read vin i, rc_len := BitVec.ofNat 14 k, rc_kind := 0 }

/-- The classifier's registers at the end of its loop. -/
def classifyDone (vin : Memory) (n i : Nat) : ClassifyRegs :=
  let len := BitVec.ofNat 14 (classifyLen (valuesFrom vin n i))
  { rc_first := Memory.read vin i, rc_len := len, rc_kind := kindOf len }

theorem classifyRegs_len_toNat {k : Nat} (hk : k ≤ 0x3FFF) : (classifyRegs vin i k).rc_len.toNat = k :=
  Nat.mod_eq_of_lt (by omega)

/-- The loop goes on exactly while fewer values are counted than the contract says. -/
theorem classifyMore_classifyRegs (hi : i < n) {k : Nat} (hk : k ≤ classifyLen (valuesFrom vin n i)) :
    classifyMore vin n i (classifyRegs vin i k) = decide (k < classifyLen (valuesFrom vin n i)) := by
  rw [classifyLen_eq, le_min_iff] at hk
  obtain ⟨hcap, hrun⟩ := hk
  have hequal := ((le_equalRun_valuesFrom_iff hi k).mp hrun).2
  have hnext : k < equalRun (valuesFrom vin n i) ↔ _ := le_equalRun_valuesFrom_iff hi (k + 1)
  rw [Nat.forall_lt_succ_right] at hnext
  rw [Bool.eq_iff_iff, classifyMore_iff, classifyRegs_len_toNat hcap, decide_eq_true_iff, classifyLen_eq, lt_min_iff,
    hnext]
  exact and_congr_right' ⟨fun ⟨hn, hv⟩ => ⟨hn, hequal, hv⟩, fun ⟨hn, _, hv⟩ => ⟨hn, hv⟩⟩

/-- A pass counts one value more. -/
theorem classifyRegs_succ (k : Nat) :
    { classifyRegs vin i k with rc_len := (classifyRegs vin i k).rc_len + 1 } = classifyRegs vin i (k + 1) := by
  simp [classifyRegs, BitVec.ofNat_add]

theorem classifyLoop_classifyRegs (hi : i < n) {fuel k : Nat} (hk : k ≤ classifyLen (valuesFrom vin n i))
    (hfuel : classifyLen (valuesFrom vin n i) ≤ k + fuel) :
    classifyLoop vin n i fuel (classifyRegs vin i k) = classifyDone vin n i := by
  induction fuel generalizing k with
  | zero =>
    obtain rfl := Nat.le_antisymm hk hfuel
    rfl
  | succ fuel ih =>
    rw [classifyLoop, classifyMore_classifyRegs hi hk]
    by_cases hlt : k < classifyLen (valuesFrom vin n i)
    · rw [if_pos (decide_eq_true hlt), classifyRegs_succ]
      exact ih hlt (by omega)
    · obtain rfl := Nat.le_antisymm hk (Nat.le_of_not_lt hlt)
      rw [if_neg (by simp)]
      rfl

theorem classifyLen_valuesFrom_pos (hi : i < n) : 1 ≤ classifyLen (valuesFrom vin n i) := by
  rw [classifyLen_eq, le_min_iff, le_equalRun_valuesFrom_iff hi]
  refine ⟨by omega, hi, fun j hj => ?_⟩
  obtain rfl : j = 0 := by omega
  rfl

/-- run_segmenter's own classifier answers as the contract says. -/
theorem classifyWhole_eq (hi : i < n) : classifyWhole vin n i = classifyDone vin n i :=
  classifyLoop_classifyRegs (k := 1) hi (classifyLen_valuesFrom_pos hi)
    ((classifyLen_le_cap _).trans (by decide))

end classify

/-! ### The steps of CLASSIFY -/

/-- CLASSIFY, accepted in `s`, with its working registers `w`. -/
def State.classifyAt (s : State) (n i : BitVec 32) (w : ClassifyRegs) : State :=
  let t := (s.accept .rleRunClassifier).latchClassify n i
  { t with rc := { t.rc with work := w } }

/-- CLASSIFY, accepted in `s`, after its answer. -/
def State.classifyAnswered (s : State) (n i : BitVec 32) : State :=
  let w := classifyDone s.rc.vin n.toNat i.toNat
  let t := s.classifyAt n i w
  { t with rc := { t.rc with L := w.rc_len, kind := w.rc_kind } }.respond .rleRunClassifier .ok

section steps
variable {s : State} {n i : BitVec 32}

theorem exec_classify (hb : s.busy .rleRunClassifier = false) (hi : i.toNat < n.toNat) :
    exec (.classify .rleRunClassifier n i) s = .next (s.classifyAt n i (classifyRegs s.rc.vin i.toNat 1)) := by
  refine (presented_own (beginClassify n i) hb).trans (congrArg Host.Outcome.next ?_)
  rw [beginClassify, if_neg (by omega)]
  rfl

/-- A step counts one value more, or answers. -/
theorem advance_classifyAt (hi : i.toNat < n.toNat) {k : Nat}
    (hk : k ≤ classifyLen (valuesFrom s.rc.vin n.toNat i.toNat)) :
    advance .rleRunClassifier (s.classifyAt n i (classifyRegs s.rc.vin i.toNat k)) =
      .next (if k < classifyLen (valuesFrom s.rc.vin n.toNat i.toNat)
        then s.classifyAt n i (classifyRegs s.rc.vin i.toNat (k + 1)) else s.classifyAnswered n i) := by
  have hmore : classifyMore (s.classifyAt n i (classifyRegs s.rc.vin i.toNat k)).rc.vin n.toNat i.toNat
      (classifyRegs s.rc.vin i.toNat k) = decide (k < classifyLen (valuesFrom s.rc.vin n.toNat i.toNat)) :=
    classifyMore_classifyRegs hi hk
  rw [advance_busy rfl]
  obtain ⟨hm, he⟩ | ⟨hm, he⟩ := classifyStep_cases (s.classifyAt n i (classifyRegs s.rc.vin i.toNat k))
  · rw [if_pos (of_decide_eq_true (hmore.symm.trans hm)), ← classifyRegs_succ]
    exact congrArg Host.Outcome.next he
  · have hge := of_decide_eq_false (hmore.symm.trans hm)
    obtain rfl := Nat.le_antisymm hk (Nat.le_of_not_lt hge)
    rw [if_neg hge]
    exact congrArg Host.Outcome.next he

theorem advanceN_classifyAt (hi : i.toNat < n.toNat) {j k : Nat}
    (hk : k + j = classifyLen (valuesFrom s.rc.vin n.toNat i.toNat)) :
    advanceN (j + 1) .rleRunClassifier (s.classifyAt n i (classifyRegs s.rc.vin i.toNat k)) =
      .next (s.classifyAnswered n i) := by
  induction j generalizing k with
  | zero =>
    rw [advanceN, advance_classifyAt hi (by omega), if_neg (by omega)]
    rfl
  | succ j ih =>
    rw [advanceN, advance_classifyAt hi (by omega), if_pos (by omega)]
    exact ih (by omega)

end steps

/-! ### The response and the frame -/

section answered
variable (s : State) (n i : BitVec 32)

theorem State.classifyAnswered_L :
    (s.classifyAnswered n i).rc.L.toNat = classifyLen (valuesFrom s.rc.vin n.toNat i.toNat) := by
  have hcap := classifyLen_le_cap (valuesFrom s.rc.vin n.toNat i.toNat)
  exact Nat.mod_eq_of_lt (by omega)

theorem State.classifyAnswered_othersUnchanged : s.othersUnchanged (s.classifyAnswered n i) .rleRunClassifier := by
  refine ⟨fun u hu => State.sameUnit_trans (State.sameUnit_accept s hu) (State.sameUnit_trans ?_
    (State.sameUnit_respond _ .ok hu)), rfl, rfl⟩
  cases u <;> first | exact ⟨rfl, rfl⟩ | exact absurd rfl hu

theorem State.classifyAnswered_nothingStored : s.nothingStored (s.classifyAnswered n i) := fun b a => by
  cases b <;> rfl

end answered

/-- Settles O30: the loop ends with the contract's length, which is the capped number of equal values at `i`. -/
theorem classifyMeasuresCappedRun : Obligations.ClassifyMeasuresCappedRun := by
  unfold Obligations.ClassifyMeasuresCappedRun
  intro s n i hb hi
  have hrun := le_equalRun_valuesFrom_iff (vin := s.rc.vin) hi
  obtain ⟨hm, hequal⟩ := (hrun _).mp le_rfl
  obtain ⟨j, hj⟩ := Nat.exists_eq_add_of_le (classifyLen_valuesFrom_pos (vin := s.rc.vin) hi)
  have hcap := classifyLen_le_cap (valuesFrom s.rc.vin n.toNat i.toNat)
  exact ⟨_, s.classifyAnswered n i, equalRun (valuesFrom s.rc.vin n.toNat i.toNat), exec_classify hb hi,
    ⟨j + 1, by omega, advanceN_classifyAt hi hj.symm⟩, rfl, rfl, rfl, hm, hequal,
    fun m' hm' hequal' => (hrun m').mpr ⟨hm', hequal'⟩, (s.classifyAnswered_L n i).trans (classifyLen_eq _), rfl, rfl,
    s.classifyAnswered_othersUnchanged n i, s.classifyAnswered_nothingStored n i⟩

end Sys2Proof.Machine

/-! ENCODE (O34): each pass of the loop emits the bytes of the run that the contract's scan emits at the cursor, and moves
the cursor past the positions the run covers. -/

namespace Sys2Proof.Machine

/-! ### The units inside run_segmenter -/

theorem vencLoop_bytes {fuel m : Nat} {w : VencRegs} (hm : leastGroups w.ve_v.toNat m) (hfuel : m ≤ fuel) :
    (vencLoop fuel w).1 = groupBytes w.ve_v m := by
  induction fuel generalizing m w with
  | zero => exact absurd hm.one_le (by omega)
  | succ fuel ih =>
    obtain ⟨m, rfl⟩ := Nat.exists_eq_add_of_le' hm.one_le
    obtain ⟨hz, hbyte⟩ := vencPass_of_leastGroups hm
    rw [vencLoop, groupBytes_succ, ← hbyte]
    by_cases h0 : (vencPass w).2.ve_v = 0
    · obtain rfl := hz.mp h0
      simp only [if_pos h0]
      rfl
    · have hrest : leastGroups (vencPass w).2.ve_v.toNat m := (vencPass_value w).symm ▸ hm.div (mt hz.mpr h0)
      simp only [if_neg h0, ih hrest (by omega)]
      rfl

/-- run_segmenter's own varint_encoder emits the minimal varint (40_varint.md R132). -/
theorem vencWhole_bytes (v : BitVec 64) : (vencWhole v).1 = varintBytes v :=
  vencLoop_bytes (leastGroups_varintLen v) (varintLen_le v)

theorem packLoop_bytes {bw : Nat} {g : Group} (hbw : bw ≤ 8) {count n : Nat} (hn : n + count = 8) :
    packedBytes bw g n ++ (packLoop bw g count (packRegs bw g n)).1 = packBytes bw g := by
  induction count generalizing n with
  | zero =>
    obtain rfl : n = 8 := hn
    rw [packLoop, List.append_nil, packedBytes_eight]
  | succ count ih =>
    obtain ⟨hregs, hbytes⟩ := packPass_packRegs (g := g) hbw (show n < 8 by omega)
    have hloop : (packLoop bw g (count + 1) (packRegs bw g n)).1 =
        (packPass bw (g.at n) (packRegs bw g n)).1.toList ++ (packLoop bw g count (packRegs bw g (n + 1))).1 := by
      rw [packLoop, packRegs_k_toNat (by omega), ← hregs]
    rw [hloop, ← List.append_assoc, ← hbytes]
    exact ih (by omega)

/-- run_segmenter's own bit_packer emits the bytes of the group (41_bitpack.md R165). -/
theorem packWhole_bytes {bw : Nat} (hbw : bw ≤ 8) (g : Group) : (packWhole bw g).1 = packBytes bw g := by
  have h := packLoop_bytes (g := g) hbw (show 0 + Config.groupSize = 8 from rfl)
  rwa [packedBytes_zero, List.nil_append, packRegs_zero] at h

theorem groupFrom_eq_padGroup (vin : Memory) (n i : Nat) : groupFrom vin n i = padGroup (valuesFrom vin n i) := by
  have hat : ∀ k, (if i + k < n then Memory.read vin (i + k) else 0) = (valuesFrom vin n i).getD k 0 := fun k => by
    rw [List.getD_eq_getElem?_getD, valuesFrom, Memory.getElem?_slice]
    by_cases hk : i + k < n
    · rw [if_pos hk, if_pos (by omega), Option.getD_some]
    · rw [if_neg hk, if_neg (by omega), Option.getD_none]
  simp only [groupFrom, hat, padGroup]

/-! ### One pass -/

/-- The values from the cursor of run_segmenter on. -/
def RunSegmenter.rest (u : RunSegmenter) : List Value := valuesFrom u.vin u.n.toNat u.rs_i.toNat

/-- Between `u` and `u'` run_segmenter has emitted `runs`: the cursor is past the positions they cover, and their bytes
stand at the end of the output stream. -/
structure RunSegmenter.emits (u u' : RunSegmenter) (runs : List Run) : Prop where
  bw : u'.bw = u.bw
  n : u'.n = u.n
  vin : u'.vin = u.vin
  cursor : u'.rs_i.toNat = u.rs_i.toNat + (runs.flatMap runValues).length
  olen : u'.rs_olen.toNat = u.rs_olen.toNat + (runs.flatMap (Run.bytes u.bw.toNat)).length
  sout : u'.sout = Memory.writeList u.sout u.rs_olen.toNat (runs.flatMap (Run.bytes u.bw.toNat))

theorem RunSegmenter.emits_nil (u : RunSegmenter) : u.emits u [] := ⟨rfl, rfl, rfl, rfl, rfl, rfl⟩

theorem RunSegmenter.emits.trans {u u' u'' : RunSegmenter} {runs runs' : List Run} (h : u.emits u' runs)
    (h' : u'.emits u'' runs') : u.emits u'' (runs ++ runs') where
  bw := h'.bw.trans h.bw
  n := h'.n.trans h.n
  vin := h'.vin.trans h.vin
  cursor := by rw [h'.cursor, h.cursor, List.flatMap_append, List.length_append, Nat.add_assoc]
  olen := by rw [h'.olen, h.olen, h.bw, List.flatMap_append, List.length_append, Nat.add_assoc]
  sout := by rw [h'.sout, h.sout, h.olen, h.bw, List.flatMap_append, Memory.writeList_append]

/-- What is left is what the emitted runs do not cover. -/
theorem RunSegmenter.emits.rest {u u' : RunSegmenter} {runs : List Run} (h : u.emits u' runs) :
    u'.rest = u.rest.drop (runs.flatMap runValues).length := by
  rw [RunSegmenter.rest, RunSegmenter.rest, valuesFrom, valuesFrom, Memory.drop_slice, h.vin, h.n, h.cursor,
    Nat.sub_add_eq]

theorem rleHeader_toNat (c : BitVec 63) : (rleHeader c).toNat = 2 * c.toNat := by
  rw [rleHeader, BitVec.toNat_append, Nat.shiftLeft_eq, Nat.mul_comm]
  exact Nat.or_zero _

/-- A run of at least 8 positions takes at most 9 bytes for every 8 of them (10_state.md R32). -/
theorem length_runBytes_nextRun_le {bw : Nat} (hbw : bw ≤ 8) (vs : List Value) :
    8 * (Run.bytes bw (nextRun vs)).length ≤ 9 * runSpan (nextRun vs) := by
  obtain ⟨h8, he, hspan⟩ | ⟨-, he, hspan⟩ := nextRun_cases vs
  · have hcap := classifyLen_le_cap vs
    have hlen : varintLen (rleHeader (BitVec.ofNat 63 (classifyLen vs))) ≤ 3 := by
      refine (leastGroups_varintLen _).least 3 (by omega) ?_
      rw [rleHeader_toNat, BitVec.toNat_ofNat]
      omega
    rw [hspan, he, Run.bytes, List.length_append, length_varintBytes, List.length_singleton]
    omega
  · rw [hspan, he, runBytes_bp, List.length_cons, length_packBytes]
    omega

/-- The bytes of a run appended to the output stream, and the cursor moved past the run. -/
theorem RunSegmenter.emits_emitAll {u u₀ : RunSegmenter} {run : Run} {i : BitVec 33} (h₀ : u.emits u₀ [])
    (hroom : u.rs_olen.toNat + (Run.bytes u.bw.toNat run).length < 2 ^ 33)
    (hi : i.toNat = u.rs_i.toNat + runSpan run) :
    u.emits { emitAll u₀ (Run.bytes u.bw.toNat run) with rs_i := i } [run] := by
  have hcursor : u₀.rs_olen.toNat = u.rs_olen.toNat := h₀.olen
  have hbuffer : u₀.sout = u.sout := h₀.sout
  obtain ⟨holen, hsout⟩ := emitAll_spec (Run.bytes u.bw.toNat run) u₀ (by rwa [hcursor])
  rw [hcursor] at holen hsout
  rw [hbuffer] at hsout
  rw [emitAll_frame]
  refine ⟨h₀.bw, h₀.n, h₀.vin, ?_, ?_, ?_⟩ <;> rw [List.flatMap_singleton]
  exacts [hi, holen, hsout]

/-- The RLE step emits its run. -/
theorem rleEmit_emits {u : RunSegmenter} {run : Run}
    (hrun : run = .rle (Memory.read u.vin u.rs_i.toNat) (u.rc.rc_len.setWidth 63))
    (hroom : u.rs_olen.toNat + (Run.bytes u.bw.toNat run).length < 2 ^ 33)
    (hi : u.rs_i.toNat + u.rc.rc_len.toNat < 2 ^ 33) : u.emits (rleEmit u) [run] := by
  have hemit : rleEmit u =
      { emitAll { u with ve := (vencWhole (rleHeader (u.rc.rc_len.setWidth 63))).2 } (Run.bytes u.bw.toNat run) with
        rs_i := u.rs_i + u.rc.rc_len.setWidth 33 } := by
    rw [hrun, Run.bytes, ← vencWhole_bytes, emitAll_frame]
    simp only [rleEmit]
    rw [emitAll_frame]
  have hspan : runSpan run = u.rc.rc_len.toNat := by
    rw [hrun, runSpan_rle, BitVec.toNat_setWidth_of_le (by decide)]
  rw [hemit]
  refine RunSegmenter.emits_emitAll ⟨rfl, rfl, rfl, rfl, rfl, rfl⟩ hroom ?_
  rw [hspan, BitVec.toNat_add_of_lt] <;> rw [BitVec.toNat_setWidth_of_le (by decide)]
  exact hi

/-- The bit-packed step emits its run. -/
theorem bpEmit_emits {u : RunSegmenter} (hbw : u.bw.toNat ≤ 8)
    (hroom : u.rs_olen.toNat + (Run.bytes u.bw.toNat (.bp (padGroup u.rest))).length < 2 ^ 33)
    (hi : u.rs_i.toNat + 8 < 2 ^ 33) : u.emits (bpEmit u) [.bp (padGroup u.rest)] := by
  have hemit : bpEmit u =
      { emitAll
          { u with
            rs_grp := padGroup u.rest
            ve := (vencWhole Config.bpHeader).2
            bp := (packWhole u.bw.toNat (padGroup u.rest)).2 }
          (Run.bytes u.bw.toNat (.bp (padGroup u.rest))) with
        rs_i := u.rs_i + 8 } := by
    rw [Run.bytes, ← vencWhole_bytes, ← packWhole_bytes hbw, emitAll_frame]
    simp only [bpEmit, groupFrom_eq_padGroup, RunSegmenter.rest]
    rw [emitAll_frame]
  rw [hemit]
  exact RunSegmenter.emits_emitAll ⟨rfl, rfl, rfl, rfl, rfl, rfl⟩ hroom (BitVec.toNat_add_of_lt hi)

/-- run_segmenter after the classification at its cursor. -/
def RunSegmenter.classified (u : RunSegmenter) : RunSegmenter :=
  { u with rc := classifyDone u.vin u.n.toNat u.rs_i.toNat }

theorem RunSegmenter.emits_classified (u : RunSegmenter) : u.emits u.classified [] := ⟨rfl, rfl, rfl, rfl, rfl, rfl⟩

theorem RunSegmenter.classified_len_toNat (u : RunSegmenter) : u.classified.rc.rc_len.toNat = classifyLen u.rest := by
  have hcap := classifyLen_le_cap u.rest
  exact Nat.mod_eq_of_lt (hcap.trans_lt (by decide))

/-- A pass is the step of the run that the scan emits at the cursor. -/
theorem encodePass_eq {u : RunSegmenter} (hi : u.rs_i.toNat < u.n.toNat) :
    encodePass u = if 8 ≤ classifyLen u.rest then rleEmit u.classified else bpEmit u.classified := by
  have hpass : encodePass u = if u.classified.rc.rc_kind = 0 then rleEmit u.classified else bpEmit u.classified := by
    rw [encodePass, classifyWhole_eq hi]
    rfl
  by_cases h8 : 8 ≤ classifyLen u.rest
  · have hkind : u.classified.rc.rc_kind = 0 := if_pos (u.classified_len_toNat.symm ▸ h8)
    rw [hpass, if_pos hkind, if_pos h8]
  · have hkind : u.classified.rc.rc_kind = 1 := if_neg (u.classified_len_toNat.symm ▸ h8)
    rw [hpass, if_neg (by rw [hkind]; decide), if_neg h8]

/-- A pass emits the run of the scan at the cursor. -/
theorem encodePass_emits {u : RunSegmenter} (hbw : u.bw.toNat ≤ 8) (hi : u.rs_i.toNat < u.n.toNat)
    (holen : 8 * u.rs_olen.toNat ≤ 9 * u.rs_i.toNat) : u.emits (encodePass u) [nextRun u.rest] := by
  have hbytes := length_runBytes_nextRun_le hbw u.rest
  have hspan_le := nextRun_span_le u.rest
  have hn := u.n.isLt
  have hroom : u.rs_olen.toNat + (Run.bytes u.bw.toNat (nextRun u.rest)).length < 2 ^ 33 := by omega
  rw [encodePass_eq hi]
  refine RunSegmenter.emits.trans u.emits_classified ?_
  obtain ⟨h8, he, hspan⟩ | ⟨h8, he, hspan⟩ := nextRun_cases u.rest
  · have hhead : u.rest.headD 0 = Memory.read u.vin u.rs_i.toNat := Memory.headD_slice _ _ (by omega)
    have hlen : u.classified.rc.rc_len.setWidth 63 = BitVec.ofNat 63 (classifyLen u.rest) := by
      rw [← u.classified_len_toNat, BitVec.ofNat_toNat]
    rw [if_pos h8]
    refine rleEmit_emits ?_ hroom ?_
    · rw [he, hhead, hlen]
      rfl
    · rw [u.classified_len_toNat, ← hspan]
      exact (Nat.add_le_add_left hspan_le _).trans_lt (show u.rs_i.toNat + 0x3FFF < _ by omega)
  · rw [if_neg (by omega), he]
    exact bpEmit_emits hbw (he ▸ hroom) (show u.rs_i.toNat + 8 < _ by omega)

/-! ### The loop -/

/-- run_segmenter, at work in `s`, after its answer with working registers and output buffer as in `u`. -/
def State.encodeAnswered (s : State) (u : RunSegmenter) : State :=
  { s with rs := { u with olen := u.rs_olen } }.respond .runSegmenter .ok

theorem RunSegmenter.rest_ne_nil_iff (u : RunSegmenter) : u.rest ≠ [] ↔ u.rs_i.toNat < u.n.toNat := by
  rw [← List.length_pos_iff, RunSegmenter.rest, valuesFrom, Memory.length_slice, Nat.sub_pos_iff_lt]

/-- A pass keeps the bytes emitted to 9 for every 8 positions covered. -/
theorem encodePass_olen_le {u : RunSegmenter} (hbw : u.bw.toNat ≤ 8) (hi : u.rs_i.toNat < u.n.toNat)
    (holen : 8 * u.rs_olen.toNat ≤ 9 * u.rs_i.toNat) :
    8 * (encodePass u).rs_olen.toNat ≤ 9 * (encodePass u).rs_i.toNat := by
  have hpass := encodePass_emits hbw hi holen
  have hbytes := length_runBytes_nextRun_le hbw u.rest
  rw [runSpan] at hbytes
  rw [hpass.cursor, hpass.olen, List.flatMap_singleton, List.flatMap_singleton]
  omega

section steps
variable {s : State}

/-- With no value left run_segmenter answers. -/
theorem advance_encode_of_done (hb : s.busy .runSegmenter = true) (hrest : s.rs.rest = []) :
    advance .runSegmenter s = .next (s.encodeAnswered s.rs) := by
  rw [advance_busy hb]
  obtain ⟨hi, -⟩ | ⟨-, he⟩ := encodeStep_cases s
  · exact absurd hrest (s.rs.rest_ne_nil_iff.mpr hi)
  · exact congrArg Host.Outcome.next he

/-- With values left run_segmenter takes a pass. -/
theorem advance_encode_of_rest (hb : s.busy .runSegmenter = true) (hi : s.rs.rs_i.toNat < s.rs.n.toNat) :
    advance .runSegmenter s = .next { s with rs := encodePass s.rs } := by
  rw [advance_busy hb]
  obtain ⟨-, he⟩ | ⟨hle, -⟩ := encodeStep_cases s
  · exact congrArg Host.Outcome.next he
  · omega

/-- run_segmenter at work emits the runs of the scan, one in each step, and answers. -/
theorem advanceN_encode {fuel : Nat} (hb : s.busy .runSegmenter = true) (hbw : s.rs.bw.toNat ≤ 8)
    (holen : 8 * s.rs.rs_olen.toNat ≤ 9 * s.rs.rs_i.toNat) (hfuel : s.rs.rest.length ≤ fuel) :
    ∃ u, s.rs.emits u (segment fuel s.rs.rest) ∧
      advanceN ((segment fuel s.rs.rest).length + 1) .runSegmenter s = .next (s.encodeAnswered u) := by
  induction fuel generalizing s with
  | zero =>
    have hrest : s.rs.rest = [] := List.length_eq_zero_iff.mp (Nat.le_zero.mp hfuel)
    exact ⟨s.rs, s.rs.emits_nil, by simp only [segment, List.length_nil, advanceN, advance_encode_of_done hb hrest]⟩
  | succ fuel ih =>
    by_cases hrest : s.rs.rest = []
    · rw [hrest, segment_nil]
      exact ⟨s.rs, s.rs.emits_nil, by simp only [List.length_nil, advanceN, advance_encode_of_done hb hrest]⟩
    · have hi := s.rs.rest_ne_nil_iff.mp hrest
      have hge := nextRun_span_ge s.rs.rest
      have hpass := encodePass_emits hbw hi holen
      have hleft : (encodePass s.rs).rest = s.rs.rest.drop (runSpan (nextRun s.rs.rest)) := by
        rw [hpass.rest, List.flatMap_singleton]
        rfl
      obtain ⟨u, hu, hrun⟩ := ih (s := { s with rs := encodePass s.rs }) hb (hpass.bw.symm ▸ hbw)
        (encodePass_olen_le hbw hi holen) (by rw [hleft, List.length_drop]; omega)
      rw [hleft] at hu hrun
      rw [segment_succ fuel hrest]
      refine ⟨u, hpass.trans hu, ?_⟩
      rw [List.length_cons, advanceN, advance_encode_of_rest hb hi]
      exact hrun

end steps

/-! ### The command -/

/-- ENCODE, accepted in `s`, before its first run. -/
def State.encodeStarted (s : State) (bw : BitVec 8) (n : BitVec 32) : State :=
  (s.accept .runSegmenter).latchEncode bw n

/-- The range check of acceptance is the one of the contract. -/
theorem anyOutOfRange_eq_any (vin : Memory) (n bw : Nat) :
    anyOutOfRange vin n bw = (Memory.slice vin 0 n).any fun v => decide (2 ^ bw ≤ v.toNat) := by
  simp [anyOutOfRange, Memory.slice, Function.comp_def]

/-- What ENCODE at an idle unit does: it begins, or it is answered with an error. -/
theorem exec_encode_cases {s : State} (bw : BitVec 8) (n : BitVec 32) (hb : s.busy .runSegmenter = false) :
    (legalWidth bw = true ∧ (∀ v ∈ Memory.slice s.rs.vin 0 n.toNat, v.toNat < 2 ^ bw.toNat) ∧
      exec (.encode .runSegmenter bw n) s = .next (s.encodeStarted bw n)) ∨
    (∃ k, k ≠ .ok ∧ encodeStream bw (Memory.slice s.rs.vin 0 n.toNat) = .error k ∧
      exec (.encode .runSegmenter bw n) s = .next ((s.encodeStarted bw n).raise .runSegmenter k)) := by
  have hbegin : exec (.encode .runSegmenter bw n) s = .next
      (if legalWidth bw then
        if anyOutOfRange s.rs.vin n.toNat bw.toNat then (s.encodeStarted bw n).raise .runSegmenter .valueOutOfRange
        else s.encodeStarted bw n
      else (s.encodeStarted bw n).raise .runSegmenter .badArgument) := presented_own (beginEncode bw n) hb
  rw [hbegin, anyOutOfRange_eq_any, encodeStream]
  cases hbw : legalWidth bw with
  | false => exact .inr ⟨.badArgument, by decide, rfl, rfl⟩
  | true =>
    cases hany : (Memory.slice s.rs.vin 0 n.toNat).any fun v => decide (2 ^ bw.toNat ≤ v.toNat) with
    | true => exact .inr ⟨.valueOutOfRange, by decide, rfl, rfl⟩
    | false => exact .inl ⟨rfl, by simpa using hany, rfl⟩

section encode
variable {s : State} {bw : BitVec 8} {n : BitVec 32}

/-- ENCODE, begun, emits the runs of the scan of its input and answers. -/
theorem advanceN_encodeStarted (hbw : legalWidth bw = true) :
    let runs := segment n.toNat (Memory.slice s.rs.vin 0 n.toNat)
    ∃ u, (s.encodeStarted bw n).rs.emits u runs ∧
      advanceN (runs.length + 1) .runSegmenter (s.encodeStarted bw n) =
        .next ((s.encodeStarted bw n).encodeAnswered u) :=
  advanceN_encode (s := s.encodeStarted bw n) rfl ((legalWidth_iff bw).mp hbw).2 (Nat.zero_le _)
    (by rw [RunSegmenter.rest, valuesFrom, Memory.length_slice]; exact Nat.sub_le _ _)

end encode

/-- Runs of at least 8 positions each cover at least 8 positions each. -/
theorem eight_mul_length_le {runs : List Run} (h : ∀ run ∈ runs, 8 ≤ runSpan run) :
    8 * runs.length ≤ (runs.flatMap runValues).length := by
  induction runs with
  | nil => exact le_rfl
  | cons run runs ih =>
    obtain ⟨hrun, hruns⟩ := List.forall_mem_cons.mp h
    rw [runSpan] at hrun
    have := ih hruns
    rw [List.length_cons, List.flatMap_cons, List.length_append]
    omega

/-- A scan emits one run for at least every 8 values or part of them. -/
theorem length_segment_le {fuel : Nat} {vs : List Value} (hfuel : vs.length ≤ fuel) :
    (segment fuel vs).length ≤ (vs.length + 7) / 8 := by
  obtain ⟨p, hp, hvalues, -⟩ := segment_values hfuel
  have hspans := eight_mul_length_le (segment_span_ge (fuel := fuel) (vs := vs))
  rw [hvalues, List.length_append, List.length_replicate] at hspans
  omega

theorem Memory.forall_mem_slice (m : Memory) (len : Nat) (p : Value → Prop) :
    (∀ v ∈ Memory.slice m 0 len, p v) ↔ ∀ k, k < len → p (Memory.read m k) := by
  simp [Memory.slice]

/-- Settles O34: a pass moves the cursor past the run it emits, so in the end it stands past the values of all runs, which
are the input and its padding. -/
theorem encodeScanCoversInput : Obligations.EncodeScanCoversInput := by
  unfold Obligations.EncodeScanCoversInput
  constructor
  · rintro s t hb ⟨-, holen, hlegal⟩ hi ht
    obtain ⟨-, hbw⟩ := (legalWidth_iff _).mp (hlegal hb)
    have hpass := (encodePass_emits hbw hi holen).cursor
    have hge := nextRun_span_ge s.rs.rest
    rw [advance_encode_of_rest hb hi] at ht
    obtain rfl := Host.Outcome.next.inj ht
    rw [List.flatMap_singleton] at hpass
    exact (Nat.add_le_add_left hge _).trans hpass.ge
  · intro s bw n hb hbw hfit
    have hlen := Memory.length_slice s.rs.vin 0 n.toNat
    obtain ⟨-, -, hexec⟩ | ⟨k, -, herr, -⟩ := exec_encode_cases bw n hb
    · obtain ⟨u, hu, hrun⟩ := advanceN_encodeStarted (s := s) (n := n) hbw
      obtain ⟨p, hp, hvalues, hlast⟩ := segment_values hlen.le
      have hcursor : u.rs_i.toNat = n.toNat + p := by
        rw [hu.cursor, hvalues, List.length_append, hlen, List.length_replicate]
        exact Nat.zero_add _
      have hsteps := length_segment_le hlen.le
      rw [hlen] at hsteps
      refine ⟨_, _, hexec, ⟨_, Nat.add_le_add_right hsteps 1, hrun⟩, rfl, ?_⟩
      simp only [show ((s.encodeStarted bw n).encodeAnswered u).rs.rs_i.toNat = n.toNat + p from hcursor, hlen]
      exact ⟨by omega, by omega, by rw [hvalues, Nat.add_sub_cancel_left], fun hpad => hlast (by omega)⟩
    · have hok := encodeStream_ok_iff.mpr ⟨hbw, (Memory.forall_mem_slice _ _ _).mpr hfit, rfl⟩
      exact absurd (herr.symm.trans hok) (by simp)

end Sys2Proof.Machine

/-! The group unpacked inside DECODE: the unpacker's accumulator holds the bits of the number of the bytes read so far that
no value has been taken from yet. -/

namespace Sys2Proof.Machine

/-- How many bytes are read once values 0 to `n - 1` of a group are unpacked. -/
def unpackRead (bw n : Nat) : Nat := (n * bw + 7) / 8

/-- How many bits are buffered once values 0 to `n - 1` of a group are unpacked. -/
def unpackBits (bw n : Nat) : Nat := 8 * unpackRead bw n - n * bw

/-- An unpacker's registers once values 0 to `n - 1` of the group with number `x` are unpacked. -/
def unpackRegs (bw x n : Nat) : UnpackRegs :=
  { bu_acc := BitVec.ofNat 32 (x / 2 ^ (n * bw) % 2 ^ unpackBits bw n)
    bu_nbits := BitVec.ofNat 4 (unpackBits bw n)
    bu_k := BitVec.ofNat 4 n
    bu_j := BitVec.ofNat 4 (unpackRead bw n) }

section unpack
variable {bw x n base : Nat} {sin : Memory}

/-- A value needs a refill exactly where fewer bits than its width are buffered; then one byte is enough. -/
theorem unpackBits_succ (hbw : bw ≤ 8) : unpackBits bw n ≤ 7 ∧ n * bw + unpackBits bw n = 8 * unpackRead bw n ∧
    if unpackBits bw n < bw
      then unpackBits bw (n + 1) + bw = unpackBits bw n + 8 ∧ unpackRead bw (n + 1) = unpackRead bw n + 1
      else unpackBits bw (n + 1) + bw = unpackBits bw n ∧ unpackRead bw (n + 1) = unpackRead bw n := by
  have hplace : (n + 1) * bw = n * bw + bw := Nat.succ_mul n bw
  unfold unpackBits unpackRead
  rw [hplace]
  split_ifs <;> omega

/-- A byte of the number of a list of bytes. -/
theorem unpackNumber_byte (bs : List Byte) {j : Nat} (hj : j < bs.length) :
    bs[j].toNat = unpackNumber bs / 2 ^ (8 * j) % 256 := by
  rw [List.getElem_of_eq (numberBytes_unpackNumber bs).symm hj]
  simp [numberBytes]

/-- The next byte lands in the accumulator above the bits buffered there. -/
theorem unpack_refill {x m : Nat} {b : Byte} (hb : b.toNat = x / 2 ^ m % 256) :
    BitVec.ofNat 32 (x % 2 ^ m) ||| (b.setWidth 32 <<< m) = BitVec.ofNat 32 (x % 2 ^ (m + 8)) := by
  have hlow : x % 2 ^ m < 2 ^ m := Nat.mod_lt _ (Nat.two_pow_pos m)
  have hor : x % 2 ^ m ||| b.toNat <<< m = x % 2 ^ (m + 8) := by
    rw [Nat.or_comm, Nat.shiftLeft_eq, Nat.mul_comm, ← Nat.two_pow_add_eq_or_of_lt hlow, hb, Nat.pow_add, Nat.mod_mul,
      Nat.add_comm]
  have hbyte : b.setWidth 32 <<< m = BitVec.ofNat 32 (b.toNat <<< m) := by
    apply BitVec.eq_of_toNat_eq
    rw [BitVec.toNat_shiftLeft, BitVec.toNat_setWidth_of_le (by omega), BitVec.toNat_ofNat]
  rw [hbyte, ← BitVec.ofNat_or, hor]

/-- An unpacker's registers after the refill ahead of a value (41_bitpack.md R167). -/
def unpackRefill (bw base : Nat) (sin : Memory) (w : UnpackRegs) : UnpackRegs :=
  if w.bu_nbits.toNat < bw then
    { w with
      bu_acc := w.bu_acc ||| ((Memory.read sin (base + w.bu_j.toNat)).setWidth 32 <<< w.bu_nbits.toNat)
      bu_nbits := w.bu_nbits + 8
      bu_j := w.bu_j + 1 }
  else w

/-- A pass is the refill, and then the value is taken off the accumulator. -/
theorem unpackPass_eq (w : UnpackRegs) : unpackPass bw base sin w =
    let r := unpackRefill bw base sin w
    (BitVec.ofNat 8 (r.bu_acc.toNat % 2 ^ bw),
      { bu_acc := r.bu_acc >>> bw, bu_nbits := r.bu_nbits - BitVec.ofNat 4 bw, bu_k := r.bu_k + 1, bu_j := r.bu_j }) := by
  by_cases h : w.bu_nbits.toNat < bw <;> simp [unpackPass, unpackRefill, h]

/-- After the refill the value and the bits that will be left are buffered. -/
theorem unpackRefill_unpackRegs (hbw : bw ≤ 8) (hn : n < 8) (hx : unpackNumber (Memory.slice sin base bw) = x) :
    unpackRefill bw base sin (unpackRegs bw x n) =
      { bu_acc := BitVec.ofNat 32 (x / 2 ^ (n * bw) % 2 ^ (unpackBits bw (n + 1) + bw))
        bu_nbits := BitVec.ofNat 4 (unpackBits bw (n + 1) + bw)
        bu_k := BitVec.ofNat 4 n
        bu_j := BitVec.ofNat 4 (unpackRead bw (n + 1)) } := by
  obtain ⟨hbits, hplace, hsucc⟩ := unpackBits_succ (n := n) hbw
  have hnbits : (unpackRegs bw x n).bu_nbits.toNat = unpackBits bw n := Nat.mod_eq_of_lt (by omega)
  rw [unpackRefill, hnbits]
  by_cases hlt : unpackBits bw n < bw
  · rw [if_pos hlt] at hsucc ⊢
    obtain ⟨hbits', hread'⟩ := hsucc
    have hspan := Nat.mul_le_mul_right bw (show n + 1 ≤ 8 from hn)
    rw [Nat.succ_mul] at hspan
    have hin : unpackRead bw n < bw := by omega
    have hj : (unpackRegs bw x n).bu_j.toNat = unpackRead bw n := Nat.mod_eq_of_lt (by omega)
    have hbyte := unpackNumber_byte (Memory.slice sin base bw) (j := unpackRead bw n) (by simpa using hin)
    rw [Memory.getElem_slice, hx, ← hplace, Nat.pow_add, ← Nat.div_div_eq_div_mul] at hbyte
    rw [hj, hbits', hread', BitVec.ofNat_add (unpackBits bw n), BitVec.ofNat_add (unpackRead bw n),
      ← unpack_refill hbyte]
    rfl
  · rw [if_neg hlt] at hsucc ⊢
    rw [hsucc.1, hsucc.2]
    rfl

/-- A pass takes value `n` off the number of the group's bytes. -/
theorem unpackPass_unpackRegs (hbw : bw ≤ 8) (hn : n < 8) (hx : unpackNumber (Memory.slice sin base bw) = x) :
    unpackPass bw base sin (unpackRegs bw x n) =
      (BitVec.ofNat 8 (x / 2 ^ (n * bw) % 2 ^ bw), unpackRegs bw x (n + 1)) := by
  obtain ⟨hbits, -, -⟩ := unpackBits_succ (n := n + 1) hbw
  have hacc : x / 2 ^ (n * bw) % 2 ^ (unpackBits bw (n + 1) + bw) < 2 ^ 32 :=
    (Nat.mod_lt _ (Nat.two_pow_pos _)).trans_le (Nat.pow_le_pow_right two_pos (by omega))
  have hvalue : x / 2 ^ (n * bw) % 2 ^ (unpackBits bw (n + 1) + bw) % 2 ^ bw = x / 2 ^ (n * bw) % 2 ^ bw :=
    Nat.mod_mod_of_dvd _ (Nat.pow_dvd_pow 2 (by omega))
  have hleft : x / 2 ^ (n * bw) % 2 ^ (unpackBits bw (n + 1) + bw) / 2 ^ bw =
      x / 2 ^ ((n + 1) * bw) % 2 ^ unpackBits bw (n + 1) := by
    rw [Nat.add_comm, Nat.pow_add, Nat.mod_mul_right_div_self, Nat.div_div_eq_div_mul, ← Nat.pow_add, Nat.succ_mul]
  have hnbits : BitVec.ofNat 4 (unpackBits bw (n + 1) + bw) - BitVec.ofNat 4 bw =
      BitVec.ofNat 4 (unpackBits bw (n + 1)) := by
    rw [BitVec.ofNat_add, BitVec.add_sub_cancel]
  have hk : BitVec.ofNat 4 n + 1 = BitVec.ofNat 4 (n + 1) := (BitVec.ofNat_add n 1).symm
  rw [unpackPass_eq, unpackRefill_unpackRegs hbw hn hx]
  simp only [ofNat_ushiftRight_of_lt bw hacc, BitVec.toNat_ofNat, Nat.mod_eq_of_lt hacc, hvalue, hleft, hnbits, hk]
  rfl

theorem Group.at_setIfInBounds (g : Group) (n k : Nat) (v : Value) (hk : k < 8) :
    Group.at (g.setIfInBounds n v) k = if k = n then v else g.at k := by
  by_cases h : k = n
  · subst h
    simp [Group.at, hk]
  · simp [Group.at, h, Ne.symm h]

/-- A value unpacked from just the bytes of its group. -/
theorem unpackValue_slice (k : Nat) : unpackValue bw (Memory.slice sin base bw) k =
    BitVec.ofNat 8 (unpackNumber (Memory.slice sin base bw) / 2 ^ (k * bw) % 2 ^ bw) := by
  rw [unpackValue, List.take_of_length_le (Memory.length_slice sin base bw).le, Nat.shiftRight_eq_div_pow]

/-- The passes left fill the group from value `n` on. -/
theorem unpackLoop_at (hbw : bw ≤ 8) (hx : unpackNumber (Memory.slice sin base bw) = x) {count : Nat}
    (hn : n + count = 8) (g : Group) {k : Nat} (hk : k < 8) :
    (unpackLoop bw base sin count (unpackRegs bw x n) g).1.at k =
      if k < n then g.at k else unpackValue bw (Memory.slice sin base bw) k := by
  induction count generalizing n g with
  | zero => rw [unpackLoop, if_pos (by omega)]
  | succ count ih =>
    have hindex : (unpackRegs bw x n).bu_k.toNat = n := Nat.mod_eq_of_lt (by omega)
    rw [unpackLoop, unpackPass_unpackRegs hbw (by omega) hx, hindex]
    simp only
    rw [ih (by omega), Group.at_setIfInBounds g n k _ hk]
    by_cases hkn : k = n
    · rw [if_pos (by omega), if_pos hkn, if_neg (by omega), hkn, unpackValue_slice, hx]
    · rw [if_neg hkn]
      exact if_congr (by omega) rfl rfl

/-- run_reader's own bit_unpacker fills the group as the contract says (41_bitpack.md R168). -/
theorem unpackWhole_group (hbw : bw ≤ 8) (g : Group) :
    (unpackWhole bw base sin g).1 = unpackGroup bw (Memory.slice sin base bw) := by
  have hregs : ∀ x, unpackRegs bw x 0 = {} := fun x => by simp [unpackRegs, unpackBits, unpackRead, Nat.mod_one]
  refine Group.ext_at fun k hk => ?_
  have h := unpackLoop_at (sin := sin) (base := base) hbw rfl (show 0 + Config.groupSize = 8 from rfl) g hk
  rw [hregs, if_neg (Nat.not_lt_zero k)] at h
  exact h.trans (unpackGroup_at bw _ hk).symm

end unpack

end Sys2Proof.Machine

/-! The header fetch inside DECODE: run_reader takes in a header as VDEC takes in a varint that begins at `rr_pos`. -/

namespace Sys2Proof.Machine

/-! ### The buffer from an offset on -/

/-- The buffer that holds at offset `k` what `m` holds at offset `base + k`. -/
def Memory.startingAt (m : Memory) (base : Nat) : Memory :=
  m.filterMap fun c => if base ≤ c.1 then some (c.1 - base, c.2) else none

@[simp] theorem Memory.read_startingAt (m : Memory) (base k : Nat) :
    Memory.read (Memory.startingAt m base) k = Memory.read m (base + k) := by
  induction m with
  | nil => rfl
  | cons c m ih =>
    obtain ⟨a, b⟩ := c
    rw [Memory.startingAt] at ih ⊢
    by_cases ha : base ≤ a
    · have hoffset : a - base = k ↔ a = base + k := by omega
      simp only [List.filterMap_cons, if_pos ha, Memory.read, ih, hoffset]
    · have hoffset : a ≠ base + k := by omega
      simp only [List.filterMap_cons, if_neg ha, Memory.read, ih, if_neg hoffset]

/-- The bytes `bs` stand in `m` from offset `a` on. -/
def Memory.holds (m : Memory) (a : Nat) (bs : List Byte) : Prop := Memory.slice m a bs.length = bs

theorem Memory.holds.read_eq {m : Memory} {a k : Nat} {bs : List Byte} (h : m.holds a bs) (hk : k < bs.length) :
    Memory.read m (a + k) = bs[k] := by
  rw [← Memory.getElem_slice m a bs.length k (by rwa [Memory.length_slice])]
  exact List.getElem_of_eq h _

theorem Memory.holds.congr {m m' : Memory} {a : Nat} {bs : List Byte} (h : m.holds a bs)
    (heq : ∀ k, k < bs.length → Memory.read m' (a + k) = Memory.read m (a + k)) : m'.holds a bs := by
  rw [Memory.holds, ← h, Memory.length_slice]
  exact List.map_congr_left fun k hk => heq k (List.mem_range.mp hk)

/-- Bytes written stand where they are written. -/
theorem Memory.holds_writeList {m : Memory} (hm : Memory.wf m = true) {a : Nat} {bs : List Byte}
    (ha : a + bs.length ≤ Config.spaceSize) : (Memory.writeList m a bs).holds a bs :=
  List.ext_getElem (Memory.length_slice _ _ _) fun k _ hk => by
    rw [Memory.getElem_slice, Memory.read_writeList_inside bs hm ha hk]

theorem Memory.slice_add (m : Memory) (a j k : Nat) :
    Memory.slice m a (j + k) = Memory.slice m a j ++ Memory.slice m (a + j) k := by
  simp [Memory.slice, List.range_add, Function.comp_def, Nat.add_assoc]

theorem Memory.holds_append_iff {m : Memory} {a : Nat} {bs cs : List Byte} :
    m.holds a (bs ++ cs) ↔ m.holds a bs ∧ m.holds (a + bs.length) cs := by
  rw [Memory.holds, List.length_append, Memory.slice_add]
  exact ⟨fun h => List.append_inj h (Memory.length_slice _ _ _), fun h => congrArg₂ (· ++ ·) h.1 h.2⟩

/-! ### The header fetch -/

/-- The registers of run_reader's own varint_decoder after bytes 0 to `n - 1` of the header at `rr_pos`. -/
def State.headerRegs (s : State) (n : Nat) : VdecRegs :=
  varintRegs (Memory.read (s.rr.sin.startingAt s.rr.rr_pos.toNat)) n

/-- run_reader inside the header fetch, after taking in bytes 0 to `n - 1` of the header at `rr_pos`. -/
def State.headerTaken (s : State) (n : Nat) : State :=
  { s with rr := { s.rr with vd := s.headerRegs n, phase := .header } }

/-- run_reader before the run whose header `h` is the varint of `m` bytes at `rr_pos`. -/
def State.headerDone (s : State) (m : Nat) : State :=
  varintDone .reader (s.headerRegs m) s

section header
variable {s : State} {n : Nat}

/-- A header byte that may be taken in is. -/
theorem advance_headerTaken_of_fits (hb : s.busy .runReader = true)
    (hfits : varintFits (Memory.read (s.rr.sin.startingAt s.rr.rr_pos.toNat)) n)
    (hlt : n < s.rr.slen.toNat - s.rr.rr_pos.toNat) :
    (contBit (Memory.read (s.rr.sin.startingAt s.rr.rr_pos.toNat) n) = true ∧
      advance .runReader (s.headerTaken n) = .next (s.headerTaken (n + 1))) ∨
    (contBit (Memory.read (s.rr.sin.startingAt s.rr.rr_pos.toNat) n) = false ∧
      advance .runReader (s.headerTaken n) = .next (s.headerDone (n + 1))) := by
  have hn : (s.headerTaken n).rr.vd.vd_n.toNat = n := varintRegs_n _ hfits.1.le
  have habs := varintAbsorb_varintRegs hfits
  have hcases := readerStep_header_cases (s.headerTaken n) rfl
  rw [hn, show (s.headerTaken n).rr.rr_pos = s.rr.rr_pos from rfl, show (s.headerTaken n).rr.sin = s.rr.sin from rfl,
    ← Memory.read_startingAt] at hcases
  rw [advance_busy (s := s.headerTaken n) hb]
  obtain ⟨(h10 | hle) | hnone, -⟩ | ⟨-, -, w, hw, h⟩ := hcases
  · exact absurd h10 hfits.1.ne
  · exact absurd hlt (Nat.not_lt.mpr hle)
  · exact absurd (hnone.symm.trans habs) (by simp)
  · obtain rfl := Option.some.inj (hw.symm.trans habs)
    exact h

/-- Header bytes that all have another to follow take a step each. -/
theorem advanceN_headerTaken (hb : s.busy .runReader = true)
    (h : ∀ k, k < n → varintGoesOn (Memory.read (s.rr.sin.startingAt s.rr.rr_pos.toNat))
      (s.rr.slen.toNat - s.rr.rr_pos.toNat) k) :
    advanceN n .runReader (s.headerTaken 0) = .next (s.headerTaken n) := by
  induction n with
  | zero => rfl
  | succ n ih =>
    obtain ⟨hfits, hlt, hc⟩ := h n (by omega)
    rw [advanceN_add n 1 _ _ _ (ih fun k hk => h k (by omega))]
    obtain ⟨-, he⟩ | ⟨hc', -⟩ := advance_headerTaken_of_fits hb hfits hlt
    · simp only [advanceN, he]
    · exact absurd (hc.symm.trans hc') (by decide)

/-- A header of `m` bytes is complete after `m` steps. -/
theorem advanceN_header_ok {m : Nat} (hb : s.busy .runReader = true)
    (h : varintEndsAt (s.rr.sin.startingAt s.rr.rr_pos.toNat) (s.rr.slen.toNat - s.rr.rr_pos.toNat) m) :
    advanceN m .runReader (s.headerTaken 0) = .next (s.headerDone m) := by
  obtain ⟨n, rfl⟩ := Nat.exists_eq_add_of_le' h.1
  obtain ⟨hprev, hfits, hlt, hlast⟩ := varintEndsAt_succ_iff.mp h
  rw [advanceN_add n 1 _ _ _ (advanceN_headerTaken hb hprev)]
  obtain ⟨hc, -⟩ | ⟨-, he⟩ := advance_headerTaken_of_fits hb hfits hlt
  · exact absurd (hlast.symm.trans hc) (by decide)
  · simp only [advanceN, he]

/-- With values owed and bytes left the header fetch begins. -/
theorem advance_top_of_owed (hb : s.busy .runReader = true) (hp : s.rr.phase = .top)
    (hcount : s.rr.rr_count.toNat < s.rr.total.toNat) (hpos : s.rr.rr_pos ≠ s.rr.slen) :
    advance .runReader s = .next (s.headerTaken 0) := by
  rw [advance_busy hb]
  obtain ⟨hle, -⟩ | ⟨-, he, -⟩ | ⟨-, -, he⟩ := readerTop_cases s
  · omega
  · exact absurd he hpos
  · exact (readerStep_top s hp).trans (congrArg Host.Outcome.next he)

/-- The bytes of a varint, wherever they stand. -/
theorem holdsVarint_startingAt {sin : Memory} {base : Nat} {v : BitVec 64} (h : sin.holds base (varintBytes v)) :
    holdsVarint (sin.startingAt base) v := by
  intro k hk
  have hlen : k < (varintBytes v).length := by rwa [length_varintBytes]
  rw [Memory.read_startingAt, h.read_eq hlen]
  exact getElem_groupBytes_toNat v _ k hlen

/-- run_reader before the run with header `h`, its varint taken in (43_reader.md R224). -/
def State.headerRead (s : State) (w : VdecRegs) (h : BitVec 64) : State :=
  { s with rr := { s.rr with
      vd := w, rr_h := h, rr_pos := s.rr.rr_pos + BitVec.ofNat 33 (varintLen h), phase := .body } }

/-- From the stop test on, a minimal header takes one step more than it has bytes. -/
theorem advanceN_header {h : BitVec 64} (hb : s.busy .runReader = true) (hp : s.rr.phase = .top)
    (hcount : s.rr.rr_count.toNat < s.rr.total.toNat)
    (hslen : s.rr.rr_pos.toNat + varintLen h ≤ s.rr.slen.toNat)
    (hbytes : s.rr.sin.holds s.rr.rr_pos.toNat (varintBytes h)) :
    ∃ w, advanceN (varintLen h + 1) .runReader s = .next (s.headerRead w h) := by
  have hholds := holdsVarint_startingAt hbytes
  have hpos := (leastGroups_varintLen h).one_le
  have hlen := varintLen_le h
  have hends := varintEndsAt_of_holdsVarint hholds (Nat.le_sub_of_add_le' hslen)
  have hvalue : (s.headerRegs (varintLen h)).vd_acc = h := by
    rw [State.headerRegs, varintRegs, varintSum_of_holdsVarint hholds, BitVec.ofNat_toNat, BitVec.setWidth_eq]
  have hcursor : (s.headerRegs (varintLen h)).vd_n.setWidth 33 = BitVec.ofNat 33 (varintLen h) := by
    apply BitVec.eq_of_toNat_eq
    rw [BitVec.toNat_setWidth_of_le (by decide), State.headerRegs, varintRegs_n _ hlen, BitVec.toNat_ofNat]
    omega
  have hdone : s.headerDone (varintLen h) = s.headerRead (s.headerRegs (varintLen h)) h := by
    simp only [State.headerDone, varintDone, State.headerRead, hvalue, hcursor]
  refine ⟨s.headerRegs (varintLen h), ?_⟩
  rw [advanceN, advance_top_of_owed hb hp hcount (fun he => by rw [he] at hslen; omega)]
  exact (advanceN_header_ok hb hends).trans (congrArg Host.Outcome.next hdone)

end header

end Sys2Proof.Machine

/-! DECODE of a stream of runs (O45): each run takes at most two steps for each of its bytes and appends the values it stands
for, as many as are owed; ENCODE's stream is of this kind. -/

namespace Sys2Proof.Machine

/-! ### What run_reader has read and appended -/

/-- Between two stop tests, at `u` and at `u'`, run_reader has read `k` bytes and appended the values `vs`. -/
structure RunReader.reads (u u' : RunReader) (k : Nat) (vs : List Value) : Prop where
  bw : u'.bw = u.bw
  total : u'.total = u.total
  slen : u'.slen = u.slen
  sin : u'.sin = u.sin
  phase : u'.phase = .top
  pos : u'.rr_pos.toNat = u.rr_pos.toNat + k
  count : u'.rr_count.toNat = u.rr_count.toNat + vs.length
  vout : u'.vout = Memory.writeList u.vout u.rr_count.toNat vs

theorem RunReader.reads_nil {u : RunReader} (h : u.phase = .top) : u.reads u 0 [] :=
  ⟨rfl, rfl, rfl, rfl, h, rfl, rfl, rfl⟩

theorem RunReader.reads.trans {u u' u'' : RunReader} {k k' : Nat} {vs vs' : List Value} (h : u.reads u' k vs)
    (h' : u'.reads u'' k' vs') : u.reads u'' (k + k') (vs ++ vs') where
  bw := h'.bw.trans h.bw
  total := h'.total.trans h.total
  slen := h'.slen.trans h.slen
  sin := h'.sin.trans h.sin
  phase := h'.phase
  pos := by rw [h'.pos, h.pos, Nat.add_assoc]
  count := by rw [h'.count, h.count, List.length_append, Nat.add_assoc]
  vout := by rw [h'.vout, h.vout, h.count, Memory.writeList_append]

/-- Values appended after the bytes are read. -/
theorem RunReader.reads.appendAll {u u₀ : RunReader} {k : Nat} {vs : List Value} (h₀ : u.reads u₀ k [])
    (hroom : vs.length ≤ u.room) : u.reads (appendAll u₀ vs) k vs := by
  have hstart : u₀.rr_count.toNat = u.rr_count.toNat := h₀.count
  have hbuffer : u₀.vout = u.vout := h₀.vout
  have htotal := u.total.isLt
  have hstart_lt := u.rr_count.isLt
  rw [RunReader.room] at hroom
  obtain ⟨hcount, hvout⟩ := appendAll_spec vs u₀ (by omega)
  rw [hstart] at hcount hvout
  rw [hbuffer] at hvout
  rw [appendAll_frame]
  exact ⟨h₀.bw, h₀.total, h₀.slen, h₀.sin, h₀.phase, h₀.pos, hcount, hvout⟩

/-! ### One run -/

/-- The header of a run (30_encoding.md R93, R94). -/
def runHeader : Run → BitVec 64
  | .rle _ c => rleHeader c
  | .bp _ => Config.bpHeader

/-- The bytes of a run after its header (30_encoding.md R93, R94). -/
def runBody (bw : Nat) : Run → List Byte
  | .rle v _ => [v]
  | .bp g => packBytes bw g

theorem runBytes_eq_append (bw : Nat) (run : Run) : Run.bytes bw run = varintBytes (runHeader run) ++ runBody bw run := by
  cases run <;> rfl

theorem length_runBytes (bw : Nat) (run : Run) :
    (Run.bytes bw run).length = varintLen (runHeader run) + (runBody bw run).length := by
  rw [runBytes_eq_append, List.length_append, length_varintBytes]

theorem decodeHeader_rleHeader (c : BitVec 63) : decodeHeader (rleHeader c) = .rle c := by
  have hheader := rleHeader_toNat c
  rw [decodeHeader_of_even (by omega)]
  congr 1
  apply BitVec.eq_of_toNat_eq
  rw [headerField_toNat]
  omega

section run
variable {s : State} {bw : Nat}

theorem State.headerRead_pos {w : VdecRegs} {h : BitVec 64} (hslen : s.rr.rr_pos.toNat + varintLen h ≤ s.rr.slen.toNat) :
    (s.headerRead w h).rr.rr_pos.toNat = s.rr.rr_pos.toNat + varintLen h := by
  have hspace := s.rr.slen.isLt
  have hlen : (BitVec.ofNat 33 (varintLen h)).toNat = varintLen h := Nat.mod_eq_of_lt (by omega)
  exact (BitVec.toNat_add_of_lt (by omega)).trans (by rw [hlen])

/-- The step after the header is the run instruction it selects. -/
theorem advance_headerRead {w : VdecRegs} {h : BitVec 64} (hb : s.busy .runReader = true) :
    advance .runReader (s.headerRead w h) = exec (decodeHeader h) (s.headerRead w h) := by
  rw [advance_busy (s := s.headerRead w h) hb]
  exact readerStep_body (s.headerRead w h) rfl

/-- The body of an RLE run: its value is appended, as often as values are owed at most. -/
theorem advance_rle {c : BitVec 63} {w : VdecRegs} {v : Value} (hb : s.busy .runReader = true)
    (hslen : s.rr.rr_pos.toNat + (Run.bytes bw (.rle v c)).length ≤ s.rr.slen.toNat)
    (hbody : s.rr.sin.holds (s.rr.rr_pos.toNat + varintLen (rleHeader c)) [v]) :
    ∃ u, advance .runReader (s.headerRead w (rleHeader c)) = .next { s with rr := u } ∧
      s.rr.reads u (Run.bytes bw (.rle v c)).length ((runValues (.rle v c)).take s.rr.room) := by
  have hlen : (Run.bytes bw (.rle v c)).length = varintLen (rleHeader c) + 1 := length_runBytes bw _
  have hpos : (s.headerRead w (rleHeader c)).rr.rr_pos.toNat = s.rr.rr_pos.toNat + varintLen (rleHeader c) :=
    State.headerRead_pos (by omega)
  have hvalue : Memory.read s.rr.sin (s.headerRead w (rleHeader c)).rr.rr_pos.toNat = v := by
    rw [hpos]
    exact hbody.read_eq (k := 0) Nat.one_pos
  have hspace := s.rr.slen.isLt
  rw [advance_headerRead hb, decodeHeader_rleHeader]
  obtain ⟨hend, -⟩ | ⟨-, he⟩ := execRle_cases c (s.headerRead w (rleHeader c))
  · have hend' : s.rr.slen.toNat = _ := (congrArg BitVec.toNat hend.symm).trans hpos
    omega
  · rw [show (s.headerRead w (rleHeader c)).rr.sin = s.rr.sin from rfl, hvalue] at he
    refine ⟨_, he, ?_⟩
    rw [runValues, List.take_replicate, Nat.min_comm]
    refine RunReader.reads.appendAll ⟨rfl, rfl, rfl, rfl, rfl, ?_, rfl, rfl⟩ ?_
    · rw [hlen, ← Nat.add_assoc, ← hpos]
      exact toNat_add_one _ (by omega)
    · rw [List.length_replicate]
      exact Nat.min_le_left _ _

/-- The body of a bit-packed run: the values of its group are appended, as many as are owed. -/
theorem advance_bp {w : VdecRegs} {g : Group} (hb : s.busy .runReader = true) (hbw : s.rr.bw.toNat ≤ 8)
    (hg : g.fits s.rr.bw.toNat)
    (hslen : s.rr.rr_pos.toNat + (Run.bytes s.rr.bw.toNat (.bp g)).length ≤ s.rr.slen.toNat)
    (hbody : s.rr.sin.holds (s.rr.rr_pos.toNat + varintLen Config.bpHeader) (packBytes s.rr.bw.toNat g)) :
    ∃ u, advance .runReader (s.headerRead w Config.bpHeader) = .next { s with rr := u } ∧
      s.rr.reads u (Run.bytes s.rr.bw.toNat (.bp g)).length ((runValues (.bp g)).take s.rr.room) := by
  have hlen : (Run.bytes s.rr.bw.toNat (.bp g)).length = varintLen Config.bpHeader + s.rr.bw.toNat :=
    (length_runBytes _ _).trans (congrArg (_ + ·) (length_packBytes _ g))
  have hpos : (s.headerRead w Config.bpHeader).rr.rr_pos.toNat = s.rr.rr_pos.toNat + varintLen Config.bpHeader :=
    State.headerRead_pos (by omega)
  have hwidth : (s.rr.bw.setWidth 33).toNat = s.rr.bw.toNat := BitVec.toNat_setWidth_of_le (by decide)
  have hspace := s.rr.slen.isLt
  rw [← hpos, Memory.holds, length_packBytes] at hbody
  have hvalues : (runValues (.bp g)).take s.rr.room =
      (unpackWhole s.rr.bw.toNat (s.headerRead w Config.bpHeader).rr.rr_pos.toNat s.rr.sin s.rr.rr_grp).1.toList.take
        (min 8 s.rr.room) := by
    rw [unpackWhole_group hbw, hbody, unpackGroup_packBytes_of_fits hbw hg, runValues, List.take_eq_take_min,
      g.length_toList, Nat.min_comm]
  rw [advance_headerRead hb, show decodeHeader Config.bpHeader = .bp 1 by decide]
  obtain ⟨hend, -⟩ | ⟨-, he⟩ := execBp_cases 1 (s.headerRead w Config.bpHeader)
  · have hend' : s.rr.slen.toNat - (s.rr.rr_pos.toNat + varintLen Config.bpHeader) < s.rr.bw.toNat := hpos ▸ hend
    omega
  · refine ⟨_, he, ?_⟩
    rw [hvalues]
    refine RunReader.reads.appendAll ⟨rfl, rfl, rfl, rfl, rfl, ?_, rfl, rfl⟩ ?_
    · rw [hlen, ← Nat.add_assoc, ← hpos]
      refine (BitVec.toNat_add_of_lt ?_).trans (congrArg (_ + ·) hwidth)
      exact (congrArg₂ (· + ·) hpos hwidth).trans_lt (by omega)
    · rw [List.length_take]
      exact (Nat.min_le_left _ _).trans (Nat.min_le_right _ _)

/-- From the stop test on, a run of values that fit takes at most two steps for each of its bytes. -/
theorem advanceN_run {run : Run} (hb : s.busy .runReader = true) (hp : s.rr.phase = .top)
    (hlegal : legalWidth s.rr.bw = true) (howed : s.rr.rr_count.toNat < s.rr.total.toNat)
    (hfit : ∀ v ∈ runValues run, v.toNat < 2 ^ s.rr.bw.toNat)
    (hslen : s.rr.rr_pos.toNat + (Run.bytes s.rr.bw.toNat run).length ≤ s.rr.slen.toNat)
    (hbytes : s.rr.sin.holds s.rr.rr_pos.toNat (Run.bytes s.rr.bw.toNat run)) :
    ∃ k u, k ≤ 2 * (Run.bytes s.rr.bw.toNat run).length ∧ advanceN k .runReader s = .next { s with rr := u } ∧
      s.rr.reads u (Run.bytes s.rr.bw.toNat run).length ((runValues run).take s.rr.room) := by
  obtain ⟨hbw1, hbw⟩ := (legalWidth_iff _).mp hlegal
  have hlen := length_runBytes s.rr.bw.toNat run
  have hheader_len := (leastGroups_varintLen (runHeader run)).one_le
  have hbody_len : 1 ≤ (runBody s.rr.bw.toNat run).length := by
    cases run with
    | rle v c => exact le_rfl
    | bp g => rwa [runBody, length_packBytes]
  rw [runBytes_eq_append, Memory.holds_append_iff, length_varintBytes] at hbytes
  obtain ⟨hheader_bytes, hbody_bytes⟩ := hbytes
  obtain ⟨w, hheader⟩ := advanceN_header hb hp howed (by omega) hheader_bytes
  have hbody : ∃ u, advance .runReader (s.headerRead w (runHeader run)) = .next { s with rr := u } ∧
      s.rr.reads u (Run.bytes s.rr.bw.toNat run).length ((runValues run).take s.rr.room) := by
    cases run with
    | rle v c => exact advance_rle hb hslen hbody_bytes
    | bp g => exact advance_bp hb hbw (fits_of_runValues_lt hfit) hslen hbody_bytes
  obtain ⟨u, hbody, hreads⟩ := hbody
  refine ⟨varintLen (runHeader run) + 1 + 1, u, by omega, ?_, hreads⟩
  rw [advanceN_add _ 1 _ _ _ hheader, advanceN, hbody]
  rfl

end run

/-! ### The stream -/

/-- run_reader, at work in `s`, after its answer OK with working registers and output buffer as in `u`. -/
def State.decodeAnswered (s : State) (u : RunReader) : State := State.respond { s with rr := u } .runReader .ok

theorem advance_top_of_done {s : State} (hb : s.busy .runReader = true) (hp : s.rr.phase = .top)
    (hroom : s.rr.room = 0) : advance .runReader s = .next (s.decodeAnswered s.rr) := by
  rw [RunReader.room] at hroom
  rw [advance_busy hb]
  obtain ⟨-, he⟩ | ⟨hlt, -⟩ | ⟨hlt, -⟩ := readerTop_cases s
  · exact (readerStep_top s hp).trans (congrArg Host.Outcome.next he)
  · omega
  · omega

/-- run_reader at work on a stream of runs that stand for the values owed, and maybe more, appends those owed and answers OK;
where fewer than 8 more are there, it has read the whole stream. -/
theorem advanceN_decode {runs : List Run} {s : State} (hb : s.busy .runReader = true) (hp : s.rr.phase = .top)
    (hlegal : legalWidth s.rr.bw = true) (hfit : ∀ run ∈ runs, ∀ v ∈ runValues run, v.toNat < 2 ^ s.rr.bw.toNat)
    (hspan : ∀ run ∈ runs, 8 ≤ runSpan run)
    (hslen : s.rr.slen.toNat = s.rr.rr_pos.toNat + (runs.flatMap (Run.bytes s.rr.bw.toNat)).length)
    (hbytes : s.rr.sin.holds s.rr.rr_pos.toNat (runs.flatMap (Run.bytes s.rr.bw.toNat)))
    (hroom : s.rr.room ≤ (runs.flatMap runValues).length) :
    ∃ k u m, k ≤ 2 * (runs.flatMap (Run.bytes s.rr.bw.toNat)).length + 1 ∧
      advanceN k .runReader s = .next (s.decodeAnswered u) ∧
      s.rr.reads u m ((runs.flatMap runValues).take s.rr.room) ∧
      ((runs.flatMap runValues).length < s.rr.room + 8 → m = (runs.flatMap (Run.bytes s.rr.bw.toNat)).length) := by
  induction runs generalizing s with
  | nil =>
    have hdone : s.rr.room = 0 := Nat.le_zero.mp hroom
    exact ⟨1, s.rr, 0, by omega, by rw [advanceN, advance_top_of_done hb hp hdone]; rfl, by
      rw [hdone]; exact RunReader.reads_nil hp, fun _ => rfl⟩
  | cons run runs ih =>
    obtain ⟨hfit, hfits⟩ := List.forall_mem_cons.mp hfit
    obtain ⟨hspan, hspans⟩ := List.forall_mem_cons.mp hspan
    rw [runSpan] at hspan
    rw [List.flatMap_cons, List.length_append] at hslen hroom
    rw [List.flatMap_cons, Memory.holds_append_iff] at hbytes
    rw [List.flatMap_cons, List.flatMap_cons, List.length_append, List.length_append]
    by_cases hdone : s.rr.room = 0
    · exact ⟨1, s.rr, 0, by omega, by rw [advanceN, advance_top_of_done hb hp hdone]; rfl, by
        rw [hdone]; exact RunReader.reads_nil hp, by omega⟩
    · have howed : s.rr.rr_count.toNat < s.rr.total.toNat := by rw [RunReader.room] at hdone; omega
      obtain ⟨j, u, hj, hrun, hreads⟩ := advanceN_run hb hp hlegal howed hfit (by omega) hbytes.1
      have hroom' : u.room = s.rr.room - (runValues run).length := by
        have hcount := hreads.count
        rw [List.length_take] at hcount
        simp only [RunReader.room, hreads.total] at hcount ⊢
        omega
      obtain ⟨k, u', m, hk, hrest, hreads', hall⟩ := ih (s := { s with rr := u }) hb hreads.phase
        (hreads.bw.symm ▸ hlegal) (hreads.bw.symm ▸ hfits) hspans
        (by simp only [hreads.slen, hreads.pos, hreads.bw]; omega)
        (by simp only [hreads.sin, hreads.pos, hreads.bw]; exact hbytes.2)
        (by simp only [hroom']; omega)
      simp only [hreads.bw, hroom'] at hk hall
      refine ⟨j + k, u', (Run.bytes s.rr.bw.toNat run).length + m, by omega, ?_, ?_, fun hlast => ?_⟩
      · rw [advanceN_add _ _ _ _ _ hrun, hrest]
        rfl
      · rw [List.take_append, ← hroom']
        exact hreads.trans hreads'
      · rw [hall (by omega)]

/-! ### The command -/

theorem exec_decode {s : State} {bw : BitVec 8} (total : BitVec 32) (slen : BitVec 33) (hb : s.busy .runReader = false)
    (hbw : legalWidth bw = true) : exec (.decode .runReader bw total slen) s =
      .next ((s.accept .runReader).latchDecode bw total slen) := by
  refine (presented_own (beginDecode bw total slen) hb).trans (congrArg Host.Outcome.next ?_)
  exact if_pos hbw

/-- DECODE of a stream of runs that stand for at least `total` values. -/
theorem exec_decode_runs {s : State} {bw : BitVec 8} {total : BitVec 32} {slen : BitVec 33} {runs : List Run}
    (hb : s.busy .runReader = false) (hlegal : legalWidth bw = true)
    (hfit : ∀ run ∈ runs, ∀ v ∈ runValues run, v.toNat < 2 ^ bw.toNat) (hspan : ∀ run ∈ runs, 8 ≤ runSpan run)
    (hslen : slen.toNat = (runs.flatMap (Run.bytes bw.toNat)).length)
    (hbytes : s.rr.sin.holds 0 (runs.flatMap (Run.bytes bw.toNat)))
    (htotal : total.toNat ≤ (runs.flatMap runValues).length) :
    ∃ t r, exec (.decode .runReader bw total slen) s = .next t ∧ t.reachesWithin .runReader (2 * slen.toNat + 2) r ∧
      r.control .runReader = answeredWith .ok ∧
      r.rr.vout = Memory.writeList s.rr.vout 0 ((runs.flatMap runValues).take total.toNat) ∧
      ((runs.flatMap runValues).length < total.toNat + 8 → r.rr.rr_pos = slen) := by
  obtain ⟨k, u, m, hk, hrun, hreads, hall⟩ := advanceN_decode
    (s := (s.accept .runReader).latchDecode bw total slen) rfl rfl hlegal hfit hspan
    (hslen.trans (Nat.zero_add _).symm) hbytes htotal
  refine ⟨_, _, exec_decode total slen hb hlegal, ⟨k, hk.trans (by rw [hslen]; exact Nat.le_succ _), hrun⟩, rfl,
    hreads.vout, fun hlast => BitVec.eq_of_toNat_eq ?_⟩
  exact hreads.pos.trans ((Nat.zero_add m).trans ((hall hlast).trans hslen.symm))

/-- What ENCODE, answered OK, leaves in its output buffer: the bytes of the runs of the scan of its input. -/
theorem encode_answered_ok {s t r : State} {k : Nat} {bw : BitVec 8} {n : BitVec 32}
    (hb : s.busy .runSegmenter = false) (hwf : Memory.wf s.rs.sout = true)
    (ht : exec (.encode .runSegmenter bw n) s = .next t) (hr : advanceN k .runSegmenter t = .next r)
    (hok : r.control .runSegmenter = answeredWith .ok) :
    let vs := Memory.slice s.rs.vin 0 n.toNat
    let bs := (segment n.toNat vs).flatMap (Run.bytes bw.toNat)
    legalWidth bw = true ∧ (∀ v ∈ vs, v.toNat < 2 ^ bw.toNat) ∧ r.rs.olen.toNat = bs.length ∧
      r.rs.sout.holds 0 bs := by
  intro vs bs
  obtain ⟨hlegal, hfit, hexec⟩ | ⟨e, he, -, hexec⟩ := exec_encode_cases bw n hb <;>
    obtain rfl := Host.Outcome.next.inj (hexec.symm.trans ht)
  · obtain ⟨u, hu, hrun⟩ := advanceN_encodeStarted (s := s) (n := n) hlegal
    obtain rfl := advanceN_unique_of_idle hrun hr rfl (congrArg Control.busy hok)
    have holen : u.rs_olen.toNat = bs.length := hu.olen.trans (Nat.zero_add _)
    have hspace := u.rs_olen.isLt
    have hsout : u.sout = Memory.writeList s.rs.sout 0 bs := hu.sout
    have hholds := Memory.holds_writeList hwf (a := 0) (bs := bs) (by rw [Config.spaceSize]; omega)
    exact ⟨hlegal, hfit, holen, hsout ▸ hholds⟩
  · rw [advanceN_idle k (congrArg Control.busy (State.raise_control_self _ _ _))] at hr
    obtain rfl := Host.Outcome.next.inj hr
    rw [State.raise_control_self] at hok
    exact absurd (congrArg Control.status hok) he

/-- Settles O45: ENCODE's stream consists of runs of values that fit, which stand for the input and at most 7 zeros; DECODE
appends as many of these values as are owed, and where that is the whole input no run is left. -/
theorem decodeUndoesEncode : Obligations.DecodeUndoesEncode := by
  unfold Obligations.DecodeUndoesEncode
  intro s₁ t₁ r₁ s₂ k bw n total hb₁ hwf₁ ht₁ hr₁ hok hb₂ hwf₂ hbytes htotal
  obtain ⟨hlegal, hfit, holen, hholds⟩ := encode_answered_ok hb₁ hwf₁ ht₁ hr₁ hok
  have hlen := Memory.length_slice s₁.rs.vin 0 n.toNat
  obtain ⟨p, hp, hvalues, -⟩ := segment_values hlen.le
  have hcount := congrArg List.length hvalues
  rw [List.length_append, hlen, List.length_replicate] at hcount
  obtain ⟨t₂, r₂, ht₂, hr₂, hctl, hvout, hpos⟩ := exec_decode_runs (total := total) hb₂ hlegal
    (runValues_lt_of_mem_segment hlen.le hfit) segment_span_ge holen
    (hholds.congr fun a ha => by simpa using hbytes a (holen ▸ ha)) (by omega)
  refine ⟨t₂, r₂, ht₂, hr₂, hctl, fun a ha => ?_, fun htotal => hpos (by rw [htotal]; omega)⟩
  have htotal_lt := total.isLt
  have hout := Memory.holds_writeList hwf₂ (a := 0)
    (bs := ((segment n.toNat (Memory.slice s₁.rs.vin 0 n.toNat)).flatMap runValues).take total.toNat)
    (by rw [List.length_take, Config.spaceSize]; omega)
  have hread := hout.read_eq (k := a) (by rw [List.length_take]; omega)
  rw [Nat.zero_add] at hread
  rw [hvout, hread, List.getElem_take, List.getElem_of_eq hvalues, List.getElem_append_left (by omega),
    Memory.getElem_slice, Nat.zero_add]

end Sys2Proof.Machine

/-! The run instructions RLE and BP on their own (O37, O38), each an append of at most the room left; DECODE of nothing
(O40); and the scenario's two streams (O44). -/

namespace Sys2Proof.Machine

/-! ### The append within the room -/

section append
variable {u : RunReader} {vs : List Value} {m : Nat}

theorem RunReader.count_add_lt_of_le_room (hm : m ≤ u.room) : u.rr_count.toNat + m < 2 ^ 32 := by
  have hcount := u.rr_count.isLt
  have htotal := u.total.isLt
  rw [RunReader.room] at hm
  omega

/-- Within the room, an append is one advance of the count and one write of the values at the old count. -/
theorem appendAll_eq_of_le_room (hlen : vs.length = m) (hm : m ≤ u.room) :
    ∃ count : BitVec 32, count.toNat = u.rr_count.toNat + m ∧
      appendAll u vs = { u with rr_count := count, vout := Memory.writeList u.vout u.rr_count.toNat vs } := by
  subst hlen
  obtain ⟨hcount, hvout⟩ := appendAll_spec vs u (RunReader.count_add_lt_of_le_room hm)
  exact ⟨_, hcount, hvout ▸ appendAll_frame vs u⟩

/-- Values appended within the room read back. -/
theorem RunReader.read_writeList_vout (hwf : Memory.wf u.vout = true) (hm : vs.length ≤ u.room) {k : Nat}
    (hk : k < vs.length) :
    Memory.read (Memory.writeList u.vout u.rr_count.toNat vs) (u.rr_count.toNat + k) = vs[k] := by
  have hspace := RunReader.count_add_lt_of_le_room hm
  exact Memory.read_writeList_inside vs hwf (by rw [Config.spaceSize]; omega) hk

/-- Values written to `VOUT` change no other element of any buffer. -/
theorem State.onlyStored_writeList_vout {s : State} {a : Nat} (hlen : vs.length = m) (hsin : u.sin = s.rr.sin)
    (hvout : u.vout = Memory.writeList s.rr.vout a vs) : s.onlyStored { s with rr := u } .decodeVout a (a + m) := by
  intro b x hout
  cases b
  case decodeSin => exact congrArg (Memory.read · x) hsin
  case decodeVout =>
    refine (congrArg (Memory.read · x) hvout).trans (Memory.read_writeList_outside vs _ ?_)
    by_contra hin
    exact hout ⟨rfl, by omega, by omega⟩
  all_goals rfl

end append

/-! ### The run instructions -/

/-- Settles O37: the values appended are `min(run_length, room)` copies of the byte read. -/
theorem rleAppendsCappedRun : Obligations.RleAppendsCappedRun := by
  unfold Obligations.RleAppendsCappedRun
  intro s c
  obtain ⟨hend, he⟩ | ⟨hmore, he⟩ := execRle_cases c s
  · exact ⟨fun _ => he, fun hmore => absurd hend hmore⟩
  · refine ⟨fun hend => absurd hend hmore, fun _ hwf => ?_⟩
    have hlen := List.length_replicate (n := min c.toNat s.rr.room) (a := Memory.read s.rr.sin s.rr.rr_pos.toNat)
    have hroom := Nat.min_le_right c.toNat s.rr.room
    obtain ⟨count, hcount, happend⟩ := appendAll_eq_of_le_room (u := { s.rr with
      rr_val := Memory.read s.rr.sin s.rr.rr_pos.toNat, rr_pos := s.rr.rr_pos + 1, phase := .top }) hlen hroom
    rw [happend] at he
    refine ⟨_, he, rfl, rfl, hcount, rfl, fun a hlo hhi => ?_, State.onlyStored_writeList_vout hlen rfl rfl, rfl⟩
    obtain ⟨k, rfl⟩ := Nat.exists_eq_add_of_le hlo
    have hk := (Nat.lt_of_add_lt_add_left hhi).trans_eq hlen.symm
    exact (RunReader.read_writeList_vout hwf (hlen.trans_le hroom) hk).trans (List.getElem_replicate _)

/-- The `k`-th of the first values of a group. -/
theorem Group.getElem_take_toList (g : Group) {m k : Nat} (hk : k < (g.toList.take m).length) :
    (g.toList.take m)[k] = g.at k := by
  have hk8 : k < 8 := (hk.trans_le (List.length_take_le' _ _)).trans_eq g.length_toList
  rw [List.getElem_take, Group.at, Vector.getElem?_eq_getElem hk8]
  rfl

/-- Settles O38: the values appended are the first `min(8, room)` of the group, which is the contract's. -/
theorem bpAppendsOneGroup : Obligations.BpAppendsOneGroup := by
  unfold Obligations.BpAppendsOneGroup
  intro s gc
  refine ⟨fun _ => rfl, ?_⟩
  obtain ⟨hshort, he⟩ | ⟨henough, he⟩ := execBp_cases gc s
  · exact ⟨fun _ => he, fun _ henough => absurd hshort henough.not_gt⟩
  · refine ⟨fun hshort => absurd hshort henough.not_gt, fun hlegal _ hwf => ?_⟩
    obtain ⟨hbw1, hbw8⟩ := (legalWidth_iff _).mp hlegal
    have hspace := s.rr.slen.isLt
    have hwidth : (s.rr.bw.setWidth 33).toNat = s.rr.bw.toNat := BitVec.toNat_setWidth_of_le (by decide)
    have hpos := (BitVec.toNat_add_of_lt (x := s.rr.rr_pos) (y := s.rr.bw.setWidth 33) (by omega)).trans
      (congrArg (_ + ·) hwidth)
    rw [unpackWhole_group hbw8] at he
    generalize unpackGroup _ _ = g at he ⊢
    have hroom := Nat.min_le_right 8 s.rr.room
    have hlen : (g.toList.take (min 8 s.rr.room)).length = min 8 s.rr.room := by
      rw [List.length_take, g.length_toList]
      exact Nat.min_eq_left (Nat.min_le_left _ _)
    obtain ⟨count, hcount, happend⟩ := appendAll_eq_of_le_room (u := { s.rr with
      rr_grp := g, bu := _, rr_pos := s.rr.rr_pos + s.rr.bw.setWidth 33, phase := .top }) hlen hroom
    rw [happend] at he
    refine ⟨_, he, rfl, hpos, hcount, rfl, fun k hk => ?_, State.onlyStored_writeList_vout hlen rfl rfl, rfl⟩
    have hk' := hk.trans_eq hlen.symm
    exact (RunReader.read_writeList_vout hwf (hlen.trans_le hroom) hk').trans (Group.getElem_take_toList g hk')

/-! ### DECODE of nothing -/

theorem exec_decode_illegal {s : State} {bw : BitVec 8} (total : BitVec 32) (slen : BitVec 33)
    (hb : s.busy .runReader = false) (hbw : legalWidth bw = false) : exec (.decode .runReader bw total slen) s =
      .next (((s.accept .runReader).latchDecode bw total slen).raise .runReader .badArgument) := by
  refine (presented_own (beginDecode bw total slen) hb).trans (congrArg Host.Outcome.next ?_)
  exact if_neg (by simp [hbw])

section nothing
variable (s : State) (bw : BitVec 8) (slen : BitVec 33)

theorem State.sameUnit_latchDecode (total : BitVec 32) {u : UnitId} (hu : u ≠ .runReader) :
    s.sameUnit (s.latchDecode bw total slen) u := by
  cases u
  case runReader => exact absurd rfl hu
  all_goals exact ⟨rfl, rfl⟩

/-- run_reader, idle in `s`, after its answer OK to DECODE with `total = 0`. -/
def State.decodedNothing : State := ((s.accept .runReader).latchDecode bw 0 slen).respond .runReader .ok

theorem State.decodedNothing_othersUnchanged : s.othersUnchanged (s.decodedNothing bw slen) .runReader :=
  ⟨fun _ hu => State.sameUnit_trans (State.sameUnit_accept s hu) (State.sameUnit_trans
    (State.sameUnit_latchDecode _ bw slen 0 hu) (State.sameUnit_respond _ .ok hu)), rfl, rfl⟩

theorem State.decodedNothing_nothingStored : s.nothingStored (s.decodedNothing bw slen) := fun b a => by
  rw [State.decodedNothing, State.respond_buffer, State.latchDecode_buffer, State.accept_buffer]

end nothing

/-- Settles O40: with `total = 0` there is no room from the start, so the first stop test answers. -/
theorem decodeOfNothingSucceeds : Obligations.DecodeOfNothingSucceeds := by
  unfold Obligations.DecodeOfNothingSucceeds
  intro s bw slen hb
  refine ⟨fun hlegal => ?_, fun hillegal => ?_⟩
  · have hroom : ((s.accept .runReader).latchDecode bw 0 slen).rr.room = 0 := Nat.zero_sub _
    exact ⟨_, s.decodedNothing bw slen, exec_decode 0 slen hb hlegal, advance_top_of_done rfl rfl hroom, rfl, rfl,
      rfl, s.decodedNothing_nothingStored bw slen, s.decodedNothing_othersUnchanged bw slen⟩
  · exact ⟨_, exec_decode_illegal 0 slen hb hillegal, State.raise_control_self _ _ _⟩

/-! ### The scenario -/

/-- Settles O44, by evaluation of the contracts on the two streams: the last 8 values are one RLE run in the first, one
bit-packed group in the second. -/
theorem decodeIsNotInjective : Obligations.DecodeIsNotInjective := by
  unfold Obligations.DecodeIsNotInjective
  exact ⟨by decide, by decide, by decide⟩

end Sys2Proof.Machine

/-! The statuses an instruction or a step of a unit may give (O17 to O20): each error has its one place in the
pseudocode. -/

namespace Sys2Proof.Machine

/-! ### What an instruction may answer -/

/-- The statuses that the step of an instruction may give a unit (60_exceptions.md R251 to R255). -/
def answers : Instr → List Status
  | .rle _ => [.truncatedBuffer]
  | .bp _ => [.truncatedBuffer]
  | .varintCont _ _ => [.malformedHeader]
  | .varintLast _ _ => [.ok, .malformedHeader]
  | .venc _ _ => [.badArgument]
  | .vdec _ _ => [.badArgument]
  | .pack _ _ _ => [.badArgument]
  | .unpack _ _ _ => [.badArgument, .truncatedBuffer]
  | .classify _ _ _ => [.badArgument]
  | .encode _ _ _ => [.badArgument, .valueOutOfRange]
  | .decode _ _ _ _ => [.badArgument]
  | .reserved _ => [.badArgument]

/-- From `s` to `t` every unit keeps its status or gets one of `ks`. -/
def State.statusKeptOrIn (s t : State) (ks : List Status) : Prop :=
  ∀ u, (t.control u).status = (s.control u).status ∨ (t.control u).status ∈ ks

section statuses
variable {s t : State} {ks : List Status}

theorem State.statusKeptOrIn_of_ctl_eq (h : t.ctl = s.ctl) : s.statusKeptOrIn t ks := fun u =>
  .inl (by rw [State.control, h]; rfl)

theorem State.statusKeptOrIn_accept (s : State) (u : UnitId) : s.statusKeptOrIn (s.accept u) ks := fun v =>
  .inl (State.accept_status s u v)

/-- An answer gives its status to its own unit alone. -/
theorem State.statusKeptOrIn_of_answered {u : UnitId} {k : Status} (hctl : t.ctl = s.ctl.set u (answeredWith k))
    (hk : k ∈ ks) : s.statusKeptOrIn t ks := fun v => by
  rw [State.control, hctl]
  by_cases hv : v = u
  · subst hv; exact .inr (by rwa [Controls.get_set_self])
  · exact .inl (by rw [Controls.get_set_of_ne _ _ hv]; rfl)

theorem State.statusKeptOrIn_raise (s : State) (u : UnitId) {k : Status} (hk : k ∈ ks) :
    s.statusKeptOrIn (s.raise u k) ks :=
  State.statusKeptOrIn_of_answered (State.raise_ctl s u k) hk

theorem State.statusKeptOrIn_trans {r : State} (h : s.statusKeptOrIn r ks) (h' : r.statusKeptOrIn t ks) :
    s.statusKeptOrIn t ks := fun u => by
  obtain he | hin := h' u
  · rw [he]; exact h u
  · exact .inr hin

theorem not_foreignCode_iff {u : UnitId} {op : BitVec 3} : ¬ foreignCode u op ↔ op ≠ 0 ∧ ownerOf op = u := by
  rw [foreignCode, not_or, not_not]

/-- Every command may be answered `BadArgument`, since another unit may get it (30_encoding.md R105). -/
theorem badArgument_mem_answers (u : UnitId) (op : BitVec 3) (x : Operands) :
    .badArgument ∈ answers (decodeCommand u op x) := by
  obtain rfl | rfl | rfl | rfl | rfl | rfl | rfl | rfl := op_cases op
  all_goals exact .head _

/-- The checks ahead of a loop find no other error than those of `answers`. -/
theorem mem_answers_of_promptError {u : UnitId} {op : BitVec 3} {x : Operands} {k : Status} (hf : ¬ foreignCode u op)
    (hk : promptError s u x = some k) : k ∈ answers (decodeCommand u op x) := by
  obtain ⟨h0, rfl⟩ := not_foreignCode_iff.mp hf
  obtain rfl | rfl | rfl | rfl | rfl | rfl | rfl | rfl := op_cases op
  · exact absurd rfl h0
  · cases hk
  · cases hk
  all_goals
    dsimp [ownerOf, promptError] at hk
    split_ifs at hk <;> cases hk <;> simp [decodeCommand, answers]

/-- A command gives no other status than those of `answers`. -/
theorem exec_command_statusKeptOrIn {u : UnitId} {op : BitVec 3} (x : Operands)
    (h : exec (decodeCommand u op x) s = .next t) : s.statusKeptOrIn t (answers (decodeCommand u op x)) := by
  cases hb : s.busy u with
  | true => cases (exec_busy_command u op x hb).symm.trans h; exact State.statusKeptOrIn_of_ctl_eq rfl
  | false =>
    by_cases hf : foreignCode u op
    · cases (exec_foreign_command x hf hb).symm.trans h
      exact State.statusKeptOrIn_trans (s.statusKeptOrIn_accept u)
        (State.statusKeptOrIn_raise _ u (badArgument_mem_answers u op x))
    · obtain ⟨r, hctl, -, -, -, -, hcases⟩ := exec_own_command x hf hb
      have hr : s.statusKeptOrIn r (answers (decodeCommand u op x)) :=
        State.statusKeptOrIn_trans (s.statusKeptOrIn_accept u) (State.statusKeptOrIn_of_ctl_eq hctl)
      obtain ⟨-, he⟩ | ⟨k, hk, he⟩ := hcases <;> cases he.symm.trans h
      · exact hr
      · exact State.statusKeptOrIn_trans hr (State.statusKeptOrIn_raise r u (mem_answers_of_promptError hf hk))

/-- An instruction gives no other status than those of `answers`. -/
theorem exec_statusKeptOrIn {i : Instr} (h : exec i s = .next t) : s.statusKeptOrIn t (answers i) := by
  cases i with
  | rle c =>
    obtain ⟨-, he⟩ | ⟨-, he⟩ := execRle_cases c s <;> cases he.symm.trans h
    · exact s.statusKeptOrIn_raise _ (List.mem_singleton_self _)
    · exact State.statusKeptOrIn_of_ctl_eq rfl
  | bp g =>
    obtain ⟨-, he⟩ | ⟨-, he⟩ := execBp_cases g s <;> cases he.symm.trans h
    · exact s.statusKeptOrIn_raise _ (List.mem_singleton_self _)
    · exact State.statusKeptOrIn_of_ctl_eq rfl
  | varintCont d p =>
    obtain ⟨-, he⟩ | ⟨w, -, he⟩ := execVarintCont_cases d p s <;> cases he.symm.trans h
    · exact s.statusKeptOrIn_raise _ (List.mem_singleton_self _)
    · exact State.statusKeptOrIn_of_ctl_eq (State.setVdecRegs_ctl s d w)
  | varintLast d p =>
    obtain ⟨-, he⟩ | ⟨w, -, he⟩ := execVarintLast_cases d p s <;> cases he.symm.trans h
    · exact s.statusKeptOrIn_raise _ (.tail _ (.head _))
    · cases d with
      | standalone => exact State.statusKeptOrIn_of_answered (u := .varintDecoder) (k := .ok) rfl (.head _)
      | reader => exact State.statusKeptOrIn_of_ctl_eq rfl
  | venc u v => exact exec_command_statusKeptOrIn (op := 1) { v } h
  | vdec u avail => exact exec_command_statusKeptOrIn (op := 2) { avail } h
  | pack u bw vals => exact exec_command_statusKeptOrIn (op := 3) { bw, vals } h
  | unpack u bw avail => exact exec_command_statusKeptOrIn (op := 4) { bw, avail } h
  | classify u n i => exact exec_command_statusKeptOrIn (op := 5) { n, i } h
  | encode u bw n => exact exec_command_statusKeptOrIn (op := 6) { bw, n } h
  | decode u bw total slen => exact exec_command_statusKeptOrIn (op := 7) { bw, total, slen } h
  | reserved u => exact exec_command_statusKeptOrIn (op := 0) {} h

/-- A status that an instruction does not give was there before. -/
theorem exec_status_of_notMem {i : Instr} {k : Status} {u : UnitId} (h : exec i s = .next t) (hk : k ∉ answers i)
    (ht : (t.control u).status = k) : (s.control u).status = k := by
  subst ht
  exact ((exec_statusKeptOrIn h u).resolve_right hk).symm

end statuses

/-! ### What a step of a unit may answer -/

/-- Unit `v`, at the point where it stands in `s`, may give itself status `k` in its next step. -/
def State.mayAnswer (s : State) (v : UnitId) : Status → Prop
  | .ok => True
  | .valueOutOfRange => False
  | .malformedHeader => v = .varintDecoder ∨ v = .runReader ∧ s.rr.phase = .header
  | .truncatedBuffer => v = .runReader ∧ s.rr.phase = .body
  | .overrunError => v = .runReader ∧ s.rr.phase = .top
  | .badArgument => False

/-- A unit that has answered in its step has answered with a status it may give. -/
theorem advance_mayAnswer {v : UnitId} {s t : State} (h : advance v s = .next t)
    (hc : t.control v ≠ s.control v) : s.mayAnswer v (t.control v).status := by
  obtain ⟨-, -, ⟨he, -⟩ | ⟨-, he, -⟩ | ⟨-, k, rfl, hk⟩⟩ := advance_control h
  · exact absurd he hc
  · rw [he]; exact trivial
  · rw [State.raise_control_self]
    obtain ⟨rfl, hk⟩ | ⟨rfl, hk⟩ | ⟨rfl, hk⟩ := hk <;> exact hk

/-- A status that a unit may not give in its step was there before. -/
theorem advance_status_of_not_mayAnswer {v u : UnitId} {s t : State} {k : Status} (h : advance v s = .next t)
    (hk : ¬ s.mayAnswer v k) (ht : (t.control u).status = k) : (s.control u).status = k := by
  subst ht
  obtain ⟨hothers, -⟩ := advance_control h
  by_cases hu : u = v
  · subst hu
    rw [not_not.mp fun hc => hk (advance_mayAnswer h hc)]
  · rw [(hothers u hu).1]

/-! ### What a command answers at once -/

/-- A unit at work has not answered. -/
theorem State.control_ne_answeredWith {s : State} {u : UnitId} (hb : s.busy u = true) (k : Status) :
    s.control u ≠ answeredWith k := fun hc => by
  rw [State.busy_eq, hc] at hb
  exact absurd hb Bool.false_ne_true

/-- A command of its own at an idle unit is answered at once exactly with the error of its checks. -/
theorem exec_own_command_answered_iff {u : UnitId} {op : BitVec 3} (x : Operands) {s : State}
    (hf : ¬ foreignCode u op) (hb : s.busy u = false) (k : Status) :
    ∃ t, exec (decodeCommand u op x) s = .next t ∧
      (t.control u = answeredWith k ↔ promptError s u x = some k) := by
  obtain ⟨r, hctl, -, -, -, -, ⟨hnone, he⟩ | ⟨k', hk', he⟩⟩ := exec_own_command x hf hb
  · have hbusy : r.busy u = true := by rw [State.busy, State.control, hctl, State.accept_ctl, Controls.get_set_self]
    exact ⟨r, he, iff_of_false (State.control_ne_answeredWith hbusy k) (by simp [hnone])⟩
  · refine ⟨_, he, ?_⟩
    rw [State.raise_control_self, hk']
    exact ⟨fun hc => congrArg (some ∘ Control.status) hc, fun hs => by rw [Option.some.inj hs]; rfl⟩

theorem legalWidth_ne_true_iff (bw : BitVec 8) : ¬ legalWidth bw = true ↔ bw = 0 ∨ 9 ≤ bw.toNat := by
  have hzero : bw = 0 ↔ bw.toNat = 0 := BitVec.toNat_inj.symm
  rw [legalWidth_iff, hzero]
  omega

/-- The checks ahead of a loop find `BadArgument` exactly in an illegal `bw`, or in `i >= n` (60_exceptions.md R255). -/
theorem promptError_eq_badArgument_iff {u : UnitId} {op : BitVec 3} (x : Operands) (s : State)
    (hf : ¬ foreignCode u op) : promptError s u x = some .badArgument ↔
      ((op = 3 ∨ op = 4 ∨ op = 6 ∨ op = 7) ∧ (x.bw = 0 ∨ 9 ≤ x.bw.toNat)) ∨ (op = 5 ∧ x.n.toNat ≤ x.i.toNat) := by
  obtain ⟨h0, rfl⟩ := not_foreignCode_iff.mp hf
  rw [← legalWidth_ne_true_iff]
  obtain rfl | rfl | rfl | rfl | rfl | rfl | rfl | rfl := op_cases op
  · exact absurd rfl h0
  all_goals simp [ownerOf, promptError]

/-- A check `p` made after the check of `bw`, as in UNPACK and ENCODE (60_exceptions.md R258), gives its error exactly
where `bw` is legal and `p` holds. -/
theorem check_eq_some_iff {legal : Bool} {p : Prop} [Decidable p] {k : Status} (hk : k ≠ .badArgument) :
    (if legal then if p then some k else none else some .badArgument) = some k ↔ legal = true ∧ p := by
  cases legal
  · simp [hk.symm]
  · simp

/-- Settles O17: a foreign code is answered at once, and a code of the unit's own exactly where its checks find the
error; no step of a unit at work may give it. -/
theorem badArgumentExactly : Obligations.BadArgumentExactly := by
  unfold Obligations.BadArgumentExactly
  refine ⟨fun s u op x hb => ?_, fun s u t hb h hidle hk => ?_⟩
  · by_cases hf : foreignCode u op
    · exact ⟨_, exec_foreign_command x hf hb, iff_of_true (State.raise_control_self _ _ _) (.inl hf)⟩
    · obtain ⟨t, he, hiff⟩ := exec_own_command_answered_iff x hf hb .badArgument
      exact ⟨t, he, hiff.trans ((promptError_eq_badArgument_iff x s hf).trans (or_iff_right hf).symm)⟩
  · have hc : t.control u ≠ s.control u := fun hc => by
      rw [State.busy_eq, hc] at hidle
      exact absurd (hb.symm.trans hidle) (by decide)
    have hmay := advance_mayAnswer h hc
    rw [hk] at hmay
    exact hmay

/-- Settles O18: the check of ENCODE finds a value of at least `2^bw`; no other instruction's answers hold the status,
and no unit's step may give it. -/
theorem valueOutOfRangeExactly : Obligations.ValueOutOfRangeExactly := by
  unfold Obligations.ValueOutOfRangeExactly
  refine ⟨fun s bw n hb => ?_, fun i s t u hi h => exec_status_of_notMem h ?_, fun v s t u h =>
    advance_status_of_not_mayAnswer h id⟩
  · obtain ⟨t, he, hiff⟩ := exec_own_command_answered_iff (u := .runSegmenter) (op := 6) { bw, n }
      (not_foreignCode_iff.mpr (by decide)) hb .valueOutOfRange
    rw [← anyOutOfRange_iff]
    exact ⟨t, he, hiff.trans (check_eq_some_iff (by decide))⟩
  · cases i
    case encode v bw n => exact absurd rfl (hi v bw n)
    all_goals simp [answers]

/-- Settles O19: the checks of UNPACK, RLE and BP find too few bytes; no other instruction's answers hold the status,
and no unit's step but run_reader's at the body of a run may give it. -/
theorem truncatedBufferExactly : Obligations.TruncatedBufferExactly := by
  unfold Obligations.TruncatedBufferExactly
  refine ⟨fun s bw avail hb => ?_, fun s c hb => ?_, fun s g hb => ?_, fun i s t u hu hr hbp h =>
    exec_status_of_notMem h ?_, fun v s t u hv h => advance_status_of_not_mayAnswer h (not_and_or.mpr hv)⟩
  · obtain ⟨t, he, hiff⟩ := exec_own_command_answered_iff (u := .bitUnpacker) (op := 4) { bw, avail }
      (not_foreignCode_iff.mpr (by decide)) hb .truncatedBuffer
    exact ⟨t, he, hiff.trans (check_eq_some_iff (by decide))⟩
  · obtain ⟨hend, he⟩ | ⟨hmore, he⟩ := execRle_cases c s
    · exact ⟨_, he, iff_of_true (State.raise_control_self _ _ _) hend⟩
    · exact ⟨_, he, iff_of_false (State.control_ne_answeredWith (s := { s with rr := _ }) hb _) hmore⟩
  · obtain ⟨hshort, he⟩ | ⟨henough, he⟩ := execBp_cases g s
    · exact ⟨_, he, iff_of_true (State.raise_control_self _ _ _) hshort⟩
    · exact ⟨_, he, iff_of_false (State.control_ne_answeredWith (s := { s with rr := _ }) hb _) henough.not_gt⟩
  · cases i
    case unpack v bw avail => exact absurd rfl (hu v bw avail)
    case rle c => exact absurd rfl (hr c)
    case bp g => exact absurd rfl (hbp g)
    all_goals simp [answers]

/-- Settles O20: the stop test finds values owed and no byte left; no instruction's answers hold the status, and no
unit's step but run_reader's at the stop test may give it. -/
theorem overrunErrorExactly : Obligations.OverrunErrorExactly := by
  unfold Obligations.OverrunErrorExactly
  refine ⟨fun s hb hp => ?_, fun s bw total hb hbw htotal => ?_, fun i s t u h => exec_status_of_notMem h ?_,
    fun v s t u hv h => advance_status_of_not_mayAnswer h (not_and_or.mpr hv)⟩
  · refine ⟨readerTop s, (advance_busy hb).trans (readerStep_top s hp), ?_⟩
    obtain ⟨hle, he⟩ | ⟨howed, hend, he⟩ | ⟨-, hmore, he⟩ := readerTop_cases s <;> rw [he]
    · exact iff_of_false (by rw [State.respond_control_self]; decide) fun h => hle.not_gt h.1
    · exact iff_of_true (State.raise_control_self _ _ _) ⟨howed, hend⟩
    · exact iff_of_false (State.control_ne_answeredWith (s := { s with rr := _ }) hb _) fun h => hmore h.2
  · refine ⟨_, _, exec_decode total 0 hb hbw, (advance_busy rfl).trans (readerStep_top _ rfl), ?_⟩
    obtain ⟨hle, -⟩ | ⟨-, -, he⟩ | ⟨-, hmore, -⟩ := readerTop_cases ((s.accept .runReader).latchDecode bw total 0)
    · exact absurd (htotal.trans hle) (Nat.not_le.mpr Nat.one_pos)
    · rw [he, State.raise_control_self]; rfl
    · exact absurd rfl hmore
  · cases i <;> simp [answers]

end Sys2Proof.Machine

/-! `MalformedHeader` (O55): the two varint decoders fetch alike, one from the front of VDEC's input and one from
`rr_pos` of DECODE's; a fetch goes on up to the first byte that is not taken in or has bit 7 clear, and that byte
decides. -/

namespace Sys2Proof.Machine

/-! ### The bytes of a fetch -/

/-- A varint decoder that has taken in `n` bytes of the `avail` from `base` on takes in no other: ten are read, or none is
left, or the tenth is next and its bits 6:1 are not all zero (40_varint.md R135). -/
def varintStuck (sin : Memory) (base avail n : Nat) : Prop :=
  n = 10 ∨ avail ≤ n ∨ n = 9 ∧ 2 ≤ (payloadBits (Memory.read sin (base + 9))).toNat

/-- A fetch of the `avail` bytes from `base` on takes in the first `n`, and byte `n` ends it. -/
structure varintStopsAt (sin : Memory) (base avail n : Nat) : Prop where
  takes : ∀ k, k < n → ¬ varintStuck sin base avail k
  cont : ∀ k, k < n → contBit (Memory.read sin (base + k)) = true
  stops : varintStuck sin base avail n ∨ contBit (Memory.read sin (base + n)) = false

section bytes
variable {sin : Memory} {base avail n : Nat}

/-- Every fetch ends, after at most ten bytes. -/
theorem exists_varintStopsAt (sin : Memory) (base avail : Nat) : ∃ n, n ≤ 10 ∧ varintStopsAt sin base avail n := by
  classical
  have hex : ∃ n, varintStuck sin base avail n ∨ contBit (Memory.read sin (base + n)) = false :=
    ⟨10, .inl (.inl rfl)⟩
  have hgo : ∀ k, k < Nat.find hex →
      ¬ varintStuck sin base avail k ∧ ¬ contBit (Memory.read sin (base + k)) = false :=
    fun k hk => not_or.mp (Nat.find_min hex hk)
  exact ⟨Nat.find hex, Nat.find_min' hex (.inl (.inl rfl)), fun k hk => (hgo k hk).1,
    fun k hk => Bool.of_not_eq_false (hgo k hk).2, Nat.find_spec hex⟩

/-- The conditions (a), (b) and (c) of 60_exceptions.md R252 say that the fetch is stuck where it ends. -/
theorem varintStopsAt.malformed_iff (h : varintStopsAt sin base avail n) (hn : n ≤ 10) :
    varintMalformed sin base avail ↔ varintStuck sin base avail n := by
  refine ⟨fun hmal => ?_, fun hstuck => ?_⟩
  · by_contra hs
    have hclear : ¬ contBit (Memory.read sin (base + n)) = true := Bool.not_eq_true _ ▸ h.stops.resolve_left hs
    unfold varintStuck at hs
    obtain ⟨-, hall⟩ | ⟨-, hall⟩ | ⟨-, hall, htenth⟩ := hmal <;> exact hclear (hall n (by omega))
  · by_cases havail : avail < 10
    · exact .inr (.inl ⟨havail, fun k hk => h.cont k (by unfold varintStuck at hstuck; omega)⟩)
    · obtain hten | hnine : n = 10 ∨ n = 9 ∧ 2 ≤ (payloadBits (Memory.read sin (base + 9))).toNat := by
        unfold varintStuck at hstuck; omega
      · exact .inl ⟨by omega, fun k hk => h.cont k (by omega)⟩
      · exact .inr (.inr ⟨by omega, fun k hk => h.cont k (by omega), hnine.2⟩)

end bytes

/-! ### The steps of a fetch -/

/-- The buffer a varint decoder reads. -/
def State.varintSin (s : State) : DecoderId → Memory
  | .standalone => s.vd.sin
  | .reader => s.rr.sin

/-- Where in its buffer a varint decoder's varint begins (40_varint.md R135, 43_reader.md R224). -/
def State.varintBase (s : State) : DecoderId → Nat
  | .standalone => 0
  | .reader => s.rr.rr_pos.toNat

/-- How many bytes are on offer to a varint decoder. -/
def State.varintAvail (s : State) : DecoderId → Nat
  | .standalone => s.vd.avail.toNat
  | .reader => s.rr.slen.toNat - s.rr.rr_pos.toNat

/-- A varint decoder is at work on a varint. -/
def State.fetching (s : State) : DecoderId → Prop
  | .standalone => s.busy .varintDecoder = true
  | .reader => s.busy .runReader = true ∧ s.rr.phase = .header

/-- A varint decoder is stuck where it stands. -/
def State.decoderStuck (s : State) (d : DecoderId) : Prop :=
  varintStuck (s.varintSin d) (s.varintBase d) (s.varintAvail d) (s.vdecRegs d).vd_n.toNat

section fetch
variable {s : State} {d : DecoderId}

theorem State.fetching.busy (h : s.fetching d) : s.busy d.unit = true := by
  cases d with
  | standalone => exact h
  | reader => exact h.1

theorem State.fetching_setVdecRegs (h : s.fetching d) (w : VdecRegs) : (s.setVdecRegs d w).fetching d := by
  cases d <;> exact h

theorem varintAbsorb_eq_none_iff (w : VdecRegs) (p : BitVec 7) :
    varintAbsorb w p = none ↔ w.vd_n.toNat = 9 ∧ 2 ≤ p.toNat := by
  obtain ⟨h9, hp, he⟩ | ⟨hfits, he⟩ := varintAbsorb_cases w p
  · exact iff_of_true he ⟨h9, hp⟩
  · exact iff_of_false (by simp [he]) hfits

theorem varintAbsorb_count {w w' : VdecRegs} {p : BitVec 7} (h : varintAbsorb w p = some w') :
    w'.vd_n = w.vd_n + 1 := by
  obtain ⟨-, -, he⟩ | ⟨-, he⟩ := varintAbsorb_cases w p <;> cases he.symm.trans h
  rfl

/-- The step of a varint decoder at work, standalone or in DECODE: the tests, then the byte it reads is executed. -/
theorem advance_of_fetching (h : s.fetching d) :
    advance d.unit s =
      match varintFetch (s.vdecRegs d) (s.varintAvail d) (s.varintBase d) (s.varintSin d) with
      | .error k => .next (s.raise d.unit k)
      | .ok b => exec (decodeVarintByte d b) s := by
  rw [advance_busy h.busy]
  cases d with
  | standalone => rfl
  | reader => simp only [DecoderId.unit, readerStep, h.2]; rfl

/-- What the step of a varint decoder at work can do. -/
theorem advance_fetching_cases (h : s.fetching d) :
    let b := Memory.read (s.varintSin d) (s.varintBase d + (s.vdecRegs d).vd_n.toNat)
    (s.decoderStuck d ∧ advance d.unit s = .next (s.raise d.unit .malformedHeader)) ∨
    (¬ s.decoderStuck d ∧ ∃ w, w.vd_n = (s.vdecRegs d).vd_n + 1 ∧
      (contBit b = true ∧ advance d.unit s = .next (s.setVdecRegs d w) ∨
        contBit b = false ∧ advance d.unit s = .next (varintDone d w s))) := by
  intro b
  rw [advance_of_fetching h]
  obtain ⟨hend, he⟩ | ⟨hten, hlt, he⟩ :=
    varintFetch_cases (s.vdecRegs d) (s.varintAvail d) (s.varintBase d) (s.varintSin d) <;> rw [he]
  · exact .inl ⟨hend.imp_right .inl, rfl⟩
  · have hstuck : s.decoderStuck d ↔ varintAbsorb (s.vdecRegs d) (payloadBits b) = none := by
      rw [varintAbsorb_eq_none_iff]
      refine ⟨fun hs => ?_, fun hs => .inr (.inr ⟨hs.1, ?_⟩)⟩
      · obtain ⟨hnine, hp⟩ := (hs.resolve_left hten).resolve_left hlt.not_ge
        exact ⟨hnine, by rwa [← hnine] at hp⟩
      · rw [← hs.1]; exact hs.2
    rw [hstuck]
    obtain ⟨ha, hx⟩ | ⟨w, ha, hc, hx⟩ | ⟨w, ha, hc, hx⟩ := exec_varintByte_cases d b s
    · exact .inl ⟨ha, hx⟩
    · exact .inr ⟨by simp [ha], w, varintAbsorb_count ha, .inl ⟨hc, hx⟩⟩
    · exact .inr ⟨by simp [ha], w, varintAbsorb_count ha, .inr ⟨hc, hx⟩⟩

theorem control_setVdecRegs_ne (hb : s.busy d.unit = true) (w : VdecRegs) (k : Status) :
    (s.setVdecRegs d w).control d.unit ≠ answeredWith k := by
  cases d <;> exact State.control_ne_answeredWith (s := s) hb k

/-- A varint that ends is no `MalformedHeader`: the standalone unit answers OK, run_reader works on. -/
theorem control_varintDone_ne (hb : s.busy d.unit = true) (w : VdecRegs) :
    (varintDone d w s).control d.unit ≠ answeredWith .malformedHeader := by
  cases d with
  | standalone => exact fun hc => absurd (congrArg Control.status hc) (by decide : Status.ok ≠ .malformedHeader)
  | reader => exact State.control_ne_answeredWith (s := s) hb _

/-- A step of a varint decoder answers `MalformedHeader` exactly where it is stuck. -/
theorem advance_fetching_answered_iff (h : s.fetching d) :
    ∃ t, advance d.unit s = .next t ∧ (t.control d.unit = answeredWith .malformedHeader ↔ s.decoderStuck d) := by
  obtain ⟨hs, he⟩ | ⟨hs, w, -, ⟨-, he⟩ | ⟨-, he⟩⟩ := advance_fetching_cases h
  · exact ⟨_, he, iff_of_true (State.raise_control_self _ _ _) hs⟩
  · exact ⟨_, he, iff_of_false (control_setVdecRegs_ne h.busy w _) hs⟩
  · exact ⟨_, he, iff_of_false (control_varintDone_ne h.busy w) hs⟩

/-- A varint byte alone is answered `MalformedHeader` exactly as the tenth with bits 6:1 not all zero. -/
theorem exec_varintByte_answered_iff (hb : s.busy d.unit = true) (p : BitVec 7) :
    ∃ t t', exec (.varintCont d p) s = .next t ∧ exec (.varintLast d p) s = .next t' ∧
      (t.control d.unit = answeredWith .malformedHeader ↔ (s.vdecRegs d).vd_n.toNat = 9 ∧ 2 ≤ p.toNat) ∧
      (t'.control d.unit = answeredWith .malformedHeader ↔ (s.vdecRegs d).vd_n.toNat = 9 ∧ 2 ≤ p.toNat) := by
  rw [← varintAbsorb_eq_none_iff]
  obtain ⟨ha, he⟩ | ⟨w, ha, he⟩ := execVarintCont_cases d p s <;>
    obtain ⟨ha', he'⟩ | ⟨w', ha', he'⟩ := execVarintLast_cases d p s
  · exact ⟨_, _, he, he', iff_of_true (State.raise_control_self _ _ _) ha,
      iff_of_true (State.raise_control_self _ _ _) ha⟩
  · exact absurd (ha.symm.trans ha') (by simp)
  · exact absurd (ha.symm.trans ha') (by simp)
  · have hne : ¬ varintAbsorb (s.vdecRegs d) p = none := by simp [ha]
    exact ⟨_, _, he, he', iff_of_false (control_setVdecRegs_ne hb w _) hne,
      iff_of_false (control_varintDone_ne hb w') hne⟩

/-! ### A whole fetch -/

/-- What the step of a varint decoder that has taken in `n` bytes can do. -/
theorem advance_setVdecRegs_cases (h : s.fetching d) {w : VdecRegs} {n : Nat} (hw : w.vd_n.toNat = n) :
    let b := Memory.read (s.varintSin d) (s.varintBase d + n)
    let stuck := varintStuck (s.varintSin d) (s.varintBase d) (s.varintAvail d) n
    (stuck ∧ advance d.unit (s.setVdecRegs d w) = .next ((s.setVdecRegs d w).raise d.unit .malformedHeader)) ∨
    (¬ stuck ∧ ∃ w', w'.vd_n = w.vd_n + 1 ∧
      (contBit b = true ∧ advance d.unit (s.setVdecRegs d w) = .next (s.setVdecRegs d w') ∨
        contBit b = false ∧ advance d.unit (s.setVdecRegs d w) = .next (varintDone d w' s))) := by
  subst hw
  have hcases := advance_fetching_cases (State.fetching_setVdecRegs h w)
  cases d <;> exact hcases

/-- The first `n` bytes of a fetch that does not end before take a step each. -/
theorem advanceN_fetching (h : s.fetching d) (h0 : (s.vdecRegs d).vd_n = 0) {n : Nat} (hn : n ≤ 10)
    (htakes : ∀ k, k < n → ¬ varintStuck (s.varintSin d) (s.varintBase d) (s.varintAvail d) k)
    (hcont : ∀ k, k < n → contBit (Memory.read (s.varintSin d) (s.varintBase d + k)) = true) :
    ∃ w, w.vd_n.toNat = n ∧ advanceN n d.unit s = .next (s.setVdecRegs d w) := by
  induction n with
  | zero => exact ⟨s.vdecRegs d, by rw [h0]; rfl, by cases d <;> rfl⟩
  | succ n ih =>
    obtain ⟨w, hw, he⟩ := ih (by omega) (fun k hk => htakes k (by omega)) (fun k hk => hcont k (by omega))
    obtain ⟨hs, -⟩ | ⟨-, w', hw', ⟨-, he'⟩ | ⟨hc, -⟩⟩ := advance_setVdecRegs_cases h hw
    · exact absurd hs (htakes n (by omega))
    · refine ⟨w', by rw [hw', toNat_add_one _ (by omega), hw], ?_⟩
      rw [advanceN_add n 1 _ _ _ he]
      simp only [advanceN, he']
    · exact absurd ((hcont n (by omega)).symm.trans hc) (by decide)

/-- A whole fetch, within 11 steps: `MalformedHeader` where (a), (b) or (c) of 60_exceptions.md R252 holds, else a
varint. -/
theorem fetch_ends (h : s.fetching d) (h0 : (s.vdecRegs d).vd_n = 0) : ∃ r, s.reachesWithin d.unit 11 r ∧
    (varintMalformed (s.varintSin d) (s.varintBase d) (s.varintAvail d) ∧
        r.control d.unit = answeredWith .malformedHeader ∨
      ¬ varintMalformed (s.varintSin d) (s.varintBase d) (s.varintAvail d) ∧ ∃ w, r = varintDone d w s) := by
  obtain ⟨n, hn, hend⟩ := exists_varintStopsAt (s.varintSin d) (s.varintBase d) (s.varintAvail d)
  obtain ⟨w, hw, he⟩ := advanceN_fetching h h0 hn hend.takes hend.cont
  have hlast : ∀ r, advance d.unit (s.setVdecRegs d w) = .next r → s.reachesWithin d.unit 11 r := fun r hr =>
    ⟨n + 1, by omega, by rw [advanceN_add n 1 _ _ _ he]; simp only [advanceN, hr]⟩
  rw [hend.malformed_iff hn]
  obtain ⟨hs, hr⟩ | ⟨hs, w', -, ⟨hc, -⟩ | ⟨-, hr⟩⟩ := advance_setVdecRegs_cases h hw
  · exact ⟨_, hlast _ hr, .inl ⟨hs, State.raise_control_self _ _ _⟩⟩
  · exact absurd (hc.symm.trans (hend.stops.resolve_left hs)) (by decide)
  · exact ⟨_, hlast _ hr, .inr ⟨hs, w', rfl⟩⟩

end fetch

/-- Settles O55: a step answers it where the decoder is stuck, a whole fetch where its last byte finds the decoder
stuck, which is (a), (b) or (c); no other instruction's answers hold the status, and no other step may give it. -/
theorem malformedHeaderExactly : Obligations.MalformedHeaderExactly := by
  unfold Obligations.MalformedHeaderExactly
  refine ⟨fun s hb => advance_fetching_answered_iff (d := .standalone) hb,
    fun s hb hp => advance_fetching_answered_iff (d := .reader) ⟨hb, hp⟩, fun s avail hb => ?_,
    fun s hb hp h0 _ => ?_, fun s d p hb => exec_varintByte_answered_iff hb p,
    fun i s t u hc hl h => exec_status_of_notMem h ?_,
    fun v s t u hd hr h => advance_status_of_not_mayAnswer h (not_or.mpr ⟨hd, not_and_or.mpr hr⟩)⟩
  · obtain ⟨r, hreach, ⟨hmal, hctl⟩ | ⟨hmal, w, rfl⟩⟩ :=
      fetch_ends (s := s.vdecTaken avail 0) (d := .standalone) rfl rfl
    · exact ⟨_, r, exec_vdec avail hb, hreach, congrArg Control.busy hctl, iff_of_true hctl hmal⟩
    · exact ⟨_, _, exec_vdec avail hb, hreach, rfl,
        iff_of_false (control_varintDone_ne (d := .standalone) rfl w) hmal⟩
  · obtain ⟨r, hreach, ⟨hmal, hctl⟩ | ⟨hmal, w, rfl⟩⟩ := fetch_ends (s := s) (d := .reader) ⟨hb, hp⟩ h0
    · exact ⟨r, hreach, .inl (congrArg Control.busy hctl), iff_of_true hctl hmal⟩
    · exact ⟨_, hreach, .inr rfl, iff_of_false (control_varintDone_ne (d := .reader) hb w) hmal⟩
  · cases i
    case varintCont d p => exact absurd rfl (hc d p)
    case varintLast d p => exact absurd rfl (hl d p)
    all_goals simp [answers]

end Sys2Proof.Machine

/-! Raising an error (O5), `abort` (O3), and the ends of DECODE's input (O39). -/

namespace Sys2Proof.Machine

/-- Settles O5: freeing the results and the output buffer touches nothing but these, and the answer nothing but the
control state. -/
theorem raiseWritesStatusAndBusyOnly : Obligations.RaiseWritesStatusAndBusyOnly := by
  unfold Obligations.RaiseWritesStatusAndBusyOnly
  intro s u k
  refine ⟨State.raise_control_self s u k, fun v hv => State.sameUnit_raise s k hv, State.raise_agenda s u k,
    fun b hb => State.raise_buffer_of_ne s u k hb, ?_⟩
  cases u <;> exact ⟨rfl, rfl, rfl, rfl, rfl, rfl, rfl, rfl, rfl, rfl, rfl, rfl, rfl, rfl, rfl⟩

theorem step_abort {s : State} {u : UnitId} {rest : List Event} (h : s.agenda = .abort u :: rest) :
    step s = .next (State.abort { s with agenda := rest } u) := by
  simp [step, State.move, h, State.perform]

theorem State.abort_of_busy {s : State} {u : UnitId} (hb : s.busy u = true) : s.abort u =
    (s.freeOutput u).setControl u { busy := false, status := (s.control u).status, answered := false } :=
  if_pos hb

/-- Settles O3: the abort is the step's move, and frees the unit's output buffer before it clears `busy`. -/
theorem abortDropsOperationWithoutResponse : Obligations.AbortDropsOperationWithoutResponse := by
  unfold Obligations.AbortDropsOperationWithoutResponse
  intro s u rest ha hb
  refine ⟨_, step_abort ha, State.abort_agenda _ u, ?_,
    fun v hv => State.sameUnit_abort' { s with agenda := rest } hv,
    fun b hout => (State.abort_buffer_of_ne { s with agenda := rest } hout).trans (by cases b <;> rfl), ?_⟩
  · rw [State.abort_of_busy (s := { s with agenda := rest }) hb]
    exact State.setControl_control_self _ _ _
  · rw [State.abort_of_busy (s := { s with agenda := rest }) hb]
    cases u <;> exact ⟨rfl, rfl, rfl, rfl, rfl, rfl, rfl⟩

theorem advance_of_body {s : State} (hb : s.busy .runReader = true) (hp : s.rr.phase = .body) :
    advance .runReader s = exec (decodeHeader s.rr.rr_h) s :=
  (advance_busy hb).trans (readerStep_body s hp)

/-- Settles O39: the stop test, the fetch of a header byte, RLE and BP each find the input over by a test of their own. -/
theorem exhaustedInputErrorsByPosition : Obligations.ExhaustedInputErrorsByPosition := by
  unfold Obligations.ExhaustedInputErrorsByPosition
  intro s hb
  refine ⟨fun hp howed hend => ?_, fun hp _ hend => ?_, fun hp heven hend => ?_, fun hp hodd hshort => ?_⟩
  · obtain ⟨hle, -⟩ | ⟨-, -, he⟩ | ⟨-, hmore, -⟩ := readerTop_cases s
    · exact absurd howed hle.not_gt
    · exact (advance_busy hb).trans ((readerStep_top s hp).trans (congrArg Host.Outcome.next he))
    · exact absurd hend.symm hmore
  · obtain ⟨-, he⟩ | ⟨hs, -⟩ := advance_fetching_cases (d := .reader) ⟨hb, hp⟩
    · exact he
    · exact absurd (.inr (.inl (Nat.sub_le_iff_le_add'.mpr hend))) hs
  · rw [advance_of_body hb hp, decodeHeader_of_even heven]
    obtain ⟨-, he⟩ | ⟨hmore, -⟩ := execRle_cases (s.rr.rr_h.extractLsb' 1 63) s
    · exact he
    · exact absurd hend.symm hmore
  · rw [advance_of_body hb hp, decodeHeader_of_odd hodd]
    obtain ⟨-, he⟩ | ⟨henough, -⟩ := execBp_cases (s.rr.rr_h.extractLsb' 1 63) s
    · exact he
    · exact absurd hshort henough.not_gt

end Sys2Proof.Machine

/-! `reset` (O1, O2): the operations of the busy units are dropped as by `abort`, which an idle unit does not notice, and
what the dropped operations leave in the buffers stays there. -/

namespace Sys2Proof.Machine

/-- An output buffer belongs to the one unit that reaches it (20_memory.md R60). -/
theorem owner_eq_of_outputOf {u : UnitId} {b : Buffer} (h : outputOf u = some b) : b.owner = u := by
  cases u <;> cases h <;> rfl

/-- An idle unit stays idle when any unit is aborted. -/
theorem State.abort_busy_of_idle {s : State} {v : UnitId} (h : s.busy v = false) (u : UnitId) :
    (s.abort u).busy v = false := by
  by_cases hv : v = u
  · subst hv
    rwa [State.abort_of_idle h]
  · exact (congrArg Control.busy (State.abort_control_of_ne s hv)).trans h

/-- No `abort` changes a buffer whose owner is idle, or that is not its owner's output. -/
theorem State.abort_buffer_of_spared {s : State} {b : Buffer} (h : s.busy b.owner = false ∨ outputOf b.owner ≠ some b)
    (u : UnitId) : (s.abort u).buffer b = s.buffer b := by
  by_cases hout : outputOf u = some b
  · obtain rfl := owner_eq_of_outputOf hout
    rw [State.abort_of_idle (h.resolve_right (not_not_intro hout))]
  · exact State.abort_buffer_of_ne s hout

theorem State.abortAll_buffer_of_spared (us : List UnitId) {s : State} {b : Buffer}
    (h : s.busy b.owner = false ∨ outputOf b.owner ≠ some b) : (s.abortAll us).buffer b = s.buffer b := by
  induction us generalizing s with
  | nil => rfl
  | cons u us ih =>
    calc ((s.abort u).abortAll us).buffer b
        = (s.abort u).buffer b := ih (h.imp_left fun hidle => State.abort_busy_of_idle hidle u)
      _ = s.buffer b := State.abort_buffer_of_spared h u

theorem step_reset {s : State} {rest : List Event} (h : s.agenda = .reset :: rest) :
    step s = .next (State.applyReset { s with agenda := rest }) := by
  simp [step, State.move, h, State.perform]

theorem step_idle {s : State} (h : s.agenda = []) (hidle : ∀ u, s.busy u = false) : step s = .next s := by
  simp [step, State.move, h, firstBusy_of_idle UnitId.all hidle, State.perform]

/-- Settles O2: the buffers are those that the aborts leave, and these spare every buffer of an idle unit and every
input buffer; no control state is kept. -/
theorem resetAbandonsWithoutTouchingBuffers : Obligations.ResetAbandonsWithoutTouchingBuffers := by
  unfold Obligations.ResetAbandonsWithoutTouchingBuffers
  intro s rest ha
  refine ⟨_, step_reset ha, fun u => by rw [State.applyReset_control], fun b hb => ?_⟩
  calc (State.applyReset { s with agenda := rest }).buffer b
      = (State.abortAll { s with agenda := rest } UnitId.all).buffer b := State.applyReset_buffer _ b
    _ = State.buffer { s with agenda := rest } b :=
        State.abortAll_buffer_of_spared (s := { s with agenda := rest }) _ hb
    _ = s.buffer b := by cases b <;> rfl

/-- Settles O1: `applyReset` rebuilds each unit from its buffers alone, and where nothing is to come and no unit is at
work the step's move is idle. -/
theorem resetLeavesUnitsIdleAndRegistersZero : Obligations.ResetLeavesUnitsIdleAndRegistersZero := by
  unfold Obligations.ResetLeavesUnitsIdleAndRegistersZero
  refine ⟨fun s rest ha => ⟨_, step_reset ha, State.applyReset_agenda _, State.applyReset_control _,
      rfl, rfl, rfl, rfl, rfl, rfl, rfl⟩,
    fun u => by cases u <;> rfl, rfl, rfl, rfl, rfl, rfl, rfl, rfl, fun s ha hidle => step_idle ha hidle⟩

end Sys2Proof.Machine

/-! The varint at the front of a list of bytes (O8): `varintOf` finds the varint that VDEC accepts, so the minimal varint of a
header is read back as that header, whatever follows it. -/

namespace Sys2Proof.Machine

/-- `f` gives the bytes of the list `bs` by their index. -/
def indexes (f : Nat → Byte) (bs : List Byte) : Prop := ∀ k (hk : k < bs.length), f k = bs[k]

theorem indexes_getD (bs : List Byte) : indexes (fun k => bs.getD k 0) bs := fun _ hk => List.getD_eq_getElem bs 0 hk

theorem indexes_of_append {f : Nat → Byte} {bs cs : List Byte} (h : indexes f (bs ++ cs)) : indexes f bs := fun k hk =>
  (h k (by rw [List.length_append]; omega)).trans (List.getElem_append_left hk)

theorem indexes_take {f : Nat → Byte} {bs : List Byte} (h : indexes f bs) (n : Nat) : indexes f (bs.take n) :=
  indexes_of_append (cs := bs.drop n) ((List.take_append_drop n bs).symm ▸ h)

theorem indexes_tail {f : Nat → Byte} {b : Byte} {bs : List Byte} (h : indexes f (b :: bs)) :
    indexes (fun k => f (k + 1)) bs := fun k hk => h (k + 1) (Nat.succ_lt_succ hk)

theorem indexes_slice (m : Memory) (a len : Nat) : indexes (Memory.read (m.startingAt a)) (Memory.slice m a len) :=
  fun k hk => by rw [Memory.read_startingAt, Memory.getElem_slice]

/-- Byte `n` of `avail` is the last one of a varint that VDEC accepts (40_varint.md R136). -/
structure varintEnds (f : Nat → Byte) (avail n : Nat) : Prop where
  goesOn : ∀ k, k < n → varintGoesOn f avail k
  fits : varintFits f n
  lt : n < avail
  last : contBit (f n) = false

theorem varintEndsAt_succ_iff_varintEnds {sin : Memory} {avail n : Nat} :
    varintEndsAt sin avail (n + 1) ↔ varintEnds (Memory.read sin) avail n :=
  varintEndsAt_succ_iff.trans ⟨fun ⟨hgoes, hfits, hlt, hlast⟩ => ⟨hgoes, hfits, hlt, hlast⟩,
    fun ⟨hgoes, hfits, hlt, hlast⟩ => ⟨hgoes, hfits, hlt, hlast⟩⟩

section list
variable {f : Nat → Byte} {bs : List Byte}

theorem firstFinal_eq_some_iff (hf : indexes f bs) {n : Nat} :
    firstFinal bs = some n ↔ n < bs.length ∧ (∀ k, k < n → contBit (f k) = true) ∧ contBit (f n) = false := by
  induction bs generalizing f n with
  | nil => simp [firstFinal]
  | cons b bs ih =>
    have hb : f 0 = b := hf 0 (Nat.succ_pos _)
    cases hc : contBit b with
    | false =>
      simp only [firstFinal, hc, Bool.false_eq_true, if_false, Option.some.injEq]
      constructor
      · rintro rfl
        exact ⟨Nat.succ_pos _, fun k hk => absurd hk (Nat.not_lt_zero k), hb ▸ hc⟩
      · rintro ⟨-, hgoes, -⟩
        by_contra hn
        exact absurd ((hgoes 0 (by omega)).symm.trans (hb ▸ hc)) (by decide)
    | true =>
      cases n with
      | zero =>
        refine ⟨fun h => ?_, fun ⟨_, _, h0⟩ => absurd (h0.symm.trans (hb ▸ hc)) (by decide)⟩
        simp [firstFinal, hc] at h
      | succ n =>
        have hgoes : (∀ k, k < n + 1 → contBit (f k) = true) ↔ ∀ k, k < n → contBit (f (k + 1)) = true :=
          ⟨fun h k hk => h (k + 1) (by omega), fun h k hk => by
            cases k with
            | zero => exact hb ▸ hc
            | succ k => exact h k (by omega)⟩
        rw [hgoes]
        simp [firstFinal, hc, ih (indexes_tail hf)]

/-- The number of a varint's bytes is the sum of their payloads (30_encoding.md R92). -/
theorem varintValue_eq_varintSum (hf : indexes f bs) : varintValue bs = varintSum f bs.length := by
  induction bs generalizing f with
  | nil => rfl
  | cons b bs ih =>
    have hb : f 0 = b := hf 0 (Nat.succ_pos _)
    have hplace : ∀ k, (f (k + 1)).toNat % 128 * 2 ^ (7 * (k + 1)) = 128 * ((f (k + 1)).toNat % 128 * 2 ^ (7 * k)) :=
      fun k => by ring
    rw [varintValue, ih (indexes_tail hf), varintSum, varintSum, List.length_cons, Finset.sum_range_succ', hb,
      payloadBits_toNat]
    simp only [hplace, Finset.mul_sum]
    omega

/-- The contract of VDEC accepts what the unit accepts, and gives the sum of the payloads. -/
theorem varintOf_eq_some_iff (hf : indexes f bs) {h : BitVec 64} {m : Nat} : varintOf bs = some (h, m) ↔
    ∃ n, m = n + 1 ∧ varintEnds f bs.length n ∧ h = BitVec.ofNat 64 (varintSum f (n + 1)) := by
  have hfinal : ∀ n, firstFinal (bs.take 10) = some n ↔
      n < min 10 bs.length ∧ (∀ k, k < n → contBit (f k) = true) ∧ contBit (f n) = false := fun n => by
    rw [firstFinal_eq_some_iff (indexes_take hf 10), List.length_take]
  have htenth : ∀ n, n < bs.length → contBit (f n) = false →
      ((n = 9 ∧ 1 < (bs.getD 9 0).toNat) ↔ n = 9 ∧ 2 ≤ (payloadBits (f n)).toNat) := fun n hn hlast => by
    refine and_congr_right fun h9 => ?_
    subst h9
    rw [contBit_eq_decide, decide_eq_false_iff_not] at hlast
    rw [List.getD_eq_getElem bs 0 hn, ← hf 9 hn, payloadBits_toNat]
    omega
  have hvalue : ∀ n, n < bs.length → varintValue (bs.take (n + 1)) = varintSum f (n + 1) := fun n hn => by
    rw [varintValue_eq_varintSum (indexes_take hf _), List.length_take, Nat.min_eq_left hn]
  unfold varintOf
  constructor
  · cases hn : firstFinal (bs.take Config.maxVarintBytes) with
    | none => simp
    | some n =>
      obtain ⟨hlt, hcont, hlast⟩ := (hfinal n).mp hn
      simp only [htenth n (by omega) hlast, hvalue n (by omega)]
      split_ifs with h9
      · simp
      · intro hsome
        obtain ⟨rfl, rfl⟩ := Prod.mk.inj (Option.some.inj hsome)
        exact ⟨n, rfl, ⟨fun k hk => ⟨⟨by omega, by omega⟩, by omega, hcont k hk⟩, ⟨by omega, h9⟩, by omega, hlast⟩, rfl⟩
  · rintro ⟨n, rfl, ⟨hgoes, ⟨h10, h9⟩, hlt, hlast⟩, rfl⟩
    rw [show firstFinal (bs.take Config.maxVarintBytes) = some n from
      (hfinal n).mpr ⟨by omega, fun k hk => (hgoes k hk).cont, hlast⟩]
    simp only [htenth n hlt hlast, hvalue n hlt, if_neg h9]

end list

theorem varintEnds.mono {f : Nat → Byte} {avail avail' n : Nat} (h : varintEnds f avail n) (hle : avail ≤ avail') :
    varintEnds f avail' n :=
  ⟨fun k hk => ⟨(h.goesOn k hk).fits, (h.goesOn k hk).lt.trans_le hle, (h.goesOn k hk).cont⟩, h.fits, h.lt.trans_le hle,
    h.last⟩

/-- Bytes that follow a varint do not change it. -/
theorem varintOf_append {bs : List Byte} {r : BitVec 64 × Nat} (h : varintOf bs = some r) (rest : List Byte) :
    varintOf (bs ++ rest) = some r := by
  have hf := indexes_getD (bs ++ rest)
  obtain ⟨n, hm, hends, hvalue⟩ := (varintOf_eq_some_iff (indexes_of_append hf)).mp h
  exact (varintOf_eq_some_iff hf).mpr ⟨n, hm, hends.mono (by rw [List.length_append]; omega), hvalue⟩

/-- The minimal varint of a value is a varint of that value. -/
theorem varintOf_varintBytes (v : BitVec 64) : varintOf (varintBytes v) = some (v, varintLen v) := by
  have hlen := length_varintBytes v
  have hle := varintLen_le v
  have hholds : (Memory.writeList [] 0 (varintBytes v)).holds 0 (varintBytes v) :=
    Memory.holds_writeList rfl (by rw [hlen, Config.spaceSize]; omega)
  have hf := indexes_slice (Memory.writeList [] 0 (varintBytes v)) 0 (varintBytes v).length
  rw [hholds] at hf
  have hvarint := holdsVarint_startingAt hholds
  obtain ⟨n, hn⟩ := Nat.exists_eq_add_of_le' (leastGroups_varintLen v).one_le
  have hends := varintEndsAt_of_holdsVarint hvarint hlen.ge
  have hsum := varintSum_of_holdsVarint hvarint
  rw [hn] at hends hsum
  exact (varintOf_eq_some_iff hf).mpr
    ⟨n, hn, varintEndsAt_succ_iff_varintEnds.mp hends, by rw [hsum, BitVec.ofNat_toNat, BitVec.setWidth_eq]⟩

/-- A header written as its minimal varint is read back, whatever follows it. -/
theorem decodeRun_varintBytes (h : BitVec 64) (rest : List Byte) :
    decodeRun (varintBytes h ++ rest) = .ok (decodeHeader h) := by
  have hread := varintOf_append (varintOf_varintBytes h) rest
  cases hbs : varintBytes h ++ rest with
  | nil => rw [hbs] at hread; exact absurd hread (by simp [varintOf, firstFinal])
  | cons b bs =>
    rw [hbs] at hread
    simp only [decodeRun, hread]

theorem decodeHeader_bpHeaderOf (g : BitVec 63) : decodeHeader (bpHeaderOf g) = .bp g := by
  have hheader : (bpHeaderOf g).toNat = 2 * g.toNat + 1 := by
    rw [bpHeaderOf, BitVec.toNat_append, ← Nat.shiftLeft_add_eq_or_of_lt (by decide), Nat.shiftLeft_eq, Nat.mul_comm]
    rfl
  rw [decodeHeader_of_odd (by omega)]
  congr 1
  apply BitVec.eq_of_toNat_eq
  rw [headerField_toNat]
  omega

/-- The fields of a varint byte are read back. -/
theorem decodeVarintByte_varintByteOf (d : DecoderId) (cont : Bool) (p : BitVec 7) :
    decodeVarintByte d (varintByteOf cont p) = if cont then .varintCont d p else .varintLast d p := by
  have hcont : contBit (varintByteOf cont p) = cont := (Laws.varintByteOf_bits cont p).2
  have hpayload : payloadBits (varintByteOf cont p) = p := by
    apply BitVec.eq_of_toNat_eq
    rw [payloadBits_toNat, varintByteOf_toNat]
    have := p.isLt
    split <;> omega
  rw [decodeVarintByte, hcont, hpayload]

/-- Settles O8: a run's header is read back from its minimal varint with anything after it, a varint byte from its two
fields, and a command from its code. -/
theorem encodeDecodeRoundTrip : Obligations.EncodeDecodeRoundTrip := by
  unfold Obligations.EncodeDecodeRoundTrip
  have hrle : ∀ c rest, decodeRun (varintBytes (rleHeader c) ++ rest) = .ok (.rle c) := fun c rest => by
    rw [decodeRun_varintBytes, decodeHeader_rleHeader]
  have hbp : ∀ g rest, decodeRun (varintBytes (bpHeaderOf g) ++ rest) = .ok (.bp g) := fun g rest => by
    rw [decodeRun_varintBytes, decodeHeader_bpHeaderOf]
  refine ⟨fun i => ?_, hrle, hbp⟩
  cases i with
  | rle c => simpa [encode, decode] using hrle c []
  | bp g => simpa [encode, decode] using hbp g []
  | varintCont d p => exact congrArg Except.ok (decodeVarintByte_varintByteOf d true p)
  | varintLast d p => exact congrArg Except.ok (decodeVarintByte_varintByteOf d false p)
  | venc u v => rfl
  | vdec u avail => rfl
  | pack u bw vals => rfl
  | unpack u bw avail => rfl
  | classify u n i => rfl
  | encode u bw n => rfl
  | decode u bw total slen => rfl
  | reserved u => rfl

end Sys2Proof.Machine

/-! Canonical buffers (O52): the block reaches a buffer by writing one element inside the space, or by leaving it with free
contents. What both keep, every step keeps: so the canonical form, and the extent. -/

namespace Sys2Proof.Machine

/-- A property of buffers that holds of free contents and is kept by a write inside the space. -/
structure BufferInvariant (P : Buffer → Memory → Prop) : Prop where
  write : ∀ b m x v, P b m → x < b.extent → P b (Memory.write m x v)
  free : ∀ b l, P b (Memory.ofCells b.extent l [])

/-- Every buffer has the property. -/
def State.buffersHave (s : State) (P : Buffer → Memory → Prop) : Prop := ∀ b, P b (s.buffer b)

section invariant
variable {P : Buffer → Memory → Prop} {s t : State}

theorem State.buffersHave_of_buffer_eq (h : s.buffersHave P) (he : ∀ b, t.buffer b = s.buffer b) : t.buffersHave P :=
  fun b => by rw [he b]; exact h b

theorem State.buffersHave_setBuffer (h : s.buffersHave P) {b : Buffer} {m : Memory} (hm : P b m) :
    (s.setBuffer b m).buffersHave P := fun b' => by
  by_cases hb : b' = b
  · rw [hb, State.setBuffer_buffer_self]; exact hm
  · rw [State.setBuffer_buffer_of_ne _ _ _ hb]; exact h b'

/-- Where one buffer's contents are replaced, and only these, the new contents are all there is to look at. -/
theorem State.buffersHave_of_setBuffer (h : s.buffersHave P) {b : Buffer} {m : Memory} (hm : P b m)
    (he : ∀ b', t.buffer b' = (s.setBuffer b m).buffer b') : t.buffersHave P :=
  State.buffersHave_of_buffer_eq (State.buffersHave_setBuffer h hm) he

theorem State.buffersHave_unpackStep (h : s.buffersHave P) : (unpackStep s).buffersHave P := by
  obtain ⟨-, he⟩ | ⟨-, he⟩ := unpackStep_cases s <;> rw [he] <;>
    exact State.buffersHave_of_buffer_eq h fun b => by cases b <;> rfl

theorem State.buffersHave_classifyStep (h : s.buffersHave P) : (classifyStep s).buffersHave P := by
  obtain ⟨-, he⟩ | ⟨-, he⟩ := classifyStep_cases s <;> rw [he] <;>
    exact State.buffersHave_of_buffer_eq h fun b => by cases b <;> rfl

section writes
variable (hP : BufferInvariant P)
include hP

theorem BufferInvariant.writeList {b : Buffer} {m : Memory} (h : P b m) {a : Nat} {bs : List Byte}
    (ha : a + bs.length ≤ b.extent) : P b (Memory.writeList m a bs) := by
  induction bs generalizing m a with
  | nil => exact h
  | cons x bs ih =>
    rw [List.length_cons] at ha
    exact ih (hP.write b m a x h (by omega)) (by omega)

/-! ### The shared operations -/

theorem BufferInvariant.raise (h : s.buffersHave P) (u : UnitId) (k : Status) : (s.raise u k).buffersHave P := fun b => by
  by_cases hb : outputOf u = some b
  · rw [State.raise_buffer_output _ _ _ hb]; exact hP.free b _
  · rw [State.raise_buffer_of_ne _ _ _ hb]; exact h b

theorem BufferInvariant.abort (h : s.buffersHave P) (u : UnitId) : (s.abort u).buffersHave P := by
  cases hbusy : s.busy u with
  | false => rwa [State.abort_of_idle hbusy]
  | true =>
    intro b
    rw [State.abort_of_busy hbusy, State.setControl_buffer]
    by_cases hb : outputOf u = some b
    · rw [State.freeOutput_buffer_output _ _ hb]; exact hP.free b _
    · rw [State.freeOutput_buffer_of_ne _ _ hb]; exact h b

theorem BufferInvariant.abortAll (us : List UnitId) (h : s.buffersHave P) : (s.abortAll us).buffersHave P := by
  induction us generalizing s with
  | nil => exact h
  | cons u us ih => exact ih (hP.abort h u)

theorem BufferInvariant.applyReset (h : s.buffersHave P) : s.applyReset.buffersHave P :=
  State.buffersHave_of_buffer_eq (hP.abortAll UnitId.all h) (State.applyReset_buffer s)

theorem BufferInvariant.hostWrite (h : s.buffersHave P) {b : Buffer} {offset : BitVec 33} {x : Byte}
    (ht : hostWrite b offset x s = .next t) : t.buffersHave P := by
  obtain ⟨-, he⟩ | ⟨-, -, he⟩ | ⟨hlt, -, he⟩ := hostWrite_cases b offset x s <;> rw [he] at ht <;> cases ht
  exact State.buffersHave_setBuffer h (hP.write b _ _ x (h b) hlt)

theorem BufferInvariant.command (h : s.buffersHave P) {u : UnitId} {op : BitVec 3} {x : Operands}
    (ht : exec (decodeCommand u op x) s = .next t) : t.buffersHave P := by
  cases hb : s.busy u with
  | true => rw [exec_busy_command u op x hb] at ht; cases ht; exact h
  | false =>
    by_cases hf : foreignCode u op
    · rw [exec_foreign_command x hf hb] at ht; cases ht
      exact hP.raise (State.buffersHave_of_buffer_eq h (State.accept_buffer s u)) u _
    · obtain ⟨r, -, -, -, hbuffer, -, ⟨-, he⟩ | ⟨k, -, he⟩⟩ := exec_own_command x hf hb <;> rw [he] at ht <;> cases ht
      · exact State.buffersHave_of_buffer_eq h hbuffer
      · exact hP.raise (State.buffersHave_of_buffer_eq h hbuffer) u k

/-! ### The steps of the units -/

theorem BufferInvariant.emitAll (bs : List Byte) {u : RunSegmenter} (h : P .encodeSout u.sout) :
    P .encodeSout (emitAll u bs).sout := by
  induction bs generalizing u with
  | nil => exact h
  | cons b bs ih => exact ih (hP.write _ _ _ b h u.rs_olen.isLt)

theorem BufferInvariant.appendAll (vs : List Value) {u : RunReader} (h : P .decodeVout u.vout) :
    P .decodeVout (appendAll u vs).vout := by
  induction vs generalizing u with
  | nil => exact h
  | cons v vs ih => exact ih (hP.write _ _ _ v h u.rr_count.isLt)

theorem BufferInvariant.encodePass {u : RunSegmenter} (h : P .encodeSout u.sout) : P .encodeSout (encodePass u).sout := by
  obtain ⟨-, he⟩ | ⟨-, he⟩ := encodePass_cases u <;> rw [he] <;> exact hP.emitAll _ h

theorem BufferInvariant.vencStep (h : s.buffersHave P) : (vencStep s).buffersHave P := by
  have hsout := hP.write .vencSout s.ve.sout s.ve.work.ve_len.toNat (vencPass s.ve.work).1 (h .vencSout)
    (s.ve.work.ve_len.isLt.trans (by decide))
  obtain ⟨-, he⟩ | ⟨-, he⟩ := vencStep_cases s <;> rw [he] <;>
    exact State.buffersHave_of_setBuffer h hsout fun b => by cases b <;> rfl

theorem BufferInvariant.packStep (h : s.buffersHave P) : (packStep s).buffersHave P := by
  have hlen : (packPass s.bp.bw.toNat (s.bp.vals.at s.bp.work.bp_k.toNat) s.bp.work).1.toList.length ≤ 1 :=
    Option.length_toList_le
  have hj := s.bp.work.bp_j.isLt
  have hsout := hP.writeList (b := .packSout) (h .packSout) (a := s.bp.work.bp_j.toNat)
    (bs := (packPass s.bp.bw.toNat (s.bp.vals.at s.bp.work.bp_k.toNat) s.bp.work).1.toList)
    (by simp only [Buffer.extent, Config.spaceSize]; omega)
  obtain ⟨-, he⟩ | ⟨-, he⟩ := packStep_cases s <;> rw [he] <;>
    exact State.buffersHave_of_setBuffer h hsout fun b => by cases b <;> rfl

theorem BufferInvariant.encodeStep (h : s.buffersHave P) : (encodeStep s).buffersHave P := by
  obtain ⟨-, he⟩ | ⟨-, he⟩ := encodeStep_cases s <;> rw [he]
  · refine State.buffersHave_of_setBuffer h (hP.encodePass (h .encodeSout)) fun b => ?_
    obtain ⟨-, -, hvin, -⟩ := encodePass_frame s.rs
    cases b <;> first | rfl | exact hvin
  · exact State.buffersHave_of_buffer_eq h fun b => by cases b <;> rfl

theorem BufferInvariant.vdecStep (h : s.buffersHave P) (ht : vdecStep s = .next t) : t.buffersHave P := by
  obtain ⟨-, he⟩ | ⟨-, -, w, -, ⟨-, he⟩ | ⟨-, he⟩⟩ := vdecStep_cases s <;> rw [he] at ht <;> cases ht
  · exact hP.raise h _ _
  · exact State.buffersHave_of_buffer_eq h (State.setVdecRegs_buffer s _ w)
  · exact State.buffersHave_of_buffer_eq h (varintDone_buffer _ w s)

/-- A run that is appended to the output sequence changes no other buffer. -/
theorem BufferInvariant.append (h : s.buffersHave P) {u : RunReader} (hsin : u.sin = s.rr.sin) (hvout : u.vout = s.rr.vout)
    (vs : List Value) : State.buffersHave { s with rr := Machine.appendAll u vs } P := by
  refine State.buffersHave_of_setBuffer h (hP.appendAll vs (u := u) (hvout ▸ h .decodeVout)) fun b => ?_
  rw [appendAll_frame]
  cases b <;> first | rfl | exact hsin

theorem BufferInvariant.run (h : s.buffersHave P) {hd : BitVec 64} (ht : exec (decodeHeader hd) s = .next t) :
    t.buffersHave P := by
  unfold decodeHeader at ht
  split at ht
  · obtain ⟨-, he⟩ | ⟨-, he⟩ := execBp_cases (hd.extractLsb' 1 63) s <;> cases he.symm.trans ht
    · exact hP.raise h _ _
    · refine hP.append h ?_ ?_ _ <;> rfl
  · obtain ⟨-, he⟩ | ⟨-, he⟩ := execRle_cases (hd.extractLsb' 1 63) s <;> cases he.symm.trans ht
    · exact hP.raise h _ _
    · refine hP.append h ?_ ?_ _ <;> rfl

theorem BufferInvariant.readerStep (h : s.buffersHave P) (ht : readerStep s = .next t) : t.buffersHave P := by
  cases hp : s.rr.phase with
  | top =>
    rw [readerStep_top s hp] at ht; cases ht
    obtain ⟨-, he⟩ | ⟨-, -, he⟩ | ⟨-, -, he⟩ := readerTop_cases s <;> rw [he]
    · exact State.buffersHave_of_buffer_eq h (State.respond_buffer s _ _)
    · exact hP.raise h _ _
    · exact State.buffersHave_of_buffer_eq h fun b => by cases b <;> rfl
  | header =>
    obtain ⟨-, he⟩ | ⟨-, -, w, -, ⟨-, he⟩ | ⟨-, he⟩⟩ := readerStep_header_cases s hp <;> rw [he] at ht <;> cases ht
    · exact hP.raise h _ _
    · exact State.buffersHave_of_buffer_eq h (State.setVdecRegs_buffer s _ w)
    · exact State.buffersHave_of_buffer_eq h (varintDone_buffer _ w s)
  | body => exact hP.run h ((readerStep_body s hp).symm.trans ht)

theorem BufferInvariant.advance (h : s.buffersHave P) {u : UnitId} (ht : advance u s = .next t) : t.buffersHave P := by
  cases hb : s.busy u with
  | false => rw [advance_idle hb] at ht; cases ht; exact h
  | true =>
    rw [advance_busy hb] at ht
    cases u with
    | varintEncoder => cases ht; exact hP.vencStep h
    | varintDecoder => exact hP.vdecStep h ht
    | bitPacker => cases ht; exact hP.packStep h
    | bitUnpacker => cases ht; exact State.buffersHave_unpackStep h
    | rleRunClassifier => cases ht; exact State.buffersHave_classifyStep h
    | runSegmenter => cases ht; exact hP.encodeStep h
    | runReader => exact hP.readerStep h ht

/-! ### A step -/

theorem BufferInvariant.step (h : s.buffersHave P) (ht : step s = .next t) : t.buffersHave P := by
  have hrest : ∀ rest, State.buffersHave { s with agenda := rest } P := fun rest =>
    State.buffersHave_of_buffer_eq h fun b => by cases b <;> rfl
  obtain ⟨-, u, -, he⟩ | ⟨-, -, he⟩ | ⟨u, op, x, rest, -, -, he⟩ | ⟨u, op, x, rest, -, -, he⟩ | ⟨u, rest, -, he⟩ |
    ⟨rest, -, he⟩ | ⟨b, offset, x, rest, -, he⟩ | ⟨u, rest, -, he⟩ := step_cases s <;> rw [he] at ht
  · exact hP.advance h ht
  · cases ht; exact h
  · exact hP.advance h ht
  · exact hP.command (hrest rest) ht
  · cases ht; exact hP.abort (hrest rest) u
  · cases ht; exact hP.applyReset (hrest rest)
  · exact hP.hostWrite (hrest rest) ht
  · exact hP.advance (hrest rest) ht

end writes
end invariant

theorem bufferInvariant_wf : BufferInvariant fun _ m => Memory.wf m = true where
  write b _ _ v h hx := Memory.wf_write h (hx.trans_le b.extent_le) v
  free b l := Memory.wf_ofCells b.extent_le l rfl

theorem bufferInvariant_fit : BufferInvariant fun b m => ∀ c ∈ m, c.1 < b.extent where
  write _ _ _ _ h hx c hc := (Memory.mem_write hc).elim (fun he => he ▸ hx) (h c)
  free _ l := Memory.ofCells_lt l (by simp)

/-- Settles O52: the canonical form and the extent hold of free contents and are kept by a write inside the space. -/
theorem buffersStayCanonical : Obligations.BuffersStayCanonical := by
  unfold Obligations.BuffersStayCanonical
  exact ⟨fun _ _ => bufferInvariant_wf.step, fun _ _ => bufferInvariant_fit.step⟩

end Sys2Proof.Machine

/-! What a command of one unit leaves alone (O47), and the ranges of the registers (O53, O54): an idle unit's counters are
in range, and a unit at work meets the clauses of its operation besides; an error keeps the former, and every pass both. -/

namespace Sys2Proof.Machine

/-! ### Other units -/

/-- A command at the port of a unit leaves every other unit alone. -/
theorem exec_command_frame {u : UnitId} {op : BitVec 3} {x : Operands} {s t : State}
    (ht : exec (decodeCommand u op x) s = .next t) : (∀ v, v ≠ u → s.sameUnit t v) ∧ t.agenda = s.agenda := by
  cases hb : s.busy u with
  | true =>
    rw [exec_busy_command u op x hb] at ht; cases ht
    exact ⟨fun v _ => State.sameUnit_refl s v, rfl⟩
  | false =>
    by_cases hf : foreignCode u op
    · rw [exec_foreign_command x hf hb] at ht; cases ht
      exact ⟨fun v hv => State.sameUnit_trans (State.sameUnit_accept s hv) (State.sameUnit_raise _ _ hv), by simp⟩
    · obtain ⟨r, -, hagenda, -, -, hsame, ⟨-, he⟩ | ⟨k, -, he⟩⟩ := exec_own_command x hf hb <;> rw [he] at ht <;> cases ht
      · exact ⟨hsame, hagenda⟩
      · exact ⟨fun v hv => State.sameUnit_trans (hsame v hv) (State.sameUnit_raise _ _ hv), by simp [hagenda]⟩

/-- Settles O47: of a step, a command and an abort alike, each shared operation they are made of leaves other units alone. -/
theorem unitsDoNotTouchEachOther : Obligations.UnitsDoNotTouchEachOther := by
  unfold Obligations.UnitsDoNotTouchEachOther
  refine ⟨fun s t u v hv ht => ?_, fun s t u v op x hv ht => ?_, fun s u v hv => ⟨State.sameUnit_abort' s hv, by simp⟩⟩
  · obtain ⟨hsame, hagenda, -⟩ := advance_control ht
    exact ⟨hsame v hv, hagenda⟩
  · obtain ⟨hsame, hagenda⟩ := exec_command_frame ht
    exact ⟨hsame v hv, hagenda⟩

end Sys2Proof.Machine


namespace Sys2Proof.Machine

/-! ### The ranges, by unit -/

/-- The counters of unit `u` are in the ranges that hold of the unit at rest, its inner units included. -/
def State.restInRange (s : State) : UnitId → Prop
  | .varintEncoder => s.ve.work.ve_len.toNat ≤ 10
  | .varintDecoder => s.vd.work.vd_n.toNat ≤ 10
  | .bitPacker => s.bp.work.bp_k.toNat ≤ 8 ∧ s.bp.work.bp_j.toNat ≤ 8
  | .bitUnpacker => s.bu.work.bu_k.toNat ≤ 8 ∧ s.bu.work.bu_j.toNat ≤ 8
  | .rleRunClassifier => True
  | .runSegmenter => (s.rs.rs_i.toNat ≤ s.rs.n.toNat + 7 ∧ 8 * s.rs.rs_olen.toNat ≤ 9 * s.rs.rs_i.toNat) ∧
      s.rs.ve.ve_len.toNat ≤ 10 ∧ s.rs.bp.bp_k.toNat ≤ 8 ∧ s.rs.bp.bp_j.toNat ≤ 8
  | .runReader => (s.rr.rr_pos.toNat ≤ s.rr.slen.toNat ∧ s.rr.rr_count.toNat ≤ s.rr.total.toNat ∧
      s.rr.vd.vd_n.toNat ≤ 10) ∧ s.rr.bu.bu_k.toNat ≤ 8 ∧ s.rr.bu.bu_j.toNat ≤ 8

/-- The registers of unit `u` are in the ranges that hold besides while its operation is at work. -/
def State.workInRange (s : State) : UnitId → Prop
  | .varintEncoder => s.ve.work.ve_len.toNat ≤ 9 ∧ s.ve.work.ve_v.toNat < 2 ^ (64 - 7 * s.ve.work.ve_len.toNat)
  | .varintDecoder => s.vd.work.vd_n.toNat ≤ s.vd.avail.toNat
  | .bitPacker => legalWidth s.bp.bw = true ∧ s.bp.work.bp_k.toNat ≤ 7 ∧
      8 * s.bp.work.bp_j.toNat + s.bp.work.bp_nbits.toNat = s.bp.work.bp_k.toNat * s.bp.bw.toNat ∧
      s.bp.work.bp_nbits.toNat ≤ 7 ∧ s.bp.work.bp_acc.toNat < 2 ^ 15
  | .bitUnpacker => legalWidth s.bu.bw = true ∧ s.bu.bw.toNat ≤ s.bu.avail.toNat ∧ s.bu.work.bu_k.toNat ≤ 7 ∧
      8 * s.bu.work.bu_j.toNat = s.bu.work.bu_k.toNat * s.bu.bw.toNat + s.bu.work.bu_nbits.toNat ∧
      s.bu.work.bu_nbits.toNat ≤ 7 ∧ s.bu.work.bu_acc.toNat < 2 ^ s.bu.work.bu_nbits.toNat
  | .rleRunClassifier => s.rc.i.toNat < s.rc.n.toNat ∧ 1 ≤ s.rc.work.rc_len.toNat ∧
      s.rc.i.toNat + s.rc.work.rc_len.toNat ≤ s.rc.n.toNat
  | .runSegmenter => legalWidth s.rs.bw = true
  | .runReader => legalWidth s.rr.bw = true ∧
      (s.rr.phase = .header →
        s.rr.rr_pos.toNat < s.rr.slen.toNat ∧ s.rr.rr_pos.toNat + s.rr.vd.vd_n.toNat ≤ s.rr.slen.toNat ∧
          s.rr.rr_count.toNat < s.rr.total.toNat) ∧
      (s.rr.phase = .body → s.rr.rr_count.toNat < s.rr.total.toNat)

/-- The registers of unit `u` are in range. -/
structure State.unitInRange (s : State) (u : UnitId) : Prop where
  rest : s.restInRange u
  work : s.busy u = true → s.workInRange u

theorem State.registersInRange_iff (s : State) : s.registersInRange ↔ ∀ u, s.unitInRange u := by
  constructor
  · rintro ⟨hve, hvd, ⟨hk, hj, hbp⟩, ⟨hk', hj', hbu⟩, hrc, ⟨hi, holen, hrs⟩, ⟨hpos, hcount, hn, hrr⟩, hv, hpk, hpj, hu⟩ u
    cases u with
    | varintEncoder => exact ⟨hve.1, hve.2⟩
    | varintDecoder => exact ⟨hvd.1, hvd.2⟩
    | bitPacker => exact ⟨⟨hk, hj⟩, hbp⟩
    | bitUnpacker => exact ⟨⟨hk', hj'⟩, hbu⟩
    | rleRunClassifier => exact ⟨trivial, hrc⟩
    | runSegmenter => exact ⟨⟨⟨hi, holen⟩, hv, hpk, hpj⟩, hrs⟩
    | runReader => exact ⟨⟨⟨hpos, hcount, hn⟩, hu⟩, hrr⟩
  · intro h
    obtain ⟨hve, hve'⟩ := h .varintEncoder
    obtain ⟨hvd, hvd'⟩ := h .varintDecoder
    obtain ⟨⟨hk, hj⟩, hbp⟩ := h .bitPacker
    obtain ⟨⟨hk', hj'⟩, hbu⟩ := h .bitUnpacker
    obtain ⟨-, hrc⟩ := h .rleRunClassifier
    obtain ⟨⟨⟨hi, holen⟩, hv, hpk, hpj⟩, hrs⟩ := h .runSegmenter
    obtain ⟨⟨⟨hpos, hcount, hn⟩, hu⟩, hrr⟩ := h .runReader
    exact ⟨⟨hve, hve'⟩, ⟨hvd, hvd'⟩, ⟨hk, hj, hbp⟩, ⟨hk', hj', hbu⟩, hrc, ⟨hi, holen, hrs⟩, ⟨hpos, hcount, hn, hrr⟩,
      hv, hpk, hpj, hu⟩

section ranges
variable {s t : State} {u : UnitId}

/-- The ranges of a unit speak of its own part of the state alone. -/
theorem State.unitInRange_of_sameUnit (h : s.unitInRange u) (hst : s.sameUnit t u) : t.unitInRange u := by
  obtain ⟨hrest, hwork⟩ := h
  obtain ⟨hcontrol, hregs⟩ := hst
  rw [State.busy_eq, hcontrol, ← State.busy_eq] at hwork
  cases u <;> simp only [State.restInRange, State.workInRange, hregs] at hrest hwork <;> exact ⟨hrest, hwork⟩

/-- An idle unit has only the ranges of a unit at rest to meet. -/
theorem State.unitInRange_of_idle (h : s.restInRange u) (hb : s.busy u = false) : s.unitInRange u :=
  ⟨h, fun hbusy => absurd (hb.symm.trans hbusy) (by decide)⟩

theorem State.unitInRange_setBuffer (h : s.unitInRange u) (b : Buffer) (m : Memory) : (s.setBuffer b m).unitInRange u := by
  obtain ⟨hrest, hwork⟩ := h
  rw [State.busy_eq, ← State.setBuffer_control s b m, ← State.busy_eq] at hwork
  cases u <;> cases b <;> exact ⟨hrest, hwork⟩

theorem State.unitInRange_agenda (h : s.unitInRange u) (rest : List Event) :
    State.unitInRange { s with agenda := rest } u := by
  obtain ⟨hrest, hwork⟩ := h
  cases u <;> exact ⟨hrest, hwork⟩

/-- An error leaves the working registers as they are. -/
theorem State.unitInRange_raise (h : s.restInRange u) (k : Status) : (s.raise u k).unitInRange u := by
  refine State.unitInRange_of_idle ?_ (congrArg Control.busy (State.raise_control_self s u k))
  cases u <;> exact h

theorem State.unitInRange_abort (h : s.unitInRange u) : (s.abort u).unitInRange u := by
  cases hb : s.busy u with
  | false => rwa [State.abort_of_idle hb]
  | true =>
    rw [State.abort_of_busy hb]
    refine State.unitInRange_of_idle ?_ (congrArg Control.busy (State.setControl_control_self _ u _))
    cases u <;> exact h.rest

/-- At acceptance the working registers are 0. -/
theorem State.restInRange_accept (s : State) (u : UnitId) : (s.accept u).restInRange u := by
  cases u <;> simp [State.restInRange, State.accept, State.clearWork, State.setControl]

theorem State.unitInRange_applyReset (s : State) (u : UnitId) : s.applyReset.unitInRange u := by
  refine State.unitInRange_of_idle ?_ (congrArg Control.busy (State.applyReset_control s u))
  cases u <;> simp [State.restInRange, State.applyReset]

end ranges

/-! ### Commands -/

/-- A check ahead of the loop: passed, the operation begins in range; failed, an error is answered. -/
theorem State.unitInRange_check {s : State} {u : UnitId} {legal : Bool} {k : Status} (hrest : s.restInRange u)
    (hwork : legal = true → s.workInRange u) : (if legal then s else s.raise u k).unitInRange u := by
  cases legal with
  | false => exact State.unitInRange_raise hrest k
  | true => exact ⟨hrest, fun _ => hwork rfl⟩

section begin
variable (s : State)

theorem beginVenc_inRange (v : BitVec 64) : (beginVenc v (s.accept .varintEncoder)).unitInRange .varintEncoder :=
  ⟨Nat.zero_le _, fun _ => ⟨Nat.zero_le _, v.isLt⟩⟩

theorem latchVdec_inRange (avail : BitVec 33) : ((s.accept .varintDecoder).latchVdec avail).unitInRange .varintDecoder :=
  ⟨Nat.zero_le _, fun _ => Nat.zero_le _⟩

theorem beginPack_inRange (bw : BitVec 8) (vals : Group) :
    (beginPack bw vals (s.accept .bitPacker)).unitInRange .bitPacker :=
  State.unitInRange_check (s := (s.accept .bitPacker).latchPack bw vals) ⟨Nat.zero_le _, Nat.zero_le _⟩
    fun hbw => ⟨hbw, Nat.zero_le _, (Nat.zero_mul _).symm, Nat.zero_le _, Nat.two_pow_pos _⟩

theorem beginUnpack_inRange (bw : BitVec 8) (avail : BitVec 33) :
    (beginUnpack bw avail (s.accept .bitUnpacker)).unitInRange .bitUnpacker := by
  have hrest : ((s.accept .bitUnpacker).latchUnpack bw avail).restInRange .bitUnpacker := ⟨Nat.zero_le _, Nat.zero_le _⟩
  unfold beginUnpack
  cases hbw : legalWidth bw with
  | false => exact State.unitInRange_raise hrest _
  | true =>
    by_cases hlt : avail.toNat < bw.toNat
    · simp only [if_true, if_pos hlt]
      exact State.unitInRange_raise hrest _
    · simp only [if_true, if_neg hlt]
      exact ⟨hrest, fun _ => ⟨hbw, Nat.le_of_not_lt hlt, Nat.zero_le _, by simp [State.latchUnpack], Nat.zero_le _, by
        simp [State.latchUnpack]⟩⟩

theorem beginClassify_inRange (n i : BitVec 32) :
    (beginClassify n i (s.accept .rleRunClassifier)).unitInRange .rleRunClassifier := by
  unfold beginClassify
  by_cases hle : n.toNat ≤ i.toNat
  · simp only [if_pos hle]
    exact State.unitInRange_raise (u := .rleRunClassifier) trivial _
  · simp only [if_neg hle]
    have hi := Nat.lt_of_not_le hle
    exact ⟨trivial, fun _ => ⟨hi, le_rfl, hi⟩⟩

theorem beginEncode_inRange (bw : BitVec 8) (n : BitVec 32) :
    (beginEncode bw n (s.accept .runSegmenter)).unitInRange .runSegmenter := by
  have hrest : ((s.accept .runSegmenter).latchEncode bw n).restInRange .runSegmenter :=
    ⟨⟨Nat.zero_le _, Nat.zero_le _⟩, Nat.zero_le _, Nat.zero_le _, Nat.zero_le _⟩
  unfold beginEncode
  cases hbw : legalWidth bw with
  | false => exact State.unitInRange_raise hrest _
  | true =>
    simp only [if_true]
    split
    · exact State.unitInRange_raise hrest _
    · exact ⟨hrest, fun _ => hbw⟩

theorem beginDecode_inRange (bw : BitVec 8) (total : BitVec 32) (slen : BitVec 33) :
    (beginDecode bw total slen (s.accept .runReader)).unitInRange .runReader :=
  State.unitInRange_check (s := (s.accept .runReader).latchDecode bw total slen)
    ⟨⟨Nat.zero_le _, Nat.zero_le _, Nat.zero_le _⟩, Nat.zero_le _, Nat.zero_le _⟩
    fun hbw => ⟨hbw, nofun, nofun⟩

end begin

/-- A command presented at a unit leaves its registers in range, accepted or not. -/
theorem presented_inRange {own u : UnitId} {body : State → State} {s t : State} (h : s.unitInRange u)
    (hbody : (body (s.accept own)).unitInRange own) (ht : presented own u body s = .next t) : t.unitInRange u := by
  obtain ⟨-, he⟩ | ⟨-, rfl, he⟩ | ⟨-, -, he⟩ := presented_cases own u body s <;> rw [he] at ht <;> cases ht
  · exact h
  · exact hbody
  · exact State.unitInRange_raise (State.restInRange_accept s u) _

theorem exec_command_inRange {u : UnitId} {op : BitVec 3} {x : Operands} {s t : State} (h : s.unitInRange u)
    (ht : exec (decodeCommand u op x) s = .next t) : t.unitInRange u := by
  obtain rfl | rfl | rfl | rfl | rfl | rfl | rfl | rfl := op_cases op
  · rw [exec_command_0, execReserved] at ht
    split at ht <;> cases ht
    · exact h
    · exact State.unitInRange_raise (State.restInRange_accept s u) _
  · exact presented_inRange h (beginVenc_inRange s x.v) ht
  · exact presented_inRange (body := fun s => s.latchVdec x.avail) h (latchVdec_inRange s x.avail) ht
  · exact presented_inRange h (beginPack_inRange s x.bw x.vals) ht
  · exact presented_inRange h (beginUnpack_inRange s x.bw x.avail) ht
  · exact presented_inRange h (beginClassify_inRange s x.n x.i) ht
  · exact presented_inRange h (beginEncode_inRange s x.bw x.n) ht
  · exact presented_inRange h (beginDecode_inRange s x.bw x.total x.slen) ht

/-! ### The steps of the units -/

/-- A pass of PACK keeps the bits that were taken in: those emitted and those buffered, at most 7 of them. -/
theorem packPass_inRange {bw : Nat} (hbw : bw ≤ 8) (v : Value) {w : PackRegs} (hk : w.bp_k.toNat ≤ 7)
    (hbits : 8 * w.bp_j.toNat + w.bp_nbits.toNat = w.bp_k.toNat * bw) (hnbits : w.bp_nbits.toNat ≤ 7)
    (hacc : w.bp_acc.toNat < 2 ^ 15) :
    let w' := (packPass bw v w).2
    8 * w'.bp_j.toNat + w'.bp_nbits.toNat = w'.bp_k.toNat * bw ∧ w'.bp_nbits.toNat ≤ 7 ∧ w'.bp_acc.toNat < 2 ^ 15 := by
  have hplace := Nat.mul_le_mul hk hbw
  have hk' : (w.bp_k + 1).toNat * bw = w.bp_k.toNat * bw + bw := by rw [toNat_add_one _ (by omega), Nat.succ_mul]
  have hj' := toNat_add_one w.bp_j (by omega)
  have hsum : (w.bp_nbits + BitVec.ofNat 4 bw).toNat = w.bp_nbits.toNat + bw := by
    rw [BitVec.toNat_add, BitVec.toNat_ofNat]; omega
  have hacc' : (w.bp_acc ||| (v.setWidth 32 <<< w.bp_nbits.toNat)).toNat < 2 ^ 15 := by
    rw [BitVec.toNat_or, BitVec.toNat_shiftLeft, BitVec.toNat_setWidth_of_le (by decide), Nat.shiftLeft_eq]
    refine Nat.or_lt_two_pow hacc ((Nat.mod_le _ _).trans_lt ?_)
    calc v.toNat * 2 ^ w.bp_nbits.toNat < 2 ^ 8 * 2 ^ w.bp_nbits.toNat :=
          (Nat.mul_lt_mul_right (Nat.two_pow_pos _)).mpr v.isLt
      _ ≤ 2 ^ 8 * 2 ^ 7 := Nat.mul_le_mul_left _ (Nat.pow_le_pow_right two_pos hnbits)
  intro w'
  obtain ⟨h8, hp⟩ | ⟨h8, hp⟩ := packPass_cases bw v w
  · have hleft : (w.bp_nbits + BitVec.ofNat 4 bw - 8).toNat = w.bp_nbits.toNat + bw - 8 :=
      (BitVec.toNat_sub_of_le h8).trans (congrArg (· - 8) hsum)
    have hshift := Nat.div_le_self (w.bp_acc ||| (v.setWidth 32 <<< w.bp_nbits.toNat)).toNat (2 ^ 8)
    simp only [w', hp, hk', hj', hleft, BitVec.toNat_ushiftRight, Nat.shiftRight_eq_div_pow]
    omega
  · simp only [w', hp, hk', hsum]
    omega

/-- A pass of UNPACK keeps the bits that were read: those of the values and those buffered, at most 7 of them. -/
theorem unpackPass_inRange {bw base : Nat} {sin : Memory} (hbw : bw ≤ 8) {w : UnpackRegs} (hk : w.bu_k.toNat ≤ 7)
    (hbits : 8 * w.bu_j.toNat = w.bu_k.toNat * bw + w.bu_nbits.toNat) (hnbits : w.bu_nbits.toNat ≤ 7)
    (hacc : w.bu_acc.toNat < 2 ^ w.bu_nbits.toNat) :
    let w' := (unpackPass bw base sin w).2
    8 * w'.bu_j.toNat = w'.bu_k.toNat * bw + w'.bu_nbits.toNat ∧ w'.bu_nbits.toNat ≤ 7 ∧
      w'.bu_acc.toNat < 2 ^ w'.bu_nbits.toNat := by
  have hplace := Nat.mul_le_mul hk hbw
  have hk' : (w.bu_k + 1).toNat * bw = w.bu_k.toNat * bw + bw := by rw [toNat_add_one _ (by omega), Nat.succ_mul]
  obtain ⟨r, hr⟩ : ∃ r, r = unpackRefill bw base sin w := ⟨_, rfl⟩
  have hrefill : r.bu_k = w.bu_k ∧ 8 * r.bu_j.toNat = w.bu_k.toNat * bw + r.bu_nbits.toNat ∧
      bw ≤ r.bu_nbits.toNat ∧ r.bu_nbits.toNat ≤ bw + 7 ∧ r.bu_acc.toNat < 2 ^ r.bu_nbits.toNat := by
    unfold unpackRefill at hr
    split at hr <;> subst hr
    · have hnbits' : (w.bu_nbits + 8).toNat = w.bu_nbits.toNat + 8 := BitVec.toNat_add_of_lt (by simp; omega)
      have hj' := toNat_add_one w.bu_j (by omega)
      refine ⟨rfl, by simp only [hj', hnbits']; omega, by simp only [hnbits']; omega, by simp only [hnbits']; omega, ?_⟩
      simp only [hnbits', BitVec.toNat_or, BitVec.toNat_shiftLeft, BitVec.toNat_setWidth_of_le (by decide : 8 ≤ 32),
        Nat.shiftLeft_eq]
      refine Nat.or_lt_two_pow (hacc.trans_le (Nat.pow_le_pow_right two_pos (by omega))) ((Nat.mod_le _ _).trans_lt ?_)
      rw [Nat.pow_add, Nat.mul_comm]
      exact (Nat.mul_lt_mul_left (Nat.two_pow_pos _)).mpr (BitVec.isLt _)
    · exact ⟨rfl, hbits, by omega, by omega, hacc⟩
  obtain ⟨hrk, hrbits, hle, hge, hracc⟩ := hrefill
  have hwidth : (BitVec.ofNat 4 bw).toNat = bw := Nat.mod_eq_of_lt (by omega)
  have hleft : (r.bu_nbits - BitVec.ofNat 4 bw).toNat = r.bu_nbits.toNat - bw :=
    (BitVec.toNat_sub_of_le (by rw [BitVec.le_def, hwidth]; exact hle)).trans (congrArg (_ - ·) hwidth)
  intro w'
  simp only [w', unpackPass_eq, ← hr, hrk, hk', hleft, BitVec.toNat_ushiftRight, Nat.shiftRight_eq_div_pow]
  refine ⟨by omega, by omega, (Nat.div_lt_iff_lt_mul (Nat.two_pow_pos _)).mpr ?_⟩
  rwa [← Nat.pow_add, Nat.sub_add_cancel hle]

section steps
variable {s t : State}

theorem vencStep_inRange (h : s.workInRange .varintEncoder) : (vencStep s).unitInRange .varintEncoder := by
  obtain ⟨hlen, hvalue⟩ := h
  have hrest : (vencPass s.ve.work).2.ve_len.toNat = s.ve.work.ve_len.toNat + 1 := toNat_add_one _ (by omega)
  have hle : (vencPass s.ve.work).2.ve_len.toNat ≤ 10 := by omega
  obtain ⟨-, he⟩ | ⟨hne, he⟩ := vencStep_cases s <;> rw [he]
  · exact State.unitInRange_of_idle hle rfl
  · refine ⟨hle, fun _ => ?_⟩
    have hleft := vencPass_value s.ve.work
    have hpos : (vencPass s.ve.work).2.ve_v.toNat ≠ 0 := fun h0 => hne (BitVec.eq_of_toNat_eq h0)
    have hlt : s.ve.work.ve_len.toNat < 9 := by
      by_contra hnot
      obtain h9 : s.ve.work.ve_len.toNat = 9 := by omega
      rw [h9] at hvalue
      omega
    have hpow : 2 ^ (64 - 7 * s.ve.work.ve_len.toNat) = 128 * 2 ^ (64 - 7 * (s.ve.work.ve_len.toNat + 1)) := by
      rw [show 64 - 7 * s.ve.work.ve_len.toNat = 7 + (64 - 7 * (s.ve.work.ve_len.toNat + 1)) by omega, Nat.pow_add]
    exact ⟨by simp only [hrest]; omega, by simp only [hrest, hleft]; omega⟩

theorem packStep_inRange (h : s.workInRange .bitPacker) : (packStep s).unitInRange .bitPacker := by
  obtain ⟨hlegal, hk, hbits, hnbits, hacc⟩ := h
  obtain ⟨-, hbw⟩ := (legalWidth_iff _).mp hlegal
  have hplace := Nat.mul_le_mul hk hbw
  have hrest := packPass_count_le s.bp.bw.toNat (s.bp.vals.at s.bp.work.bp_k.toNat) s.bp.work hk (by omega)
  have hpass := packPass_inRange hbw (s.bp.vals.at s.bp.work.bp_k.toNat) hk hbits hnbits hacc
  obtain ⟨-, he⟩ | ⟨hlt, he⟩ := packStep_cases s <;> rw [he]
  · exact State.unitInRange_of_idle hrest rfl
  · exact ⟨hrest, fun _ => ⟨hlegal, Nat.le_of_lt_succ hlt, hpass⟩⟩

theorem unpackStep_inRange (h : s.workInRange .bitUnpacker) : (unpackStep s).unitInRange .bitUnpacker := by
  obtain ⟨hlegal, havail, hk, hbits, hnbits, hacc⟩ := h
  obtain ⟨-, hbw⟩ := (legalWidth_iff _).mp hlegal
  have hplace := Nat.mul_le_mul hk hbw
  have hrest := unpackPass_count_le s.bu.bw.toNat 0 s.bu.sin s.bu.work hk (by omega)
  have hpass := unpackPass_inRange (base := 0) (sin := s.bu.sin) hbw hk hbits hnbits hacc
  obtain ⟨-, he⟩ | ⟨hlt, he⟩ := unpackStep_cases s <;> rw [he]
  · exact State.unitInRange_of_idle hrest rfl
  · exact ⟨hrest, fun _ => ⟨hlegal, havail, Nat.le_of_lt_succ hlt, hpass⟩⟩

theorem classifyStep_inRange (h : s.workInRange .rleRunClassifier) :
    (classifyStep s).unitInRange .rleRunClassifier := by
  obtain ⟨hi, hlen, hn⟩ := h
  obtain ⟨hmore, he⟩ | ⟨-, he⟩ := classifyStep_cases s <;> rw [he]
  · obtain ⟨hcap, hlt, -⟩ := (classifyMore_iff _ _ _ _).mp hmore
    have hlen' := toNat_add_one s.rc.work.rc_len (by omega)
    exact ⟨trivial, fun _ => ⟨hi, by simp only [hlen']; omega, by simp only [hlen']; omega⟩⟩
  · exact State.unitInRange_of_idle (u := .rleRunClassifier) trivial rfl

/-- A pass of ENCODE leaves the counters of the inner units in range. -/
theorem encodePass_private_le {u : RunSegmenter} (hk : u.bp.bp_k.toNat ≤ 8) (hj : u.bp.bp_j.toNat ≤ 8) :
    (encodePass u).ve.ve_len.toNat ≤ 10 ∧ (encodePass u).bp.bp_k.toNat ≤ 8 ∧ (encodePass u).bp.bp_j.toNat ≤ 8 := by
  obtain ⟨-, he⟩ | ⟨-, he⟩ := encodePass_cases u <;> rw [he]
  · simp only [rleEmit]
    rw [emitAll_frame]
    exact ⟨vencWhole_len_le _, hk, hj⟩
  · simp only [bpEmit]
    rw [emitAll_frame]
    exact ⟨vencWhole_len_le _, packWhole_count_le _ _⟩

theorem encodeStep_inRange (h : s.restInRange .runSegmenter) (hlegal : legalWidth s.rs.bw = true) :
    (encodeStep s).unitInRange .runSegmenter := by
  obtain ⟨⟨hi, holen⟩, hv, hk, hj⟩ := h
  obtain ⟨-, hbw⟩ := (legalWidth_iff _).mp hlegal
  obtain ⟨hlt, he⟩ | ⟨-, he⟩ := encodeStep_cases s <;> rw [he]
  · have hpass := encodePass_emits hbw hlt holen
    have hrest : s.rs.rest.length = s.rs.n.toNat - s.rs.rs_i.toNat := by
      rw [RunSegmenter.rest, valuesFrom, Memory.length_slice]
    have hspan : runSpan (nextRun s.rs.rest) ≤ s.rs.n.toNat + 7 - s.rs.rs_i.toNat := by
      have hlen := classifyLen_le_length s.rs.rest
      obtain ⟨-, -, hspan⟩ | ⟨-, -, hspan⟩ := nextRun_cases s.rs.rest <;> omega
    have hcursor : (encodePass s.rs).rs_i.toNat ≤ (encodePass s.rs).n.toNat + 7 := by
      rw [hpass.cursor, hpass.n, List.flatMap_singleton]
      rw [runSpan] at hspan
      omega
    exact ⟨⟨⟨hcursor, encodePass_olen_le hbw hlt holen⟩, encodePass_private_le hk hj⟩, fun _ => (congrArg legalWidth hpass.bw).trans hlegal⟩
  · exact State.unitInRange_of_idle ⟨⟨hi, holen⟩, hv, hk, hj⟩ rfl

theorem varintAbsorb_n {w w' : VdecRegs} {p : BitVec 7} (h : varintAbsorb w p = some w') (h10 : w.vd_n.toNat ≤ 10) :
    w'.vd_n.toNat = w.vd_n.toNat + 1 := by
  rw [varintAbsorb_count h]
  exact toNat_add_one _ (by omega)

theorem vdecStep_inRange (h : s.restInRange .varintDecoder) (ht : vdecStep s = .next t) :
    t.unitInRange .varintDecoder := by
  have h10 : s.vd.work.vd_n.toNat ≤ 10 := h
  obtain ⟨-, he⟩ | ⟨hne, hlt, w, habs, hrun⟩ := vdecStep_cases s
  · rw [he] at ht; cases ht
    exact State.unitInRange_raise h _
  · have hn := varintAbsorb_n habs h10
    have hw : w.vd_n.toNat ≤ 10 := by omega
    obtain ⟨-, he⟩ | ⟨-, he⟩ := hrun <;> rw [he] at ht <;> cases ht
    · exact ⟨hw, fun _ => show w.vd_n.toNat ≤ s.vd.avail.toNat by omega⟩
    · exact State.unitInRange_of_idle hw rfl

/-- Values appended within the room keep the count within `total`. -/
theorem unitInRange_append {u : RunReader} {vs : List Value} (hpos : u.rr_pos.toNat ≤ u.slen.toNat)
    (hcount : u.rr_count.toNat ≤ u.total.toNat) (hn : u.vd.vd_n.toNat ≤ 10) (hk : u.bu.bu_k.toNat ≤ 8)
    (hj : u.bu.bu_j.toNat ≤ 8) (hlegal : legalWidth u.bw = true) (htop : u.phase = .top) (hvs : vs.length ≤ u.room) :
    State.unitInRange { s with rr := appendAll u vs } .runReader := by
  have hroom : vs.length ≤ u.total.toNat - u.rr_count.toNat := hvs
  have htotal := u.total.isLt
  obtain ⟨hcount', -⟩ := appendAll_spec vs u (by omega)
  have hle : (appendAll u vs).rr_count.toNat ≤ u.total.toNat := by omega
  rw [appendAll_frame]
  exact ⟨⟨⟨hpos, hle, hn⟩, hk, hj⟩, fun _ => ⟨hlegal, fun hp => absurd (htop.symm.trans hp) nofun,
    fun hp => absurd (htop.symm.trans hp) nofun⟩⟩

theorem exec_run_inRange (h : s.restInRange .runReader) (hlegal : legalWidth s.rr.bw = true) {hd : BitVec 64}
    (ht : exec (decodeHeader hd) s = .next t) : t.unitInRange .runReader := by
  have hrest := h
  obtain ⟨⟨hpos, hcount, hn⟩, hk, hj⟩ := h
  obtain ⟨-, hbw⟩ := (legalWidth_iff _).mp hlegal
  have hslen := s.rr.slen.isLt
  unfold decodeHeader at ht
  split at ht
  · obtain ⟨-, he⟩ | ⟨hle, he⟩ := execBp_cases (hd.extractLsb' 1 63) s <;> cases he.symm.trans ht
    · exact State.unitInRange_raise hrest _
    · have hwidth : (s.rr.bw.setWidth 33).toNat = s.rr.bw.toNat := BitVec.toNat_setWidth_of_le (by decide)
      have hpos' : (s.rr.rr_pos + s.rr.bw.setWidth 33).toNat ≤ s.rr.slen.toNat := by
        rw [BitVec.toNat_add_of_lt (by omega)]; omega
      obtain ⟨hk', hj'⟩ := unpackWhole_count_le s.rr.bw.toNat s.rr.rr_pos.toNat s.rr.sin s.rr.rr_grp
      refine unitInRange_append hpos' hcount hn hk' hj' hlegal rfl ?_
      rw [List.length_take]
      exact (Nat.min_le_left _ _).trans (Nat.min_le_right _ _)
  · obtain ⟨-, he⟩ | ⟨hne, he⟩ := execRle_cases (hd.extractLsb' 1 63) s <;> cases he.symm.trans ht
    · exact State.unitInRange_raise hrest _
    · have hne' : s.rr.rr_pos.toNat ≠ s.rr.slen.toNat := fun heq => hne (BitVec.eq_of_toNat_eq heq)
      have hpos' : (s.rr.rr_pos + 1).toNat ≤ s.rr.slen.toNat := by rw [toNat_add_one _ (by omega)]; omega
      refine unitInRange_append hpos' hcount hn hk hj hlegal rfl ?_
      rw [List.length_replicate]
      exact Nat.min_le_right _ _

theorem readerStep_inRange (h : s.restInRange .runReader) (hwork : s.workInRange .runReader)
    (ht : readerStep s = .next t) : t.unitInRange .runReader := by
  have hrest := h
  obtain ⟨⟨hpos, hcount, h10⟩, hk, hj⟩ := h
  obtain ⟨hlegal, hheader, -⟩ := hwork
  have hslen := s.rr.slen.isLt
  cases hp : s.rr.phase with
  | top =>
    rw [readerStep_top s hp] at ht; cases ht
    obtain ⟨-, he⟩ | ⟨-, -, he⟩ | ⟨hlt, hne, he⟩ := readerTop_cases s <;> rw [he]
    · exact State.unitInRange_of_idle hrest rfl
    · exact State.unitInRange_raise hrest _
    · have hne' : s.rr.rr_pos.toNat ≠ s.rr.slen.toNat := fun heq => hne (BitVec.eq_of_toNat_eq heq)
      have hleft : s.rr.rr_pos.toNat < s.rr.slen.toNat := by omega
      exact ⟨⟨⟨hpos, hcount, Nat.zero_le _⟩, hk, hj⟩, fun _ => ⟨hlegal, fun _ => ⟨hleft, hpos, hlt⟩, nofun⟩⟩
  | header =>
    obtain ⟨hlt, -, howed⟩ := hheader hp
    obtain ⟨-, he⟩ | ⟨hne, hin, w, habs, hrun⟩ := readerStep_header_cases s hp
    · rw [he] at ht; cases ht
      exact State.unitInRange_raise hrest _
    · have hn := varintAbsorb_n habs h10
      have hw : w.vd_n.toNat ≤ 10 := by omega
      obtain ⟨-, he⟩ | ⟨-, he⟩ := hrun <;> rw [he] at ht <;> cases ht
      · refine ⟨⟨⟨hpos, hcount, hw⟩, hk, hj⟩, fun _ => ⟨hlegal, fun _ => ⟨hlt, ?_, howed⟩,
          fun hbody => absurd (hp.symm.trans hbody) nofun⟩⟩
        exact show s.rr.rr_pos.toNat + w.vd_n.toNat ≤ s.rr.slen.toNat by omega
      · have hlen : (w.vd_n.setWidth 33).toNat = w.vd_n.toNat := BitVec.toNat_setWidth_of_le (by decide)
        have hpos' : (s.rr.rr_pos + w.vd_n.setWidth 33).toNat ≤ s.rr.slen.toNat := by
          rw [BitVec.toNat_add_of_lt (by omega)]; omega
        exact ⟨⟨⟨hpos', hcount, hw⟩, hk, hj⟩, fun _ => ⟨hlegal, nofun, fun _ => howed⟩⟩
  | body => exact exec_run_inRange hrest hlegal ((readerStep_body s hp).symm.trans ht)

end steps

/-- A step of a unit keeps its own registers in range. -/
theorem advance_inRange {u : UnitId} {s t : State} (h : s.unitInRange u) (ht : advance u s = .next t) :
    t.unitInRange u := by
  cases hb : s.busy u with
  | false => rw [advance_idle hb] at ht; cases ht; exact h
  | true =>
    have hwork := h.work hb
    rw [advance_busy hb] at ht
    cases u with
    | varintEncoder => cases ht; exact vencStep_inRange hwork
    | varintDecoder => exact vdecStep_inRange h.rest ht
    | bitPacker => cases ht; exact packStep_inRange hwork
    | bitUnpacker => cases ht; exact unpackStep_inRange hwork
    | rleRunClassifier => cases ht; exact classifyStep_inRange hwork
    | runSegmenter => cases ht; exact encodeStep_inRange h.rest hwork
    | runReader => exact readerStep_inRange h.rest hwork ht

/-! ### A step -/

/-- What keeps one unit in range and leaves the others alone keeps all in range. -/
theorem State.allInRange_of_own {s t : State} {u : UnitId} (h : ∀ v, s.unitInRange v)
    (hothers : ∀ v, v ≠ u → s.sameUnit t v) (hown : t.unitInRange u) (v : UnitId) : t.unitInRange v := by
  by_cases hv : v = u
  · exact hv ▸ hown
  · exact State.unitInRange_of_sameUnit (h v) (hothers v hv)

theorem step_inRange {s t : State} (h : ∀ u, s.unitInRange u) (ht : step s = .next t) : ∀ u, t.unitInRange u := by
  have hrest : ∀ rest u, State.unitInRange { s with agenda := rest } u := fun rest u =>
    State.unitInRange_agenda (h u) rest
  have hadvance : ∀ {s : State} {u}, (∀ v, s.unitInRange v) → advance u s = .next t → ∀ v, t.unitInRange v :=
    fun hs ht => by
      obtain ⟨hothers, -⟩ := advance_control ht
      exact State.allInRange_of_own hs hothers (advance_inRange (hs _) ht)
  obtain ⟨-, u, -, he⟩ | ⟨-, -, he⟩ | ⟨u, op, x, rest, -, -, he⟩ | ⟨u, op, x, rest, -, -, he⟩ | ⟨u, rest, -, he⟩ |
    ⟨rest, -, he⟩ | ⟨b, offset, x, rest, -, he⟩ | ⟨u, rest, -, he⟩ := step_cases s <;> rw [he] at ht
  · exact hadvance h ht
  · cases ht; exact h
  · exact hadvance h ht
  · exact State.allInRange_of_own (hrest rest) (exec_command_frame ht).1 (exec_command_inRange (hrest rest u) ht)
  · cases ht
    exact State.allInRange_of_own (hrest rest) (fun v hv => State.sameUnit_abort' _ hv)
      (State.unitInRange_abort (hrest rest u))
  · cases ht; exact State.unitInRange_applyReset _
  · obtain ⟨-, he⟩ | ⟨-, -, he⟩ | ⟨-, -, he⟩ := hostWrite_cases b offset x { s with agenda := rest } <;>
      rw [he] at ht <;> cases ht
    exact fun u => State.unitInRange_setBuffer (hrest rest u) b _
  · exact hadvance (hrest rest) ht

/-- Settles O53: a step takes one unit further, within its ranges, and leaves the others alone. -/
theorem registersStayInRange : Obligations.RegistersStayInRange := by
  unfold Obligations.RegistersStayInRange
  intro s t h ht
  rw [State.registersInRange_iff] at h ⊢
  exact step_inRange h ht

/-- Settles O54: at reset every unit is idle with its registers 0, and no buffer lists anything. -/
theorem resetMeetsInvariants : Obligations.ResetMeetsInvariants := by
  unfold Obligations.ResetMeetsInvariants
  have hempty : ∀ b, State.reset.buffer b = [] := fun b => by cases b <;> rfl
  refine ⟨fun b => by rw [hempty]; rfl, fun b c hc => ?_, State.reset.registersInRange_iff.mpr fun u =>
    State.unitInRange_of_idle ?_ (by cases u <;> rfl)⟩
  · rw [hempty] at hc
    cases hc
  · cases u <;> simp [State.restInRange, State.reset]

end Sys2Proof.Machine

/-! UNPACK (O26, O27, O29): a step takes one value off the number of the group's bytes, so after eight steps the values are the
fields of that number and nothing is buffered; of PACK's output these are the values packed, where they fit. -/

namespace Sys2Proof

/-- The number of the first `n` values that fit is their sum. -/
theorem packPrefix_eq_sum_of_fits {bw : Nat} {g : Group} (hg : g.fits bw) {n : Nat} (hn : n ≤ 8) :
    packPrefix bw g n = ∑ k ∈ Finset.range n, (g.at k).toNat * 2 ^ (k * bw) := by
  induction n with
  | zero => rfl
  | succ n ih =>
    rw [packPrefix_succ_of_lt (packPrefix_lt_of_fits hg (by omega)), ih (by omega), Finset.sum_range_succ, Nat.add_comm,
      Nat.mul_comm]

/-- Settles O26: a value that fits lies above all values before it, so the OR is a sum. -/
theorem packNumberOfFittingValuesIsSum : Obligations.PackNumberOfFittingValuesIsSum := by
  unfold Obligations.PackNumberOfFittingValuesIsSum
  exact fun bw g hg => packPrefix_eq_sum_of_fits hg le_rfl

end Sys2Proof

namespace Sys2Proof.Machine

/-- The number of the bytes in a buffer. -/
theorem unpackNumber_slice (m : Memory) (a len : Nat) : unpackNumber (Memory.slice m a len) =
    ∑ j ∈ Finset.range len, (Memory.read m (a + j)).toNat * 2 ^ (8 * j) := by
  induction len generalizing a with
  | zero => rfl
  | succ len ih =>
    have hplace : ∀ j, (Memory.read m (a + (j + 1))).toNat * 2 ^ (8 * (j + 1)) =
        256 * ((Memory.read m (a + 1 + j)).toNat * 2 ^ (8 * j)) := fun j => by
      rw [show a + (j + 1) = a + 1 + j by omega]
      ring
    rw [Nat.add_comm len 1, Memory.slice_add, Nat.add_comm 1 len, Finset.sum_range_succ']
    simp only [hplace, ← Finset.mul_sum, ← ih]
    rw [Nat.mul_zero, Nat.pow_zero, Nat.mul_one]
    exact Nat.add_comm _ _

/-! ### The steps of UNPACK -/

/-- The group `g` with its first `n` values unpacked from `bs`. -/
def filledGroup (bw : Nat) (bs : List Byte) (g : Group) (n : Nat) : Group :=
  Vector.ofFn fun k => if k.val < n then unpackValue bw bs k else g.at k

section filled
variable {bw : Nat} {bs : List Byte} {g : Group} {n : Nat}

theorem filledGroup_at {k : Nat} (hk : k < 8) :
    (filledGroup bw bs g n).at k = if k < n then unpackValue bw bs k else g.at k := by
  simp [filledGroup, Group.at, hk]

theorem filledGroup_zero : filledGroup bw bs g 0 = g := Group.ext_at fun k hk => by
  rw [filledGroup_at hk, if_neg (Nat.not_lt_zero k)]

theorem filledGroup_eight : filledGroup bw bs g 8 = unpackGroup bw bs := Group.ext_at fun k hk => by
  rw [filledGroup_at hk, if_pos hk, unpackGroup_at bw bs hk]

theorem filledGroup_succ :
    (filledGroup bw bs g n).setIfInBounds n (unpackValue bw bs n) = filledGroup bw bs g (n + 1) :=
  Group.ext_at fun k hk => by
    rw [Group.at_setIfInBounds _ n k _ hk, filledGroup_at hk, filledGroup_at hk]
    by_cases hkn : k = n
    · rw [if_pos hkn, if_pos (by omega), hkn]
    · rw [if_neg hkn]
      exact if_congr (by omega) rfl rfl

end filled

/-- The bytes of UNPACK's group. -/
def State.unpackBytes (s : State) (bw : BitVec 8) : List Byte := Memory.slice s.bu.sin 0 bw.toNat

/-- UNPACK, accepted in `s`, after values 0 to `n - 1`. -/
def State.unpackTaken (s : State) (bw : BitVec 8) (avail : BitVec 33) (n : Nat) : State :=
  { (s.accept .bitUnpacker).latchUnpack bw avail with
    bu := { s.bu with
      bw := bw, avail := avail, work := unpackRegs bw.toNat (unpackNumber (s.unpackBytes bw)) n
      vals := filledGroup bw.toNat (s.unpackBytes bw) s.bu.vals n } }

/-- UNPACK, accepted in `s`, after its answer. -/
def State.unpackAnswered (s : State) (bw : BitVec 8) (avail : BitVec 33) : State :=
  let t := s.unpackTaken bw avail 8
  { t with bu := { t.bu with consumed := t.bu.work.bu_j } }.respond .bitUnpacker .ok

theorem unpackRegs_zero (bw x : Nat) : unpackRegs bw x 0 = {} := by simp [unpackRegs, unpackBits, unpackRead, Nat.mod_one]

/-- After the last value nothing is buffered, and the bytes read are the group's. -/
theorem unpackRegs_eight {bw : Nat} (hbw : bw ≤ 8) (x : Nat) : (unpackRegs bw x 8).bu_acc = 0 ∧
    (unpackRegs bw x 8).bu_nbits = 0 ∧ (unpackRegs bw x 8).bu_j.toNat = bw := by
  have hread : unpackRead bw 8 = bw := by unfold unpackRead; omega
  have hbits : unpackBits bw 8 = 0 := by unfold unpackBits; omega
  refine ⟨?_, ?_, ?_⟩ <;> simp only [unpackRegs, hbits, hread]
  · simp [Nat.mod_one]
  · rfl
  · exact Nat.mod_eq_of_lt (by omega)

section steps
variable {s : State} {bw : BitVec 8} {avail : BitVec 33}

theorem exec_unpack (hb : s.busy .bitUnpacker = false) (hlegal : legalWidth bw = true)
    (havail : bw.toNat ≤ avail.toNat) :
    exec (.unpack .bitUnpacker bw avail) s = .next (s.unpackTaken bw avail 0) := by
  have hbegin : beginUnpack bw avail (s.accept .bitUnpacker) = s.unpackTaken bw avail 0 := by
    rw [beginUnpack, if_pos hlegal, if_neg (by omega), State.unpackTaken, unpackRegs_zero, filledGroup_zero]
    rfl
  exact (presented_own (beginUnpack bw avail) hb).trans (congrArg Host.Outcome.next hbegin)

/-- A step extracts the next value, and answers after the eighth. -/
theorem advance_unpackTaken (hbw : bw.toNat ≤ 8) {n : Nat} (hn : n < 8) :
    advance .bitUnpacker (s.unpackTaken bw avail n) =
      .next (if n = 7 then s.unpackAnswered bw avail else s.unpackTaken bw avail (n + 1)) := by
  have hpass := unpackPass_unpackRegs (base := 0) (sin := s.bu.sin) hbw hn rfl
  rw [← unpackValue_slice] at hpass
  have hk : (unpackRegs bw.toNat (unpackNumber (s.unpackBytes bw)) n).bu_k.toNat = n := Nat.mod_eq_of_lt (by omega)
  have hk' : (unpackRegs bw.toNat (unpackNumber (s.unpackBytes bw)) (n + 1)).bu_k.toNat = n + 1 :=
    Nat.mod_eq_of_lt (by omega)
  have hcases := unpackStep_cases (s.unpackTaken bw avail n)
  simp only [State.unpackTaken, State.unpackBytes, hpass] at hk hk' hcases
  simp only [hk, hk', filledGroup_succ] at hcases
  rw [advance_busy (s := s.unpackTaken bw avail n) rfl]
  obtain ⟨h8, he⟩ | ⟨h8, he⟩ := hcases
  · obtain rfl : n = 7 := by omega
    exact congrArg Host.Outcome.next he
  · rw [if_neg (by omega)]
    exact congrArg Host.Outcome.next he

theorem advanceN_unpackTaken (hbw : bw.toNat ≤ 8) {n : Nat} (hn : n < 8) :
    advanceN n .bitUnpacker (s.unpackTaken bw avail 0) = .next (s.unpackTaken bw avail n) := by
  induction n with
  | zero => rfl
  | succ n ih =>
    rw [advanceN_add n 1 _ _ _ (ih (by omega))]
    simp only [advanceN, advance_unpackTaken hbw (show n < 8 by omega), if_neg (show n ≠ 7 by omega)]

theorem advanceN_unpack (hbw : bw.toNat ≤ 8) :
    advanceN 8 .bitUnpacker (s.unpackTaken bw avail 0) = .next (s.unpackAnswered bw avail) := by
  rw [advanceN_add 7 1 _ _ _ (advanceN_unpackTaken hbw (by decide))]
  simp only [advanceN, advance_unpackTaken hbw (show 7 < 8 by decide), if_pos]

end steps

section answered
variable (s : State) (bw : BitVec 8) (avail : BitVec 33)

theorem State.unpackAnswered_vals : (s.unpackAnswered bw avail).bu.vals = unpackGroup bw.toNat (s.unpackBytes bw) :=
  filledGroup_eight

theorem State.unpackAnswered_othersUnchanged : s.othersUnchanged (s.unpackAnswered bw avail) .bitUnpacker := by
  refine ⟨fun u hu => State.sameUnit_trans (State.sameUnit_accept s hu) (State.sameUnit_trans ?_
    (State.sameUnit_respond _ .ok hu)), rfl, rfl⟩
  cases u <;> first | exact ⟨rfl, rfl⟩ | exact absurd rfl hu

theorem State.unpackAnswered_nothingStored : s.nothingStored (s.unpackAnswered bw avail) := fun b a => by
  cases b <;> rfl

end answered

/-- Settles O27: eight steps fill in the group of the contract, whose values are the fields of the number of the bytes. -/
theorem unpackAnswersFieldsOfPayload : Obligations.UnpackAnswersFieldsOfPayload := by
  unfold Obligations.UnpackAnswersFieldsOfPayload
  intro s bw avail hb hlegal havail
  obtain ⟨-, hbw⟩ := (legalWidth_iff _).mp hlegal
  have hnumber := unpackNumber_slice s.bu.sin 0 bw.toNat
  simp only [Nat.zero_add] at hnumber
  obtain ⟨hacc, hnbits, hj⟩ := unpackRegs_eight hbw (unpackNumber (s.unpackBytes bw))
  refine ⟨_, _, exec_unpack hb hlegal havail, advanceN_unpack hbw, rfl, rfl, rfl, hj, hacc, hnbits, fun k hk => ?_,
    s.unpackAnswered_othersUnchanged bw avail, s.unpackAnswered_nothingStored bw avail⟩
  rw [← hnumber, State.unpackAnswered_vals]
  exact unpackGroup_at_toNat hbw (Memory.length_slice _ _ _) hk

/-- Settles O29: UNPACK's input holds the bytes PACK wrote, and the contract unpacks these to the values that fit. -/
theorem unpackUndoesPack : Obligations.UnpackUndoesPack := by
  unfold Obligations.UnpackUndoesPack
  intro s₁ t₁ r₁ s₂ k bw vals avail hb₁ hwf hlegal hfits ht₁ hr₁ hok hb₂ havail hbytes
  obtain ⟨-, hbw⟩ := (legalWidth_iff _).mp hlegal
  obtain rfl := Host.Outcome.next.inj ((exec_pack hb₁ hlegal).symm.trans ht₁)
  obtain rfl := advanceN_unique_of_idle (advanceN_pack hbw) hr₁ rfl (congrArg Control.busy hok)
  have holen : (s₁.packAnswered bw vals).bp.olen.toNat = bw.toNat :=
    (BitVec.toNat_setWidth_of_le (by decide)).trans (packRegs_eight hbw).2.1
  rw [holen] at havail hbytes
  have hholds : (s₁.packAnswered bw vals).bp.sout.holds 0 (packBytes bw.toNat vals) := by
    rw [State.packAnswered_sout]
    exact Memory.holds_writeList hwf (by rw [length_packBytes, Config.spaceSize]; omega)
  have hin : s₂.unpackBytes bw = packBytes bw.toNat vals := by
    have hholds₂ := hholds.congr (m' := s₂.bu.sin) fun k hk => by
      rw [length_packBytes] at hk
      simpa using hbytes k hk
    rwa [Memory.holds, length_packBytes] at hholds₂
  refine ⟨_, _, exec_unpack hb₂ hlegal havail, advanceN_unpack hbw, rfl, ?_⟩
  rw [State.unpackAnswered_vals, hin, unpackGroup_packBytes_of_fits hbw hfits]

end Sys2Proof.Machine

/-! ENCODE against its contract (O31) and the bound on its output (O36). -/

namespace Sys2Proof.Machine

/-! ### The bound -/

/-- A run of the scan takes a header and a value byte, at most 4 bytes, or one byte and a packed group. -/
theorem length_runBytes_nextRun_le_max (bw : Nat) (vs : List Value) :
    (Run.bytes bw (nextRun vs)).length ≤ max (1 + bw) 4 := by
  obtain ⟨-, he, -⟩ | ⟨-, he, -⟩ := nextRun_cases vs
  · have hcap := classifyLen_le_cap vs
    have hlen : varintLen (rleHeader (BitVec.ofNat 63 (classifyLen vs))) ≤ 3 := by
      refine (leastGroups_varintLen _).least 3 (by omega) ?_
      rw [rleHeader_toNat, BitVec.toNat_ofNat]
      omega
    rw [he, Run.bytes, List.length_append, length_varintBytes, List.length_singleton]
    omega
  · rw [he, runBytes_bp, List.length_cons, length_packBytes]
    omega

/-- Settles O36: the scan emits at most one run for every 8 values or part of them, each within the bound of a run. -/
theorem encodeOutputFitsCapacityBound : Obligations.EncodeOutputFitsCapacityBound := by
  unfold Obligations.EncodeOutputFitsCapacityBound
  intro bw vs bs hok
  obtain ⟨-, -, rfl⟩ := encodeStream_ok_iff.mp hok
  rw [List.length_flatMap]
  calc ((segment vs.length vs).map fun run => (Run.bytes bw.toNat run).length).sum
      ≤ ((segment vs.length vs).map fun run => (Run.bytes bw.toNat run).length).length • max (1 + bw.toNat) 4 :=
        List.sum_le_card_nsmul _ _ fun len hlen => by
          obtain ⟨run, hrun, rfl⟩ := List.mem_map.mp hlen
          obtain ⟨ws, rfl⟩ := exists_nextRun_of_mem_segment hrun
          exact length_runBytes_nextRun_le_max bw.toNat ws
    _ = (segment vs.length vs).length * max (1 + bw.toNat) 4 := by rw [List.length_map, smul_eq_mul]
    _ ≤ (vs.length + 7) / 8 * max (1 + bw.toNat) 4 := Nat.mul_le_mul_right _ (length_segment_le le_rfl)

/-! ### The refinement -/

section encode
variable (s : State) (bw : BitVec 8) (n : BitVec 32)

theorem State.sameUnit_encodeStarted {u : UnitId} (hu : u ≠ .runSegmenter) : s.sameUnit (s.encodeStarted bw n) u := by
  refine State.sameUnit_trans (State.sameUnit_accept s hu) ?_
  cases u <;> first | exact ⟨rfl, rfl⟩ | exact absurd rfl hu

theorem State.sameUnit_encodeAnswered (u : RunSegmenter) {v : UnitId} (hv : v ≠ .runSegmenter) :
    s.sameUnit (s.encodeAnswered u) v := by
  refine State.sameUnit_trans (t := { s with rs := { u with olen := u.rs_olen } }) ?_ (State.sameUnit_respond _ .ok hv)
  cases v <;> first | exact ⟨rfl, rfl⟩ | exact absurd rfl hv

end encode

/-- Bytes written at the front of a buffer are all that is stored. -/
theorem State.onlyStored_writeList {s t : State} {b : Buffer} {bs : List Byte}
    (hb : t.buffer b = Memory.writeList (s.buffer b) 0 bs) (hothers : ∀ b', b' ≠ b → t.buffer b' = s.buffer b') :
    s.onlyStored t b 0 bs.length := by
  intro b' a hout
  by_cases hbb : b' = b
  · subst hbb
    rw [hb]
    refine Memory.read_writeList_outside bs _ (.inr ?_)
    by_contra hlt
    exact hout ⟨rfl, Nat.zero_le a, by omega⟩
  · rw [hothers b' hbb]

/-- Settles O31: a step emits one run of the scan, of which there are at most one for every 8 values or part of them; the
checks of acceptance are those of the contract. -/
theorem encodeRefinesContract : Obligations.EncodeRefinesContract := by
  unfold Obligations.EncodeRefinesContract
  intro s bw n hb hwf
  have hlen := Memory.length_slice s.rs.vin 0 n.toNat
  obtain ⟨hlegal, hfit, hexec⟩ | ⟨k, -, herr, hexec⟩ := exec_encode_cases bw n hb
  · obtain ⟨u, hu, hrun⟩ := advanceN_encodeStarted (s := s) (n := n) hlegal
    have hsteps := length_segment_le hlen.le
    have hok := encodeStream_ok_iff.mpr ⟨hlegal, hfit, rfl⟩
    rw [hlen] at hsteps hok
    have hvin : u.vin = s.rs.vin := hu.vin
    have holen : u.rs_olen.toNat = _ := hu.olen.trans (Nat.zero_add _)
    have hsout : u.sout = Memory.writeList s.rs.sout 0 _ := hu.sout
    have hspace := u.rs_olen.isLt
    refine ⟨_, _, hexec, ⟨_, Nat.add_le_add_right hsteps 1, hrun⟩,
      fun v hv => State.sameUnit_trans (s.sameUnit_encodeStarted bw n hv) (State.sameUnit_encodeAnswered _ u hv), rfl,
      hvin, ?_⟩
    rw [hok]
    refine ⟨rfl, holen, ?_, rfl, State.onlyStored_writeList hsout fun b hbuf => ?_⟩
    · exact (congrArg (Memory.slice · 0 _) hsout).trans
        (Memory.holds_writeList hwf (by rw [Config.spaceSize]; omega))
    · cases b <;> first | rfl | exact hvin | exact absurd rfl hbuf
  · have hcontrol := State.raise_control_self (s.encodeStarted bw n) .runSegmenter k
    refine ⟨_, _, hexec, ⟨0, Nat.zero_le _, rfl⟩,
      fun v hv => State.sameUnit_trans (s.sameUnit_encodeStarted bw n hv) (State.sameUnit_raise _ k hv),
      State.raise_agenda _ _ _, State.raise_buffer_of_ne (s.encodeStarted bw n) .runSegmenter k (b := .encodeVin) (by decide),
      ?_⟩
    rw [herr]
    exact hcontrol

end Sys2Proof.Machine

/-! The contract of DECODE run by run: zero-length runs (O42), and bytes after the last run (O43). -/

namespace Sys2Proof.Machine

/-! ### One run of the contract -/

/-- The values of the body of a run with header `h`, at most `need` of them, and the bytes the body takes
(43_reader.md R226 to R229). -/
def readBody (bw need : Nat) (h : BitVec 64) (body : List Byte) : Except Status (List Value × Nat) :=
  if h.getLsbD 0 then
    if body.length < bw then .error .truncatedBuffer else .ok ((unpackGroup bw body).toList.take need, bw)
  else
    match body with
    | [] => .error .truncatedBuffer
    | v :: _ => .ok (List.replicate (min (h.toNat / 2) need) v, 1)

/-- The values of the run at the front of `bs`, at most `need` of them, and the bytes it takes (43_reader.md R223 to
R229). -/
def readRun (bw need : Nat) (bs : List Byte) : Except Status (List Value × Nat) :=
  if bs = [] then .error .overrunError
  else
    match varintOf bs with
    | none => .error .malformedHeader
    | some (h, c) => (readBody bw need h (bs.drop c)).map fun r => (r.1, c + r.2)

theorem readBody_bp {h : BitVec 64} (hbit : h.getLsbD 0 = true) (bw need : Nat) (body : List Byte) :
    readBody bw need h body = if body.length < bw then .error .truncatedBuffer
      else .ok ((unpackGroup bw body).toList.take need, bw) :=
  if_pos hbit

theorem readBody_rle_nil {h : BitVec 64} (hbit : ¬ h.getLsbD 0 = true) (bw need : Nat) :
    readBody bw need h [] = .error .truncatedBuffer :=
  if_neg hbit

theorem readBody_rle_cons {h : BitVec 64} (hbit : ¬ h.getLsbD 0 = true) (bw need : Nat) (v : Value) (rest : List Byte) :
    readBody bw need h (v :: rest) = .ok (List.replicate (min (h.toNat / 2) need) v, 1) :=
  if_neg hbit

theorem readRun_nil (bw need : Nat) : readRun bw need [] = .error .overrunError := rfl

theorem readRun_of_varintOf {bw need : Nat} {bs : List Byte} {h : BitVec 64} {c : Nat} (hv : varintOf bs = some (h, c)) :
    readRun bw need bs = (readBody bw need h (bs.drop c)).map fun r => (r.1, c + r.2) := by
  have hne : bs ≠ [] := by rintro rfl; exact absurd hv (by simp [varintOf, firstFinal])
  rw [readRun, if_neg hne, hv]

theorem readRun_of_malformed {bw need : Nat} {bs : List Byte} (hne : bs ≠ []) (hv : varintOf bs = none) :
    readRun bw need bs = .error .malformedHeader := by
  rw [readRun, if_neg hne, hv]

theorem readRuns_zero (bw fuel : Nat) (bs : List Byte) : readRuns bw fuel 0 bs = .ok [] := by
  cases fuel <;> rfl

/-- The contract reads one run and goes on behind it. -/
theorem readRuns_succ (bw fuel need : Nat) (bs : List Byte) : readRuns bw (fuel + 1) (need + 1) bs =
    (readRun bw (need + 1) bs).bind fun r =>
      (readRuns bw fuel (need + 1 - r.1.length) (bs.drop r.2)).map (r.1 ++ ·) := by
  cases bs with
  | nil => rfl
  | cons b bs =>
    cases hv : varintOf (b :: bs) with
    | none => rw [readRun_of_malformed (List.cons_ne_nil b bs) hv]; simp only [readRuns, hv]; rfl
    | some r =>
      obtain ⟨h, c⟩ := r
      have hdrop : ∀ m, (b :: bs).drop (c + m) = ((b :: bs).drop c).drop m := fun m => List.drop_drop.symm
      rw [readRun_of_varintOf hv]
      simp only [readRuns, hv, readBody]
      split
      · split
        · rfl
        · simp only [Except.map, Except.bind, hdrop]
          cases readRuns bw fuel _ (((b :: bs).drop c).drop bw) <;> rfl
      · cases hbody : (b :: bs).drop c with
        | nil => rfl
        | cons v rest =>
          simp only [Except.map, Except.bind, hdrop, hbody, List.length_replicate, List.drop_one, List.tail_cons]
          cases readRuns bw fuel _ rest <;> rfl

/-! ### What a run takes -/

section run
variable {bw need : Nat}

theorem length_of_readBody {h : BitVec 64} {body : List Byte} {vs : List Value} {m : Nat}
    (hok : readBody bw need h body = .ok (vs, m)) : vs.length ≤ need ∧ m ≤ body.length ∧ (1 ≤ bw → 1 ≤ m) := by
  by_cases hbit : h.getLsbD 0 = true
  · rw [readBody_bp hbit] at hok
    split at hok
    · cases hok
    · obtain ⟨rfl, rfl⟩ := Prod.mk.inj (Except.ok.inj hok)
      rw [List.length_take]
      exact ⟨Nat.min_le_left _ _, by omega, id⟩
  · cases body with
    | nil => rw [readBody_rle_nil hbit] at hok; cases hok
    | cons v rest =>
      rw [readBody_rle_cons hbit] at hok
      obtain ⟨rfl, rfl⟩ := Prod.mk.inj (Except.ok.inj hok)
      rw [List.length_replicate]
      exact ⟨Nat.min_le_right _ _, Nat.succ_pos _, fun _ => le_rfl⟩

theorem varintOf_length {bs : List Byte} {h : BitVec 64} {c : Nat} (hv : varintOf bs = some (h, c)) :
    1 ≤ c ∧ c ≤ bs.length := by
  obtain ⟨n, rfl, hends, -⟩ := (varintOf_eq_some_iff (indexes_getD bs)).mp hv
  exact ⟨Nat.succ_pos n, hends.lt⟩

/-- A run that is read is a header that is a varint, and a body. -/
theorem readRun_eq_ok_iff {bs : List Byte} {vs : List Value} {j : Nat} : readRun bw need bs = .ok (vs, j) ↔
    ∃ h c m, varintOf bs = some (h, c) ∧ readBody bw need h (bs.drop c) = .ok (vs, m) ∧ j = c + m := by
  constructor
  · intro hok
    by_cases hne : bs = []
    · subst hne; cases hok
    · cases hv : varintOf bs with
      | none => rw [readRun_of_malformed hne hv] at hok; cases hok
      | some r =>
        obtain ⟨h, c⟩ := r
        rw [readRun_of_varintOf hv] at hok
        cases hbody : readBody bw need h (bs.drop c) with
        | error e => rw [hbody] at hok; cases hok
        | ok r =>
          rw [hbody] at hok
          obtain ⟨rfl, rfl⟩ := Prod.mk.inj (Except.ok.inj hok)
          exact ⟨h, c, r.2, rfl, hbody, rfl⟩
  · rintro ⟨h, c, m, hv, hbody, rfl⟩
    rw [readRun_of_varintOf hv, hbody]
    rfl

/-! ### Bytes that follow -/

theorem unpackGroup_append {bs : List Byte} (extra : List Byte) (hlen : bw ≤ bs.length) :
    unpackGroup bw (bs ++ extra) = unpackGroup bw bs := by
  simp only [unpackGroup, unpackValue, List.take_append_of_le_length hlen]

theorem readBody_append {h : BitVec 64} {body : List Byte} {r : List Value × Nat}
    (hok : readBody bw need h body = .ok r) (extra : List Byte) : readBody bw need h (body ++ extra) = .ok r := by
  by_cases hbit : h.getLsbD 0 = true
  · rw [readBody_bp hbit] at hok ⊢
    split at hok
    · cases hok
    · next hlen =>
      have hlen := Nat.le_of_not_lt hlen
      rw [unpackGroup_append extra hlen, List.length_append, if_neg (by omega)]
      exact hok
  · cases body with
    | nil => rw [readBody_rle_nil hbit] at hok; cases hok
    | cons v rest =>
      rw [readBody_rle_cons hbit] at hok
      exact (readBody_rle_cons hbit bw need v (rest ++ extra)).trans hok

theorem readRun_append {bs : List Byte} {vs : List Value} {j : Nat} (hok : readRun bw need bs = .ok (vs, j))
    (extra : List Byte) : readRun bw need (bs ++ extra) = .ok (vs, j) ∧ j ≤ bs.length := by
  obtain ⟨h, c, m, hv, hbody, rfl⟩ := readRun_eq_ok_iff.mp hok
  obtain ⟨-, hc⟩ := varintOf_length hv
  obtain ⟨-, hm, -⟩ := length_of_readBody hbody
  rw [List.length_drop] at hm
  refine ⟨readRun_eq_ok_iff.mpr ⟨h, c, m, varintOf_append hv extra, ?_, rfl⟩, by omega⟩
  rw [List.drop_append_of_le_length hc]
  exact readBody_append hbody extra

/-- Values that are read are read whatever follows, and with any more fuel. -/
theorem readRuns_append {fuel fuel' : Nat} {bs : List Byte} {vs : List Value} (hok : readRuns bw fuel need bs = .ok vs)
    (hfuel : fuel ≤ fuel') (extra : List Byte) : readRuns bw fuel' need (bs ++ extra) = .ok vs := by
  induction fuel generalizing fuel' need bs vs with
  | zero =>
    cases need with
    | zero => rw [readRuns_zero] at hok ⊢; exact hok
    | succ need => cases hok
  | succ fuel ih =>
    cases need with
    | zero => rw [readRuns_zero] at hok ⊢; exact hok
    | succ need =>
      obtain ⟨fuel', rfl⟩ := Nat.exists_eq_add_of_le' (Nat.one_le_of_lt hfuel)
      rw [readRuns_succ] at hok ⊢
      cases hrun : readRun bw (need + 1) bs with
      | error e => rw [hrun] at hok; cases hok
      | ok r =>
        obtain ⟨ws, j⟩ := r
        obtain ⟨hrun', hj⟩ := readRun_append hrun extra
        rw [hrun] at hok
        rw [hrun']
        simp only [Except.bind] at hok ⊢
        cases hrest : readRuns bw fuel (need + 1 - ws.length) (bs.drop j) with
        | error e => rw [hrest] at hok; cases hok
        | ok more =>
          rw [hrest] at hok
          rw [List.drop_append_of_le_length hj, ih hrest (by omega)]
          exact hok

end run

/-- Settles O43: each run the contract reads, it reads whatever follows. -/
theorem trailingBytesIgnored : Obligations.TrailingBytesIgnored := by
  unfold Obligations.TrailingBytesIgnored
  intro bw total bs extra vs hok
  unfold decodeStream at hok ⊢
  cases hlegal : legalWidth bw with
  | false => rw [hlegal] at hok; cases hok
  | true =>
    rw [hlegal] at hok
    rw [List.length_append]
    exact readRuns_append hok (by omega) extra

/-- A run of length 0 takes its two bytes and stands for nothing. -/
theorem readRun_zeroLength (bw need : Nat) (x : Byte) (bs : List Byte) :
    readRun bw need (0x00 :: x :: bs) = .ok ([], 2) :=
  readRun_eq_ok_iff.mpr ⟨0, 1, 1, varintOf_append (bs := [0x00]) (r := (0, 1)) (by decide) (x :: bs), by
    simp [readBody], rfl⟩

theorem readRuns_zeroLength (bw fuel need : Nat) (xs : List Byte) :
    readRuns bw fuel (need + 1) (xs.flatMap fun x => [0x00, x]) = .error .overrunError := by
  induction fuel generalizing xs with
  | zero => rfl
  | succ fuel ih =>
    cases xs with
    | nil => rfl
    | cons x xs =>
      rw [readRuns_succ, show (x :: xs).flatMap (fun x => [0x00, x]) = 0x00 :: x :: xs.flatMap fun x => [0x00, x] from rfl,
        readRun_zeroLength]
      exact congrArg (Except.map _) (ih xs)

/-- Settles O42: each such run leaves as many values owed as before, and no run follows the last. -/
theorem zeroLengthRunsEndInOverrun : Obligations.ZeroLengthRunsEndInOverrun := by
  unfold Obligations.ZeroLengthRunsEndInOverrun
  intro bw total xs hlegal
  rw [decodeStream, if_pos hlegal, readRuns_zeroLength]

end Sys2Proof.Machine

/-! DECODE against its contract (O41): from the stop test on, run_reader reads the run that the contract reads, in at most two
steps for each of its bytes, or raises the contract's error. -/

namespace Sys2Proof.Machine

theorem advanceN_one {u : UnitId} {s t : State} (h : advance u s = .next t) : advanceN 1 u s = .next t := by
  rw [advanceN, h]
  rfl

theorem advanceN_succ_last {k : Nat} {u : UnitId} {s t r : State} (h : advanceN k u s = .next t)
    (hlast : advance u t = .next r) : advanceN (k + 1) u s = .next r :=
  (advanceN_add k 1 u s t h).trans (advanceN_one hlast)

/-- The bytes of its input that run_reader has not read. -/
def RunReader.left (u : RunReader) : List Byte := Memory.slice u.sin u.rr_pos.toNat (u.slen.toNat - u.rr_pos.toNat)

theorem RunReader.length_left (u : RunReader) : u.left.length = u.slen.toNat - u.rr_pos.toNat := Memory.length_slice _ _ _

theorem RunReader.reads.left_eq_drop {u u' : RunReader} {k : Nat} {vs : List Value} (h : u.reads u' k vs) :
    u'.left = u.left.drop k := by
  rw [RunReader.left, RunReader.left, Memory.drop_slice, h.sin, h.slen, h.pos, Nat.sub_add_eq]

theorem RunReader.reads.room_eq {u u' : RunReader} {k : Nat} {vs : List Value} (h : u.reads u' k vs) :
    u'.room = u.room - vs.length := by
  rw [RunReader.room, RunReader.room, h.total, h.count, Nat.sub_add_eq]

/-- Within `bound` steps run_reader raises `e`, its input as it was. -/
def State.decodeFails (s : State) (e : Status) (bound : Nat) : Prop :=
  ∃ k u, k ≤ bound ∧ u.sin = s.rr.sin ∧ advanceN k .runReader s = .next (State.raise { s with rr := u } .runReader e)

section fails
variable {s : State} {e : Status}

theorem State.decodeFails_mono {bound bound' : Nat} (h : s.decodeFails e bound) (hle : bound ≤ bound') :
    s.decodeFails e bound' :=
  let ⟨k, u, hk, hrest⟩ := h
  ⟨k, u, hk.trans hle, hrest⟩

/-- An error after some steps of run_reader's own. -/
theorem State.decodeFails_after {u : RunReader} {j bound : Nat} (hj : advanceN j .runReader s = .next { s with rr := u })
    (hsin : u.sin = s.rr.sin) (h : State.decodeFails { s with rr := u } e bound) : s.decodeFails e (j + bound) := by
  obtain ⟨k, u', hk, hsin', hrun⟩ := h
  refine ⟨j + k, u', Nat.add_le_add_left hk j, hsin'.trans hsin, ?_⟩
  rw [advanceN_add j k _ _ _ hj, hrun]

theorem State.decodeFails_one (h : advance .runReader s = .next (s.raise .runReader e)) : s.decodeFails e 1 :=
  ⟨1, s.rr, le_rfl, rfl, advanceN_one h⟩

end fails

/-! ### The header -/

section bytes
variable {sin : Memory} {base avail n : Nat}

theorem varintFits_of_not_varintStuck (hn : n ≤ 10) (h : ¬ varintStuck sin base avail n) :
    varintFits (Memory.read (sin.startingAt base)) n ∧ n < avail := by
  unfold varintStuck at h
  refine ⟨⟨by omega, ?_⟩, by omega⟩
  rintro ⟨rfl, hp⟩
  rw [Memory.read_startingAt] at hp
  exact h (.inr (.inr ⟨rfl, hp⟩))

/-- A fetch that takes in its last byte has a varint. -/
theorem varintStopsAt.ends (h : varintStopsAt sin base avail n) (hn : n ≤ 10) (hs : ¬ varintStuck sin base avail n) :
    varintEnds (Memory.read (sin.startingAt base)) avail n := by
  obtain ⟨hfits, hlt⟩ := varintFits_of_not_varintStuck hn hs
  refine ⟨fun k hk => ?_, hfits, hlt, ?_⟩
  · obtain ⟨hfits, hlt⟩ := varintFits_of_not_varintStuck (by omega) (h.takes k hk)
    exact ⟨hfits, hlt, by rw [Memory.read_startingAt]; exact h.cont k hk⟩
  · rw [Memory.read_startingAt]
    exact h.stops.resolve_left hs

theorem varintStopsAt.le_avail (h : varintStopsAt sin base avail n) : n ≤ avail := by
  by_contra hlt
  exact h.takes avail (by omega) (.inr (.inl le_rfl))

end bytes

section header
variable {s : State}

theorem State.left_ne_nil_iff (hpos : s.rr.rr_pos.toNat ≤ s.rr.slen.toNat) : s.rr.left ≠ [] ↔ s.rr.rr_pos ≠ s.rr.slen := by
  rw [ne_eq, ne_eq, ← BitVec.toNat_inj, ← List.length_eq_zero_iff, RunReader.length_left]
  omega

/-- The registers of run_reader before the run whose header is a varint of `c` bytes. -/
theorem advanceN_readHeader (hb : s.busy .runReader = true) (hp : s.rr.phase = .top)
    (howed : s.rr.rr_count.toNat < s.rr.total.toNat) (hpos : s.rr.rr_pos ≠ s.rr.slen) {h : BitVec 64} {c : Nat}
    (hv : varintOf s.rr.left = some (h, c)) :
    advanceN (c + 1) .runReader s = .next (s.headerDone c) ∧ (s.headerDone c).rr.rr_h = h ∧
      (s.headerDone c).rr.rr_pos.toNat = s.rr.rr_pos.toNat + c := by
  obtain ⟨hc, hle⟩ := varintOf_length hv
  obtain ⟨n, rfl, hends, hh⟩ := (varintOf_eq_some_iff (indexes_slice _ _ _)).mp hv
  have hslen := s.rr.slen.isLt
  rw [RunReader.length_left] at hle
  refine ⟨?_, hh.symm, ?_⟩
  · rw [Nat.add_comm (n + 1), advanceN_add 1 _ _ _ _ (advanceN_one (advance_top_of_owed hb hp howed hpos))]
    exact advanceN_header_ok hb (varintEndsAt_succ_iff_varintEnds.mpr (by rwa [Memory.length_slice] at hends))
  · have hlen : ((s.headerRegs (n + 1)).vd_n.setWidth 33).toNat = n + 1 :=
      (BitVec.toNat_setWidth_of_le (by decide)).trans (varintRegs_n _ hends.fits.1)
    exact (BitVec.toNat_add_of_lt (by omega)).trans (congrArg (_ + ·) hlen)

/-- Without a varint at the front of what is left, the header fetch ends in `MalformedHeader`. -/
theorem decodeFails_malformed (hb : s.busy .runReader = true) (hp : s.rr.phase = .top)
    (howed : s.rr.rr_count.toNat < s.rr.total.toNat) (hpos : s.rr.rr_pos ≠ s.rr.slen)
    (hv : varintOf s.rr.left = none) : s.decodeFails .malformedHeader (s.rr.left.length + 2) := by
  have htop := advanceN_one (advance_top_of_owed hb hp howed hpos)
  have hfetch : (s.headerTaken 0).fetching .reader := ⟨hb, rfl⟩
  obtain ⟨n, hn, hstops⟩ := exists_varintStopsAt s.rr.sin s.rr.rr_pos.toNat (s.rr.slen.toNat - s.rr.rr_pos.toNat)
  obtain ⟨w, hw, he⟩ := advanceN_fetching hfetch rfl hn hstops.takes hstops.cont
  have hle := hstops.le_avail
  rw [← RunReader.length_left] at hle
  obtain ⟨-, hraise⟩ | ⟨hs, -⟩ := advance_setVdecRegs_cases hfetch hw
  · refine ⟨1 + (n + 1), { (s.headerTaken 0).rr with vd := w }, by omega, rfl, ?_⟩
    rw [advanceN_add 1 _ _ _ _ htop]
    exact advanceN_succ_last he hraise
  · have hends := hstops.ends hn hs
    have hsome := (varintOf_eq_some_iff (indexes_slice s.rr.sin s.rr.rr_pos.toNat _)).mpr
      ⟨n, rfl, by rwa [Memory.length_slice], rfl⟩
    exact absurd (hv.symm.trans hsome) (by simp)

end header

/-! ### The body -/

theorem unpackGroup_take (bw : Nat) (bs : List Byte) : unpackGroup bw (bs.take bw) = unpackGroup bw bs := by
  simp only [unpackGroup, unpackValue, List.take_take, Nat.min_self]

/-- A run instruction does what the contract does with the body: its values are appended, or the same error is raised. -/
theorem exec_readBody {s : State} (hlegal : legalWidth s.rr.bw = true) (hpos : s.rr.rr_pos.toNat ≤ s.rr.slen.toNat)
    (h : BitVec 64) :
    (∃ vs m u, readBody s.rr.bw.toNat s.rr.room h s.rr.left = .ok (vs, m) ∧
      exec (decodeHeader h) s = .next { s with rr := u } ∧ s.rr.reads u m vs) ∨
    (∃ e, readBody s.rr.bw.toNat s.rr.room h s.rr.left = .error e ∧
      exec (decodeHeader h) s = .next (s.raise .runReader e)) := by
  obtain ⟨-, hbw⟩ := (legalWidth_iff _).mp hlegal
  have hslen := s.rr.slen.isLt
  have hlen := s.rr.length_left
  unfold decodeHeader
  by_cases hbit : h.getLsbD 0 = true
  · rw [if_pos hbit, readBody_bp hbit, hlen]
    obtain ⟨hlt, he⟩ | ⟨hle, he⟩ := execBp_cases (h.extractLsb' 1 63) s
    · rw [if_pos hlt]
      exact .inr ⟨_, rfl, he⟩
    · rw [if_neg (by omega)]
      have hwidth : (s.rr.bw.setWidth 33).toNat = s.rr.bw.toNat := BitVec.toNat_setWidth_of_le (by decide)
      have hgroup : unpackGroup s.rr.bw.toNat s.rr.left =
          (unpackWhole s.rr.bw.toNat s.rr.rr_pos.toNat s.rr.sin s.rr.rr_grp).1 := by
        rw [unpackWhole_group hbw, ← unpackGroup_take, RunReader.left,
          show s.rr.slen.toNat - s.rr.rr_pos.toNat = s.rr.bw.toNat + (s.rr.slen.toNat - s.rr.rr_pos.toNat - s.rr.bw.toNat)
            by omega, Memory.slice_add, List.take_left' (Memory.length_slice _ _ _)]
      have hvalues : (unpackGroup s.rr.bw.toNat s.rr.left).toList.take s.rr.room =
          (unpackWhole s.rr.bw.toNat s.rr.rr_pos.toNat s.rr.sin s.rr.rr_grp).1.toList.take (min 8 s.rr.room) := by
        rw [hgroup, List.take_eq_take_min, Vector.length_toList, Nat.min_comm]
      refine .inl ⟨_, _, _, rfl, he, ?_⟩
      rw [hvalues]
      refine RunReader.reads.appendAll ?_ ?_
      · exact ⟨rfl, rfl, rfl, rfl, rfl, (BitVec.toNat_add_of_lt (by omega)).trans (congrArg (_ + ·) hwidth), rfl, rfl⟩
      · rw [List.length_take]
        exact (Nat.min_le_left _ _).trans (Nat.min_le_right _ _)
  · rw [if_neg hbit]
    obtain ⟨hend, he⟩ | ⟨hne, he⟩ := execRle_cases (h.extractLsb' 1 63) s
    · have hnil : s.rr.left = [] := not_not.mp (mt (State.left_ne_nil_iff hpos).mp (not_not_intro hend))
      rw [hnil, readBody_rle_nil hbit]
      exact .inr ⟨_, rfl, he⟩
    · obtain ⟨v, rest, hleft⟩ := List.exists_cons_of_ne_nil ((State.left_ne_nil_iff hpos).mpr hne)
      have hne' : s.rr.rr_pos.toNat ≠ s.rr.slen.toNat := mt BitVec.eq_of_toNat_eq hne
      have hvalue : Memory.read s.rr.sin s.rr.rr_pos.toNat = v := by
        have hhead := Memory.headD_slice (len := s.rr.slen.toNat - s.rr.rr_pos.toNat) s.rr.sin s.rr.rr_pos.toNat (by omega)
        rw [← hhead, ← RunReader.left, hleft]
        rfl
      rw [hvalue, headerField_toNat] at he
      rw [hleft, readBody_rle_cons hbit]
      refine .inl ⟨_, _, _, rfl, he, ?_⟩
      refine RunReader.reads.appendAll ?_ ?_
      · exact ⟨rfl, rfl, rfl, rfl, rfl, toNat_add_one _ (by omega), rfl, rfl⟩
      · rw [List.length_replicate]
        exact Nat.min_le_right _ _

/-! ### A run -/

/-- From the stop test on, with values owed, run_reader reads the run that the contract reads, or raises its error. -/
theorem advanceN_readRun {s : State} (hb : s.busy .runReader = true) (hp : s.rr.phase = .top)
    (hlegal : legalWidth s.rr.bw = true) (hpos : s.rr.rr_pos.toNat ≤ s.rr.slen.toNat)
    (howed : s.rr.rr_count.toNat < s.rr.total.toNat) :
    (∃ vs j k u, readRun s.rr.bw.toNat s.rr.room s.rr.left = .ok (vs, j) ∧ k ≤ 2 * j ∧
      advanceN k .runReader s = .next { s with rr := u } ∧ s.rr.reads u j vs) ∨
    (∃ e, readRun s.rr.bw.toNat s.rr.room s.rr.left = .error e ∧ s.decodeFails e (s.rr.left.length + 2)) := by
  by_cases hend : s.rr.rr_pos = s.rr.slen
  · have hnil : s.rr.left = [] := not_not.mp (mt (State.left_ne_nil_iff hpos).mp (not_not_intro hend))
    rw [hnil, readRun_nil]
    have hraise : advance .runReader s = .next (s.raise .runReader .overrunError) := by
      rw [advance_busy hb]
      obtain ⟨hle, -⟩ | ⟨-, -, he⟩ | ⟨-, hne, -⟩ := readerTop_cases s
      · omega
      · exact (readerStep_top s hp).trans (congrArg Host.Outcome.next he)
      · exact absurd hend hne
    exact .inr ⟨_, rfl, State.decodeFails_mono (State.decodeFails_one hraise) (by omega)⟩
  · cases hv : varintOf s.rr.left with
    | none =>
      exact .inr ⟨_, readRun_of_malformed ((State.left_ne_nil_iff hpos).mpr hend) hv,
        decodeFails_malformed hb hp howed hend hv⟩
    | some r =>
      obtain ⟨h, c⟩ := r
      obtain ⟨hc, hle⟩ := varintOf_length hv
      obtain ⟨hrun, hh, hpos'⟩ := advanceN_readHeader hb hp howed hend hv
      have hstep : advance .runReader (s.headerDone c) = exec (decodeHeader h) (s.headerDone c) := by
        rw [advance_of_body (s := s.headerDone c) hb rfl, hh]
      have hleft : (s.headerDone c).rr.left = s.rr.left.drop c := by
        rw [RunReader.left, hpos', RunReader.left, Memory.drop_slice, ← Nat.sub_add_eq]
        rfl
      rw [RunReader.length_left] at hle
      have hin : (s.headerDone c).rr.rr_pos.toNat ≤ s.rr.slen.toNat := by omega
      have hbody := exec_readBody (s := s.headerDone c) hlegal hin h
      rw [hleft] at hbody
      rw [readRun_of_varintOf hv]
      obtain ⟨vs, m, u, hok, he, hreads⟩ | ⟨e, herr, he⟩ := hbody
      · obtain ⟨hbw, -⟩ := (legalWidth_iff _).mp hlegal
        obtain ⟨-, -, hm⟩ := length_of_readBody hok
        refine .inl ⟨vs, c + m, c + 1 + 1, u, congrArg (Except.map _) hok, by have := hm hbw; omega, ?_,
          hreads.bw, hreads.total, hreads.slen, hreads.sin, hreads.phase, by rw [hreads.pos, hpos', Nat.add_assoc],
          hreads.count, hreads.vout⟩
        exact advanceN_succ_last hrun (hstep.trans he)
      · refine .inr ⟨e, congrArg (Except.map _) herr, State.decodeFails_mono (State.decodeFails_after hrun rfl
          (State.decodeFails_one (hstep.trans he))) ?_⟩
        rw [RunReader.length_left]
        omega

/-! ### The stream -/

/-- run_reader at work appends the values of the contract and answers OK, or raises the contract's error. -/
theorem advanceN_readRuns {fuel : Nat} {s : State} (hb : s.busy .runReader = true) (hp : s.rr.phase = .top)
    (hlegal : legalWidth s.rr.bw = true) (hpos : s.rr.rr_pos.toNat ≤ s.rr.slen.toNat) (hfuel : s.rr.left.length < fuel) :
    (∃ vs k j u, readRuns s.rr.bw.toNat fuel s.rr.room s.rr.left = .ok vs ∧ vs.length = s.rr.room ∧
      k ≤ 2 * s.rr.left.length + 1 ∧ advanceN k .runReader s = .next (s.decodeAnswered u) ∧ s.rr.reads u j vs) ∨
    (∃ e, readRuns s.rr.bw.toNat fuel s.rr.room s.rr.left = .error e ∧ s.decodeFails e (2 * s.rr.left.length + 2)) := by
  induction fuel generalizing s with
  | zero => exact absurd hfuel (Nat.not_lt_zero _)
  | succ fuel ih =>
    by_cases hdone : s.rr.room = 0
    · refine .inl ⟨[], 1, 0, s.rr, ?_, hdone.symm, by omega, ?_, RunReader.reads_nil hp⟩
      · rw [hdone, readRuns_zero]
      · exact advanceN_one (advance_top_of_done hb hp hdone)
    · have howed : s.rr.rr_count.toNat < s.rr.total.toNat := by rw [RunReader.room] at hdone; omega
      have hrun := advanceN_readRun hb hp hlegal hpos howed
      obtain ⟨need, hneed⟩ := Nat.exists_eq_succ_of_ne_zero hdone
      rw [hneed] at hrun ⊢
      rw [readRuns_succ]
      obtain ⟨vs, j, k, u, hok, hk, hsteps, hreads⟩ | ⟨e, herr, hfails⟩ := hrun
      · obtain ⟨h, c, m, hv, hbody, rfl⟩ := readRun_eq_ok_iff.mp hok
        obtain ⟨hc, hle⟩ := varintOf_length hv
        obtain ⟨hvs, hm, -⟩ := length_of_readBody hbody
        have hleft := congrArg List.length hreads.left_eq_drop
        rw [List.length_drop] at hleft hm
        have hlen := s.rr.length_left
        have hrest := ih (s := { s with rr := u }) hb hreads.phase ((congrArg legalWidth hreads.bw).trans hlegal)
          (by simp only [hreads.pos, hreads.slen]; omega) (by simp only [hleft]; omega)
        simp only [hreads.bw, hreads.room_eq, hreads.left_eq_drop, hneed] at hrest
        rw [hok]
        simp only [Except.bind]
        obtain ⟨more, k', j', u', hmore, hlength, hk', hsteps', hreads'⟩ | ⟨e, herr, hfails⟩ := hrest
        · refine .inl ⟨vs ++ more, k + k', c + m + j', u', by rw [hmore]; rfl, ?_, ?_, ?_, hreads.trans hreads'⟩
          · rw [List.length_append, hlength]; omega
          · rw [List.length_drop] at hk'; omega
          · rw [advanceN_add k _ _ _ _ hsteps, hsteps']
            rfl
        · refine .inr ⟨e, by rw [herr]; rfl, State.decodeFails_mono
            (State.decodeFails_after hsteps hreads.sin hfails) ?_⟩
          rw [List.length_drop]
          omega
      · exact .inr ⟨e, by rw [herr]; rfl, State.decodeFails_mono hfails (by omega)⟩

/-! ### The command -/

/-- DECODE, accepted in `s`, before its first stop test. -/
def State.decodeStarted (s : State) (bw : BitVec 8) (total : BitVec 32) (slen : BitVec 33) : State :=
  (s.accept .runReader).latchDecode bw total slen

section decode
variable {s : State} {bw : BitVec 8} {total : BitVec 32} {slen : BitVec 33}

theorem State.sameUnit_decodeStarted {u : UnitId} (hu : u ≠ .runReader) :
    s.sameUnit (s.decodeStarted bw total slen) u :=
  State.sameUnit_trans (State.sameUnit_accept s hu) (State.sameUnit_latchDecode _ bw slen total hu)

theorem State.sameUnit_setReader (s : State) (r : RunReader) {u : UnitId} (hu : u ≠ .runReader) :
    s.sameUnit { s with rr := r } u := by
  cases u <;> first | exact ⟨rfl, rfl⟩ | exact absurd rfl hu

/-- DECODE at an idle unit comes to the answer that the contract gives. -/
theorem exec_decode_contract (hb : s.busy .runReader = false) :
    ∃ t, exec (.decode .runReader bw total slen) s = .next t ∧
      ((∃ vs u j, decodeStream bw total.toNat (Memory.slice s.rr.sin 0 slen.toNat) = .ok vs ∧ vs.length = total.toNat ∧
        t.reachesWithin .runReader (2 * slen.toNat + 2) ((s.decodeStarted bw total slen).decodeAnswered u) ∧
        (s.decodeStarted bw total slen).rr.reads u j vs) ∨
      (∃ e u, decodeStream bw total.toNat (Memory.slice s.rr.sin 0 slen.toNat) = .error e ∧ u.sin = s.rr.sin ∧
        t.reachesWithin .runReader (2 * slen.toNat + 2)
          (State.raise { s.decodeStarted bw total slen with rr := u } .runReader e))) := by
  cases hlegal : legalWidth bw with
  | false =>
    refine ⟨_, exec_decode_illegal total slen hb hlegal, .inr ⟨.badArgument, (s.decodeStarted bw total slen).rr, ?_, rfl,
      0, Nat.zero_le _, rfl⟩⟩
    rw [decodeStream, hlegal]
    rfl
  | true =>
    have hlen : (s.decodeStarted bw total slen).rr.left.length = slen.toNat := Memory.length_slice _ _ _
    have hrun := advanceN_readRuns (s := s.decodeStarted bw total slen) rfl rfl hlegal (Nat.zero_le _) (Nat.lt_succ_self _)
    rw [hlen] at hrun
    refine ⟨_, exec_decode total slen hb hlegal, ?_⟩
    rw [decodeStream, if_pos hlegal, Memory.length_slice]
    obtain ⟨vs, k, j, u, hok, hvs, hk, hsteps, hreads⟩ | ⟨e, herr, k, u, hk, hsin, hsteps⟩ := hrun
    · exact .inl ⟨vs, u, j, hok, hvs, ⟨k, by omega, hsteps⟩, hreads⟩
    · exact .inr ⟨e, u, herr, hsin, k, hk, hsteps⟩

end decode

/-- Settles O41: by induction on the fuel of the contract, the runs read agree, and with them the answer. -/
theorem decodeRefinesContract : Obligations.DecodeRefinesContract := by
  unfold Obligations.DecodeRefinesContract
  intro s bw total slen hb hwf
  obtain ⟨t, ht, ⟨vs, u, j, hok, hlen, hr, hreads⟩ | ⟨e, u, herr, hsin, hr⟩⟩ :=
    exec_decode_contract (bw := bw) (total := total) (slen := slen) hb
  · have hsin : u.sin = s.rr.sin := hreads.sin
    have hvout : u.vout = Memory.writeList s.rr.vout 0 vs := hreads.vout
    have hcount : u.rr_count = total := BitVec.eq_of_toNat_eq (hreads.count.trans ((Nat.zero_add _).trans hlen))
    have htotal := total.isLt
    refine ⟨t, _, ht, hr, fun v hv => ?_, rfl, hsin, ?_⟩
    · exact State.sameUnit_trans (State.sameUnit_decodeStarted hv)
        (State.sameUnit_trans (State.sameUnit_setReader _ u hv) (State.sameUnit_respond _ .ok hv))
    · rw [hok]
      refine ⟨rfl, hlen, hcount, ?_, rfl, hlen ▸ State.onlyStored_writeList hvout fun b hbuf => ?_⟩
      · have hholds := Memory.holds_writeList hwf (a := 0) (bs := vs) (by rw [hlen, Config.spaceSize]; omega)
        rw [← hvout, Memory.holds, hlen] at hholds
        exact hholds
      · cases b <;> first | rfl | exact hsin | exact absurd rfl hbuf
  · refine ⟨t, _, ht, hr, fun v hv => ?_, State.raise_agenda _ _ _, ?_, ?_⟩
    · exact State.sameUnit_trans (State.sameUnit_decodeStarted hv)
        (State.sameUnit_trans (State.sameUnit_setReader _ u hv) (State.sameUnit_raise _ e hv))
    · exact hsin
    · rw [herr]
      exact State.raise_control_self _ _ _

end Sys2Proof.Machine

/-! Every command is answered (O51); operands and inputs stay fixed (O48). -/

namespace Sys2Proof.Machine

/-! ### Answers -/

/-- Unit `u` answers in at most `bound` steps of its own. -/
def State.answersWithin (s : State) (u : UnitId) (bound : Nat) : Prop :=
  ∃ r : State, s.reachesWithin u bound r ∧ r.busy u = false ∧ (r.control u).answered = true

section answers
variable {s r : State} {u : UnitId} {bound : Nat}

theorem State.answersWithin_of_reaches {k : Status} (h : s.reachesWithin u bound r) (hr : r.control u = answeredWith k) :
    s.answersWithin u bound :=
  ⟨r, h, congrArg Control.busy hr, congrArg Control.answered hr⟩

/-- An error of the checks at acceptance is its answer. -/
theorem State.answersWithin_raise (s : State) (u : UnitId) (k : Status) (bound : Nat) :
    (s.raise u k).answersWithin u bound :=
  State.answersWithin_of_reaches ⟨0, Nat.zero_le _, rfl⟩ (State.raise_control_self s u k)

theorem vdec_answersWithin (s : State) (avail : BitVec 33) :
    (s.vdecTaken avail 0).answersWithin .varintDecoder 11 := by
  by_cases hends : ∃ m, varintEndsAt s.vd.sin avail.toNat m
  · obtain ⟨m, hm⟩ := hends
    obtain ⟨-, hle, -⟩ := id hm
    exact State.answersWithin_of_reaches ⟨m, by omega, advanceN_vdec_ok hm⟩ (State.vdecAnswered_results hm).1
  · obtain ⟨n, hn, he⟩ := advanceN_vdec_malformed (not_exists.mp hends)
    exact State.answersWithin_of_reaches ⟨n + 1, by omega, he⟩ (State.raise_control_self _ _ _)

theorem classify_answersWithin (s : State) {n i : BitVec 32} (hi : i.toNat < n.toNat) :
    (s.classifyAt n i (classifyRegs s.rc.vin i.toNat 1)).answersWithin .rleRunClassifier 0x3FFF := by
  have hpos := classifyLen_valuesFrom_pos (vin := s.rc.vin) hi
  have hcap := classifyLen_le_cap (valuesFrom s.rc.vin n.toNat i.toNat)
  obtain ⟨j, hj⟩ := Nat.exists_eq_add_of_le hpos
  exact State.answersWithin_of_reaches (k := .ok) ⟨j + 1, by omega, advanceN_classifyAt hi hj.symm⟩ rfl

theorem encode_answersWithin (s : State) (bw : BitVec 8) (n : BitVec 32) (hb : s.busy .runSegmenter = false) :
    ∃ t, exec (.encode .runSegmenter bw n) s = .next t ∧ t.answersWithin .runSegmenter ((n.toNat + 7) / 8 + 1) := by
  obtain ⟨hlegal, -, hexec⟩ | ⟨k, -, -, hexec⟩ := exec_encode_cases bw n hb
  · obtain ⟨u, -, hrun⟩ := advanceN_encodeStarted (s := s) (n := n) hlegal
    have hsteps := length_segment_le (Memory.length_slice s.rs.vin 0 n.toNat).le
    rw [Memory.length_slice] at hsteps
    exact ⟨_, hexec, State.answersWithin_of_reaches (k := .ok) ⟨_, Nat.add_le_add_right hsteps 1, hrun⟩ rfl⟩
  · exact ⟨_, hexec, State.answersWithin_raise _ _ k _⟩

theorem decode_answersWithin (s : State) (bw : BitVec 8) (total : BitVec 32) (slen : BitVec 33)
    (hb : s.busy .runReader = false) : ∃ t, exec (.decode .runReader bw total slen) s = .next t ∧
      t.answersWithin .runReader (2 * slen.toNat + 2) := by
  obtain ⟨t, ht, ⟨vs, u, j, -, -, hr, -⟩ | ⟨e, u, -, -, hr⟩⟩ :=
    exec_decode_contract (bw := bw) (total := total) (slen := slen) hb
  · exact ⟨t, ht, State.answersWithin_of_reaches (k := .ok) hr rfl⟩
  · exact ⟨t, ht, State.answersWithin_of_reaches hr (State.raise_control_self _ _ _)⟩

/-- A command of its own that passes the checks of acceptance is answered within its bound. -/
theorem own_command_answersWithin {op : BitVec 3} {x : Operands} (hf : ¬ foreignCode u op) (hb : s.busy u = false)
    (hcheck : promptError s u x = none) :
    ∃ t, exec (decodeCommand u op x) s = .next t ∧ t.answersWithin u (answerBound op x) := by
  obtain ⟨h0, rfl⟩ := not_foreignCode_iff.mp hf
  obtain rfl | rfl | rfl | rfl | rfl | rfl | rfl | rfl := op_cases op
  · exact absurd rfl h0
  · exact ⟨_, exec_venc x.v hb, State.answersWithin_of_reaches (k := .ok)
      ⟨_, varintLen_le x.v, advanceN_beginVenc s x.v⟩ rfl⟩
  · exact ⟨_, exec_vdec x.avail hb, vdec_answersWithin s x.avail⟩
  · have hlegal : legalWidth x.bw = true := by simpa [promptError, ownerOf] using hcheck
    exact ⟨_, exec_pack hb hlegal, State.answersWithin_of_reaches (k := .ok)
      ⟨8, le_rfl, advanceN_pack ((legalWidth_iff _).mp hlegal).2⟩ rfl⟩
  · obtain ⟨hlegal, havail⟩ : legalWidth x.bw = true ∧ x.bw.toNat ≤ x.avail.toNat := by
      by_cases hlegal : legalWidth x.bw = true
      · simpa [promptError, ownerOf, hlegal] using hcheck
      · simp [promptError, ownerOf, hlegal] at hcheck
    exact ⟨_, exec_unpack hb hlegal havail, State.answersWithin_of_reaches (k := .ok)
      ⟨8, le_rfl, advanceN_unpack ((legalWidth_iff _).mp hlegal).2⟩ rfl⟩
  · have hi : x.i.toNat < x.n.toNat := by simpa [promptError, ownerOf] using hcheck
    exact ⟨_, exec_classify hb hi, classify_answersWithin s hi⟩
  · exact encode_answersWithin s x.bw x.n hb
  · exact decode_answersWithin s x.bw x.total x.slen hb

end answers

/-- Settles O51: a foreign code and a failed check are answered at acceptance, and each operation within its bound. -/
theorem acceptedCommandIsAnswered : Obligations.AcceptedCommandIsAnswered := by
  unfold Obligations.AcceptedCommandIsAnswered
  intro s u op x hb
  have hanswer : ∃ t, exec (decodeCommand u op x) s = .next t ∧ t.answersWithin u (answerBound op x) := by
    by_cases hf : foreignCode u op
    · exact ⟨_, exec_foreign_command x hf hb, State.answersWithin_raise _ _ _ _⟩
    · obtain ⟨r, -, -, -, -, -, ⟨hcheck, -⟩ | ⟨k, -, he⟩⟩ := exec_own_command x hf hb
      · exact own_command_answersWithin hf hb hcheck
      · exact ⟨_, he, State.answersWithin_raise r u k _⟩
  obtain ⟨t, ht, r, hr⟩ := hanswer
  exact ⟨t, r, ht, hr⟩

end Sys2Proof.Machine

/-! Operands and inputs (O48), and what a step, a command and a host write do (O4, O6, O7, O10 to O14, O16, O24). -/

namespace Sys2Proof.Machine

/-! ### Operands and inputs -/

/-- The operands latched by unit `v`, and its input buffer (10_state.md R24, 20_memory.md R60). -/
def State.operands (s : State) : UnitId → Operands × Memory
  | .varintEncoder => ({ v := s.ve.v }, [])
  | .varintDecoder => ({ avail := s.vd.avail }, s.vd.sin)
  | .bitPacker => ({ bw := s.bp.bw, vals := s.bp.vals }, [])
  | .bitUnpacker => ({ bw := s.bu.bw, avail := s.bu.avail }, s.bu.sin)
  | .rleRunClassifier => ({ n := s.rc.n, i := s.rc.i }, s.rc.vin)
  | .runSegmenter => ({ bw := s.rs.bw, n := s.rs.n }, s.rs.vin)
  | .runReader => ({ bw := s.rr.bw, total := s.rr.total, slen := s.rr.slen }, s.rr.sin)

section operands
variable {s t : State}

theorem State.operands_of_sameUnit {u : UnitId} (h : s.sameUnit t u) : t.operands u = s.operands u := by
  obtain ⟨-, hregs⟩ := h
  cases u <;> simp only at hregs <;> simp only [State.operands, hregs]

theorem State.operands_raise (s : State) (u : UnitId) (k : Status) (v : UnitId) :
    (s.raise u k).operands v = s.operands v := by
  by_cases hv : v = u
  · subst hv
    cases v <;> rfl
  · exact State.operands_of_sameUnit (State.sameUnit_raise s k hv)

theorem State.operands_accept (s : State) (u v : UnitId) : (s.accept u).operands v = s.operands v := by
  by_cases hv : v = u
  · subst hv
    cases v <;> rfl
  · exact State.operands_of_sameUnit (State.sameUnit_accept s hv)

theorem vencStep_operands (s : State) : (vencStep s).operands .varintEncoder = s.operands .varintEncoder := by
  obtain ⟨-, he⟩ | ⟨-, he⟩ := vencStep_cases s <;> rw [he] <;> rfl

theorem packStep_operands (s : State) : (packStep s).operands .bitPacker = s.operands .bitPacker := by
  obtain ⟨-, he⟩ | ⟨-, he⟩ := packStep_cases s <;> rw [he] <;> rfl

theorem unpackStep_operands (s : State) : (unpackStep s).operands .bitUnpacker = s.operands .bitUnpacker := by
  obtain ⟨-, he⟩ | ⟨-, he⟩ := unpackStep_cases s <;> rw [he] <;> rfl

theorem classifyStep_operands (s : State) :
    (classifyStep s).operands .rleRunClassifier = s.operands .rleRunClassifier := by
  obtain ⟨-, he⟩ | ⟨-, he⟩ := classifyStep_cases s <;> rw [he] <;> rfl

theorem encodeStep_operands (s : State) : (encodeStep s).operands .runSegmenter = s.operands .runSegmenter := by
  obtain ⟨-, he⟩ | ⟨-, he⟩ := encodeStep_cases s <;> rw [he]
  · obtain ⟨hbw, hn, hvin, -⟩ := encodePass_frame s.rs
    simp only [State.operands, hbw, hn, hvin]
  · rfl

theorem vdecStep_operands (ht : vdecStep s = .next t) : t.operands .varintDecoder = s.operands .varintDecoder := by
  obtain ⟨-, he⟩ | ⟨-, -, w, -, ⟨-, he⟩ | ⟨-, he⟩⟩ := vdecStep_cases s <;> rw [he] at ht <;> cases ht
  · exact State.operands_raise s _ _ _
  · rfl
  · rfl

theorem exec_run_operands {h : BitVec 64} (ht : exec (decodeHeader h) s = .next t) :
    t.operands .runReader = s.operands .runReader := by
  unfold decodeHeader at ht
  split at ht
  · obtain ⟨-, he⟩ | ⟨-, he⟩ := execBp_cases (h.extractLsb' 1 63) s <;> cases he.symm.trans ht
    · exact State.operands_raise s _ _ _
    · rw [appendAll_frame]
      rfl
  · obtain ⟨-, he⟩ | ⟨-, he⟩ := execRle_cases (h.extractLsb' 1 63) s <;> cases he.symm.trans ht
    · exact State.operands_raise s _ _ _
    · rw [appendAll_frame]
      rfl

theorem readerStep_operands (ht : readerStep s = .next t) : t.operands .runReader = s.operands .runReader := by
  cases hp : s.rr.phase with
  | top =>
    rw [readerStep_top s hp] at ht; cases ht
    obtain ⟨-, he⟩ | ⟨-, -, he⟩ | ⟨-, -, he⟩ := readerTop_cases s <;> rw [he]
    · rfl
    · exact State.operands_raise s _ _ _
    · rfl
  | header =>
    obtain ⟨-, he⟩ | ⟨-, -, w, -, ⟨-, he⟩ | ⟨-, he⟩⟩ := readerStep_header_cases s hp <;> rw [he] at ht <;> cases ht
    · exact State.operands_raise s _ _ _
    · rfl
    · rfl
  | body => exact exec_run_operands ((readerStep_body s hp).symm.trans ht)

/-- No step of a unit changes the operands or the input of any. -/
theorem advance_operands {u : UnitId} (ht : advance u s = .next t) (v : UnitId) : t.operands v = s.operands v := by
  by_cases hv : v = u
  · subst hv
    cases hb : s.busy v with
    | false => rw [advance_idle hb] at ht; cases ht; rfl
    | true =>
      rw [advance_busy hb] at ht
      cases v with
      | varintEncoder => cases ht; exact vencStep_operands s
      | varintDecoder => exact vdecStep_operands ht
      | bitPacker => cases ht; exact packStep_operands s
      | bitUnpacker => cases ht; exact unpackStep_operands s
      | rleRunClassifier => cases ht; exact classifyStep_operands s
      | runSegmenter => cases ht; exact encodeStep_operands s
      | runReader => exact readerStep_operands ht
  · obtain ⟨hothers, -⟩ := advance_control ht
    exact State.operands_of_sameUnit (hothers v hv)

/-- The operand registers and input buffers, one by one. -/
theorem State.operands_eq_iff : (∀ v, t.operands v = s.operands v) ↔
    t.ve.v = s.ve.v ∧ t.vd.avail = s.vd.avail ∧ t.vd.sin = s.vd.sin ∧ t.bp.bw = s.bp.bw ∧ t.bp.vals = s.bp.vals ∧
    t.bu.bw = s.bu.bw ∧ t.bu.avail = s.bu.avail ∧ t.bu.sin = s.bu.sin ∧ t.rc.n = s.rc.n ∧ t.rc.i = s.rc.i ∧
    t.rc.vin = s.rc.vin ∧ t.rs.bw = s.rs.bw ∧ t.rs.n = s.rs.n ∧ t.rs.vin = s.rs.vin ∧ t.rr.bw = s.rr.bw ∧
    t.rr.total = s.rr.total ∧ t.rr.slen = s.rr.slen ∧ t.rr.sin = s.rr.sin := by
  have hunits : (∀ v, t.operands v = s.operands v) ↔
      t.operands .varintEncoder = s.operands .varintEncoder ∧ t.operands .varintDecoder = s.operands .varintDecoder ∧
      t.operands .bitPacker = s.operands .bitPacker ∧ t.operands .bitUnpacker = s.operands .bitUnpacker ∧
      t.operands .rleRunClassifier = s.operands .rleRunClassifier ∧
      t.operands .runSegmenter = s.operands .runSegmenter ∧ t.operands .runReader = s.operands .runReader :=
    ⟨fun h => ⟨h _, h _, h _, h _, h _, h _, h _⟩, fun ⟨hve, hvd, hbp, hbu, hrc, hrs, hrr⟩ v => by cases v <;> assumption⟩
  rw [hunits]
  simp [State.operands, and_assoc]

end operands

/-- Settles O48: the step writes no operand and no input of its own unit, and nothing of another. -/
theorem operandsAndInputsStayFixed : Obligations.OperandsAndInputsStayFixed := by
  unfold Obligations.OperandsAndInputsStayFixed
  exact fun u s t ht => State.operands_eq_iff.mp (advance_operands ht)

/-! ### Steps -/

/-- Settles O12: a command at the port of a busy unit changes nothing, and the step is the unit's, which keeps the agenda. -/
theorem busyUnitHoldsCommand : Obligations.BusyUnitHoldsCommand := by
  unfold Obligations.BusyUnitHoldsCommand
  intro s u op x hb
  refine ⟨exec_busy_command u op x hb, fun rest ha => ?_⟩
  have hstep : step s = advance u s := by simp [step, State.move, ha, hb, State.perform]
  refine ⟨hstep, fun t ht => ?_⟩
  obtain ⟨-, hagenda, -⟩ := advance_control (hstep.symm.trans ht)
  exact hagenda

/-- Settles O4: what is left of the step is taking the event off the agenda. -/
theorem abortOfIdleUnitDoesNothing : Obligations.AbortOfIdleUnitDoesNothing := by
  unfold Obligations.AbortOfIdleUnitDoesNothing
  intro s u rest ha hb
  rw [step_abort ha, State.abort_of_idle (s := { s with agenda := rest }) hb]

theorem step_hostWrite {s : State} {b : Buffer} {offset : BitVec 33} {x : Byte} {rest : List Event}
    (h : s.agenda = .hostWrite b offset x :: rest) : step s = hostWrite b offset x { s with agenda := rest } := by
  simp [step, State.move, h, State.perform]

/-- Settles O6: of the three cases of a host write the last alone changes a buffer, by one write. -/
theorem hostWriteTouchesOneElement : Obligations.HostWriteTouchesOneElement := by
  unfold Obligations.HostWriteTouchesOneElement
  intro s b offset x rest ha hwf
  have hbuffer : ∀ b', State.buffer { s with agenda := rest } b' = s.buffer b' := fun b' => by cases b' <;> rfl
  rw [step_hostWrite ha]
  obtain ⟨hle, he⟩ | ⟨hlt, hb, he⟩ | ⟨hlt, hb, he⟩ := hostWrite_cases b offset x { s with agenda := rest }
  · exact ⟨fun _ => he, by omega, by omega⟩
  · exact ⟨by omega, fun _ _ => he, fun _ hidle => absurd (hidle.symm.trans hb) (by decide)⟩
  · refine ⟨by omega, fun _ hbusy => absurd (hb.symm.trans hbusy) (by decide), fun _ _ => ⟨_, he, ?_, ?_, ?_, ?_, ?_, ?_⟩⟩
    · rw [State.setBuffer_agenda]
    · rw [State.setBuffer_ctl]
    · rw [State.setBuffer_draws]
    · rw [State.setBuffer_buffer_self, hbuffer]
      exact Memory.read_write_self hwf _ x
    · intro b' a hout
      by_cases hbb : b' = b
      · subst hbb
        rw [State.setBuffer_buffer_self, hbuffer, Memory.read_write_of_ne]
        rintro rfl
        exact hout ⟨rfl, le_rfl, Nat.lt_succ_self _⟩
      · rw [State.setBuffer_buffer_of_ne _ _ _ hbb, hbuffer]
    · cases b <;> rfl

/-- Settles O7: the words are the tables' own (30_encoding.md R90, R93, R94, R106), evaluated. -/
theorem knownWordsDecode : Obligations.KnownWordsDecode := by
  unfold Obligations.KnownWordsDecode
  decide

end Sys2Proof.Machine

/-! Acceptance, varint bytes, and what a step executes: the tier 1 statements about `exec` and `step`. -/

namespace Sys2Proof.Machine

/-! ### Acceptance -/

/-- Settles O14: a command of the idle unit's own latches its operands, and the tests of legality leave its loop begun. -/
theorem legalCommandIsAccepted : Obligations.LegalCommandIsAccepted := by
  unfold Obligations.LegalCommandIsAccepted
  intro s begun
  refine ⟨fun hb v => exec_venc v hb, fun hb avail => exec_vdec avail hb, fun hb bw vals hbw => ?_,
    fun hb bw avail hbw havail => ?_, fun hb n i hi => ?_, fun hb bw n hbw hfit => ?_,
    fun hb bw total slen hbw => exec_decode total slen hb hbw⟩
  · exact (presented_own (beginPack bw vals) hb).trans (congrArg Host.Outcome.next (if_pos hbw))
  · exact (presented_own (beginUnpack bw avail) hb).trans
      (congrArg Host.Outcome.next ((if_pos hbw).trans (if_neg havail.not_gt)))
  · exact (presented_own (beginClassify n i) hb).trans (congrArg Host.Outcome.next (if_neg hi.not_ge))
  · have hrange : ¬ anyOutOfRange s.rs.vin n.toNat bw.toNat = true := by
      rw [anyOutOfRange_iff]
      rintro ⟨k, hk, hlarge⟩
      exact (hfit k hk).not_ge hlarge
    exact (presented_own (beginEncode bw n) hb).trans
      (congrArg Host.Outcome.next ((if_pos hbw).trans (if_neg hrange)))

theorem exec_reserved {s : State} {u : UnitId} (hb : s.busy u = false) :
    exec (.reserved u) s = .next ((s.accept u).raise u .badArgument) :=
  exec_foreign_command (op := 0) {} (.inl rfl) hb

/-- Settles O16: acceptance and the error change neither an operand nor another unit, and of the buffers the output alone. -/
theorem reservedCodeAnsweredBadArgument : Obligations.ReservedCodeAnsweredBadArgument := by
  unfold Obligations.ReservedCodeAnsweredBadArgument
  intro s u hb
  obtain ⟨hve, hvd, -, hbpw, hbpv, hbuw, hbua, -, hrcn, hrci, -, hrsw, hrsn, -, hrrw, hrrt, hrrs, -⟩ :=
    State.operands_eq_iff.mp fun v =>
      (State.operands_raise (s.accept u) u .badArgument v).trans (State.operands_accept s u v)
  refine ⟨_, exec_reserved hb, rfl, State.raise_control_self _ _ _,
    fun v hv => State.sameUnit_trans (State.sameUnit_accept s hv) (State.sameUnit_raise _ _ hv), by simp,
    fun b hout => (State.raise_buffer_of_ne _ _ _ hout).trans (State.accept_buffer s u b), ?_⟩
  exact ⟨hve, hvd, hbpw, hbpv, hbuw, hbua, hrcn, hrci, hrsw, hrsn, hrrw, hrrt, hrrs⟩

/-! ### A varint byte -/

/-- Settles O24: the byte is refused or absorbed, and the absorbed one goes on or ends the varint. -/
theorem varintByteExecutes : Obligations.VarintByteExecutes := by
  unfold Obligations.VarintByteExecutes
  intro s d p w w'
  obtain ⟨h9, hp, habsorb⟩ | ⟨hfits, habsorb⟩ := varintAbsorb_cases (s.vdecRegs d) p
  · refine ⟨fun _ => ⟨?_, ?_⟩, fun hfits => absurd ⟨h9, hp⟩ hfits⟩
    · rw [exec, execVarintCont, habsorb]
    · rw [exec, execVarintLast, habsorb]
  · have hlast : exec (.varintLast d p) s = .next (varintDone d w' s) := by rw [exec, execVarintLast, habsorb]
    refine ⟨fun hover => absurd hover hfits, fun _ => ⟨by rw [exec, execVarintCont, habsorb], ?_, ?_⟩⟩
    · rintro rfl
      exact hlast
    · rintro rfl
      exact hlast

/-! ### Every instruction answers a next state -/

theorem presented_next (own u : UnitId) (body : State → State) (s : State) : ∃ t, presented own u body s = .next t := by
  obtain ⟨-, he⟩ | ⟨-, -, he⟩ | ⟨-, -, he⟩ := presented_cases own u body s <;> exact ⟨_, he⟩

theorem exec_next (i : Instr) (s : State) : ∃ t, exec i s = .next t := by
  cases i with
  | rle runLength => obtain ⟨-, he⟩ | ⟨-, he⟩ := execRle_cases runLength s <;> exact ⟨_, he⟩
  | bp groupCount => obtain ⟨-, he⟩ | ⟨-, he⟩ := execBp_cases groupCount s <;> exact ⟨_, he⟩
  | varintCont d payload => obtain ⟨-, he⟩ | ⟨_, -, he⟩ := execVarintCont_cases d payload s <;> exact ⟨_, he⟩
  | varintLast d payload => obtain ⟨-, he⟩ | ⟨_, -, he⟩ := execVarintLast_cases d payload s <;> exact ⟨_, he⟩
  | venc u v => exact presented_next ..
  | vdec u avail => exact presented_next .varintDecoder u (fun s => s.latchVdec avail) s
  | pack u bw vals => exact presented_next ..
  | unpack u bw avail => exact presented_next ..
  | classify u n i => exact presented_next ..
  | encode u bw n => exact presented_next ..
  | decode u bw total slen => exact presented_next ..
  | reserved u =>
    cases hb : s.busy u with
    | false => exact ⟨_, exec_reserved hb⟩
    | true => exact ⟨s, exec_busy_command u 0 {} hb⟩

theorem advance_fetching_next {s : State} {d : DecoderId} (h : s.fetching d) : ∃ t, advance d.unit s = .next t := by
  obtain ⟨-, he⟩ | ⟨-, w, -, ⟨-, he⟩ | ⟨-, he⟩⟩ := advance_fetching_cases h <;> exact ⟨_, he⟩

theorem advance_next (u : UnitId) (s : State) : ∃ t, advance u s = .next t := by
  cases hb : s.busy u with
  | false => exact ⟨s, advance_idle hb⟩
  | true =>
    cases u with
    | varintEncoder => exact ⟨_, advance_busy hb⟩
    | varintDecoder => exact advance_fetching_next (d := .standalone) hb
    | bitPacker => exact ⟨_, advance_busy hb⟩
    | bitUnpacker => exact ⟨_, advance_busy hb⟩
    | rleRunClassifier => exact ⟨_, advance_busy hb⟩
    | runSegmenter => exact ⟨_, advance_busy hb⟩
    | runReader =>
      cases hp : s.rr.phase with
      | top => exact ⟨_, (advance_busy hb).trans (readerStep_top s hp)⟩
      | header => exact advance_fetching_next (d := .reader) ⟨hb, hp⟩
      | body =>
        rw [advance_of_body hb hp]
        exact exec_next _ s

/-- Settles O13: the errors are responses, so each instruction and each unit's step ends in a state. -/
theorem everyInstructionAnswersNext : Obligations.EveryInstructionAnswersNext := by
  unfold Obligations.EveryInstructionAnswersNext
  exact ⟨exec_next, advance_next⟩

/-! ### What a step executes -/

section step
variable {s : State} {u : UnitId} {rest : List Event}

theorem step_tick (h : s.agenda = .tick u :: rest) : step s = advance u { s with agenda := rest } := by
  simp [step, State.move, h, State.perform]

theorem step_command {op : BitVec 3} {x : Operands} (h : s.agenda = .command u op x :: rest) (hb : s.busy u = false) :
    step s = exec (decodeCommand u op x) { s with agenda := rest } := by
  simp [step, State.move, h, hb, State.perform]

theorem step_of_no_event (h : s.agenda = []) (hb : ∃ u, s.busy u = true) :
    ∃ u, s.busy u = true ∧ step s = advance u s := by
  obtain ⟨u, hu⟩ := hb
  obtain ⟨v, hv, hfirst⟩ := firstBusy_of_busy UnitId.all (s := s) ⟨u, by cases u <;> decide, hu⟩
  exact ⟨v, hv, by simp [step, State.move, h, hfirst, State.perform]⟩

/-- A varint decoder at work fetches the byte it reads, where the tests before it let it. -/
theorem fetchAt_of_fetching {d : DecoderId} (h : s.fetching d) :
    s.fetchAt d.unit =
      match varintFetch (s.vdecRegs d) (s.varintAvail d) (s.varintBase d) (s.varintSin d) with
      | .error _ => none
      | .ok b => some (decodeVarintByte d b) := by
  unfold State.fetchAt
  rw [if_pos h.busy]
  cases d with
  | standalone => rfl
  | reader => simp only [DecoderId.unit, h.2]; rfl

theorem advance_of_fetchAt_fetching {d : DecoderId} {i : Instr} (hd : s.fetching d) (h : s.fetchAt d.unit = some i) :
    advance d.unit s = exec i s := by
  rw [fetchAt_of_fetching hd] at h
  rw [advance_of_fetching hd]
  obtain ⟨-, he⟩ | ⟨-, -, he⟩ :=
    varintFetch_cases (s.vdecRegs d) (s.varintAvail d) (s.varintBase d) (s.varintSin d) <;> rw [he] at h ⊢
  · cases h
  · cases h; rfl

/-- Where a unit's next step fetches an instruction, the step executes it. -/
theorem advance_of_fetchAt {i : Instr} (h : s.fetchAt u = some i) : advance u s = exec i s := by
  cases hb : s.busy u with
  | false => simp [State.fetchAt, hb] at h
  | true =>
    cases u with
    | varintDecoder => exact advance_of_fetchAt_fetching (d := .standalone) hb h
    | runReader =>
      cases hp : s.rr.phase with
      | top => simp [State.fetchAt, hb, hp] at h
      | header => exact advance_of_fetchAt_fetching (d := .reader) ⟨hb, hp⟩ h
      | body =>
        rw [advance_of_body hb hp]
        simp only [State.fetchAt, hb, hp, if_true, Option.some.injEq] at h
        rw [h]
    | _ => simp [State.fetchAt, hb] at h

/-- The next move, its cause taken off the agenda, changes nothing else. -/
theorem State.move_snd (s : State) : ∃ rest, s.move.2 = { s with agenda := rest } := by
  unfold State.move
  split
  case h_2 => split <;> exact ⟨_, rfl⟩
  all_goals exact ⟨_, rfl⟩

/-- What a unit fetches does not depend on the agenda. -/
theorem State.fetchAt_agenda (s : State) (u : UnitId) (rest : List Event) :
    State.fetchAt { s with agenda := rest } u = s.fetchAt u := rfl

theorem step_of_fetch {i : Instr} (h : s.fetch = some i) : step s = exec i s.move.2 := by
  obtain ⟨rest, hrest⟩ := s.move_snd
  cases hm : s.move.1 with
  | command u op x =>
    simp only [State.fetch, hm, Option.some.injEq] at h
    rw [step, hm, ← h, State.perform]
  | unit u =>
    simp only [State.fetch, hm] at h
    rw [step, hm, hrest]
    exact advance_of_fetchAt ((s.fetchAt_agenda u rest).trans h)
  | _ => simp [State.fetch, hm] at h

/-- A varint decoder at work with a byte on offer, and fewer than ten consumed, executes that byte. -/
theorem advance_of_byte {d : DecoderId} (hd : s.fetching d) (hten : (s.vdecRegs d).vd_n.toNat < 10)
    (havail : (s.vdecRegs d).vd_n.toNat < s.varintAvail d) :
    advance d.unit s =
      exec (decodeVarintByte d (Memory.read (s.varintSin d) (s.varintBase d + (s.vdecRegs d).vd_n.toNat))) s := by
  rw [advance_of_fetching hd]
  obtain ⟨hend, -⟩ | ⟨-, -, he⟩ :=
    varintFetch_cases (s.vdecRegs d) (s.varintAvail d) (s.varintBase d) (s.varintSin d)
  · omega
  · rw [he]

end step

/-- Settles O11: the tick is the move, and with an empty agenda `firstBusy` finds a busy unit where there is one. -/
theorem stepAdvancesUnitAtWork : Obligations.StepAdvancesUnitAtWork := by
  unfold Obligations.StepAdvancesUnitAtWork
  exact ⟨fun s u rest ha => step_tick ha, fun s ha hb => step_of_no_event ha hb⟩

/-- Settles O10: the fetch names what the unit's step executes, be it a byte of a varint or a run. -/
theorem stepRunsFetchedInstruction : Obligations.StepRunsFetchedInstruction := by
  unfold Obligations.StepRunsFetchedInstruction
  refine ⟨fun s i h => step_of_fetch h, fun s u op x rest ha hb => step_command ha hb,
    fun s rest ha hb hten havail => ?_, fun s rest ha hb hp hten havail => ?_, fun s rest ha hb hp => ?_⟩
  all_goals rw [step_tick ha]
  · have hbyte := advance_of_byte (s := { s with agenda := rest }) (d := .standalone) hb hten havail
    simpa [DecoderId.unit, State.varintBase, State.vdecRegs, State.varintSin] using hbyte
  · exact advance_of_byte (s := { s with agenda := rest }) (d := .reader) ⟨hb, hp⟩ hten (Nat.lt_sub_iff_add_lt'.mpr havail)
  · exact advance_of_body (s := { s with agenda := rest }) hb hp

end Sys2Proof.Machine
